-- ==== Sys2Proof/Word.lean ====
section
/-!
DEFINITION. The word types of PGW-FRAMER (spec/00_scope.md rules R11 and R14): bytes, the unsigned integers
u16 and u32, and byte sequences.
-/

namespace Sys2Proof

/-- A byte, 0..255 (R11). -/
abbrev Byte := BitVec 8

/-- `u16` of R14. -/
abbrev U16 := BitVec 16

/-- `u32` of R14. -/
abbrev U32 := BitVec 32

/-- A byte sequence; index 0 is its first (oldest) byte (R11). -/
abbrev Bytes := List Byte

end Sys2Proof
end

