-- ==== Sys2Proof/Machine/Bytes.lean ====
section
/-!
DEFINITION. The byte primitives of spec/00_scope.md rules R11 to R13: reading and writing integers in their byte
order, slices, padding, and the payload write.
-/

namespace Sys2Proof.Machine

/-- `s[o]`. An index past the end, which no rule reads, gives 0x00. -/
def byteAt (s : Bytes) (o : Nat) : Byte := s.getD o 0

/-- `be16(s, o) = s[o]*256 + s[o+1]` (R12). -/
def be16 (s : Bytes) (o : Nat) : U16 := byteAt s o ++ byteAt s (o + 1)

/-- `be32(s, o)`, most significant byte first (R12). -/
def be32 (s : Bytes) (o : Nat) : U32 :=
  (byteAt s o ++ byteAt s (o + 1)) ++ (byteAt s (o + 2) ++ byteAt s (o + 3))

/-- `le16(s, o) = s[o] + s[o+1]*256`, used only for the checksum (R12, R52(c)). -/
def le16 (s : Bytes) (o : Nat) : U16 := byteAt s (o + 1) ++ byteAt s o

/-- `enc_be16(v)` (R12). -/
def encBe16 (v : U16) : Bytes := [v.extractLsb' 8 8, v.extractLsb' 0 8]

/-- `enc_be32(v)` (R12). -/
def encBe32 (v : U32) : Bytes :=
  [v.extractLsb' 24 8, v.extractLsb' 16 8, v.extractLsb' 8 8, v.extractLsb' 0 8]

/-- The little-endian placement of the checksum: `[c[7:0], c[15:8]]` (R52(c), R132). -/
def encLe16 (v : U16) : Bytes := [v.extractLsb' 0 8, v.extractLsb' 8 8]

/-- `s[a .. a+n)` (R11). -/
def slice (s : Bytes) (a n : Nat) : Bytes := (s.drop a).take n

/-- `bytes(n)`: `n` bytes 0x00 (R11). -/
def zeros (n : Nat) : Bytes := List.replicate n 0

/-- `a` brought to exactly `n` bytes: truncated, or padded with 0x00 (R182, R184). -/
def fitTo (n : Nat) (a : Bytes) : Bytes := a.take n ++ zeros (n - a.length)

/-- `MemWrite(o, |bs|, bs)` on the payload `p` being built (R13). -/
def memWrite (p : Bytes) (o : Nat) (bs : Bytes) : Bytes := p.take o ++ bs ++ p.drop (o + bs.length)

end Sys2Proof.Machine
end

