-- ==== Sys2Proof/Config.lean ====
section
/-!
DEFINITION. What is fixed between two resets: the configuration record `cfg` of spec/00_scope.md rule R8 and
spec/10_state.md rules R22 and R23 as plain data, the types its parts range over, and the one value the spec leaves
open without a bound (the checksum algorithm, as a free function).
-/

namespace Sys2Proof

/-- The two directions (R10): `up` is device to server ("Request"), `down` is server to device ("Response"). -/
inductive Dir where
  | up
  | down
deriving DecidableEq, Repr

/-- The six kinds in scope (R19, R77). -/
inductive Kind where
  | announce
  | energy
  | ping
  | config
  | query
  | bufferedEnergy
deriving DecidableEq, Repr

/-- A (kind, direction) pair (R16); twelve in all (R19). `⟨.announce, .down⟩` is the spec's ANNOUNCE.ACK. -/
structure Variant where
  kind : Kind
  dir : Dir
deriving DecidableEq, Repr

/-- The field names of the payload layouts R80 to R88. -/
inductive FieldName where
  | wifiSerial | deviceSerial | inverterSerial | deviceType
  | year | month | day | hour | minute | second
  | inverterStatus
  | ppv | vpv1 | ipv1 | ppv1 | vpv2 | ipv2 | ppv2
  | pac | fac | vac1 | iac1 | pac1
  | eacToday | eacTotal | epvTotal | epv1Today | epv1Total | epv2Today | epv2Total
  | ack
  | configId | configLength | configValue
  | firstConfig | lastConfig
deriving DecidableEq, Repr

/-- The field types of R14 and R78. `bytesOf n` is `bytes_L` with `L` the value of the field `n`. -/
inductive FieldType where
  | u8
  | u16
  | u32
  | str (width : Nat)
  | bytesOf (lengthField : FieldName)
deriving DecidableEq, Repr

/-- A field `(name, offset, width, type)` in payload space (R78); the type fixes the width. -/
structure FieldSpec where
  name : FieldName
  offset : Nat
  type : FieldType
deriving DecidableEq, Repr

/-- The layout of one variant: its fields and its `MINLEN` without a variable part (R80 to R89). -/
structure VariantLayout where
  fields : List FieldSpec
  minlen : Nat
deriving DecidableEq, Repr

/-- The parameter `LAYOUT` (R8): one layout for each variant. -/
abbrev Layout := List (Variant × VariantLayout)

/-- The checksum algorithm `CHK` as plain data (R130, R131). The spec leaves it open: any total function from bytes
to 16 bits. `crc16Modbus` is the spec's default, `sum16` the byte sum R130 names, `swapped c` is `c` with its two
bytes exchanged (92_eei_decisions.md D5), and `free n` is the `n`-th function of which nothing is known. -/
inductive ChkSel where
  | crc16Modbus
  | sum16
  | swapped (c : ChkSel)
  | free (n : Nat)
deriving DecidableEq, Repr

/-- A checksum algorithm of which nothing is known: the open parameter `CHK` of R8 (assumption 5). -/
opaque Config.freeChk : Nat → Bytes → U16

/-- One line of the obfuscation selection: it applies to the frames whose protocol id, function code and direction
agree with the parts that are given, and says whether their payload is obfuscated. -/
structure ObfRule where
  pid : Option U16
  fc : Option Byte
  dir : Option Dir
  obfuscate : Bool
deriving DecidableEq, Repr

/-- `OBF_SEL` as plain data (R8, R112): the first rule that applies decides, and no rule means "in clear". Every
function from (u16, u8, Dir) to Bool can be written so (assumption 6). -/
abbrev ObfSel := List ObfRule

/-- The configuration record `cfg` (R8, R22, R23). -/
structure Cfg where
  key : Bytes
  keyLen : Nat
  chk : ChkSel
  obfSel : ObfSel
  rxDir : Dir
  ackByte : Byte
  bufCap : Nat
  layout : Layout
deriving DecidableEq, Repr

end Sys2Proof
end

