-- ==== Sys2Proof/Machine/Layout.lean ====
section
/-!
DEFINITION. The numeric literals and the field table, kept in one place as spec/00_scope.md rule R18 asks: the frame
constants (R71, R72), the function codes (R77), the layouts of spec/30_encoding.md rules R80 to R88 with their MINLEN
(R89), the layout check (R92), and the configuration State.reset is reset with (R8).
-/

namespace Sys2Proof.Machine

/-- The transaction id stands at frame offset 0 (R70, R71). -/
def tidOffset : Nat := 0

/-- The protocol id stands at frame offset 2 (R70, R71). -/
def pidOffset : Nat := 2

/-- The length stands at frame offset 4 (R70, R71). -/
def lenOffset : Nat := 4

/-- The unit id stands at frame offset 6 (R70, R71). -/
def uidOffset : Nat := 6

/-- The function code stands at frame offset 7 (R70). -/
def fcOffset : Nat := 7

/-- The payload starts at frame offset 8 (R51, R57). -/
def payloadOffset : Nat := 8

/-- The MBAP header is the 7 bytes before the function code (R71). -/
def mbapLen : Nat := fcOffset

/-- The checksum takes the last two bytes of a frame (R70). -/
def chkLen : Nat := 2

/-- What a frame holds beside its payload: `N = P + 10` (R72). -/
def frameRest : Nat := payloadOffset + chkLen

/-- `LEN_BIAS`: `P = L - 2` (R72). -/
def lenBias : Nat := 2

/-- `FRAME_OVERHEAD`: `N = L + 8` (R72, 92_eei_decisions.md D3). -/
def frameOverhead : Nat := frameRest - lenBias

/-- The largest value of the length field, a u16 (R71, R72). -/
def maxLen : Nat := 65535

/-- The largest payload, 65533 bytes: `65535 - LEN_BIAS` (R72, R90). -/
def maxPayload : Nat := maxLen - lenBias

/-- The largest frame (R72) and the smallest legal `BUF_CAP` (R9): 65543 bytes, `65535 + FRAME_OVERHEAD`. -/
def maxFrame : Nat := maxLen + frameOverhead

/-- The six kinds in the order of R77's table (R19). -/
def allKinds : List Kind := [.announce, .energy, .ping, .config, .query, .bufferedEnergy]

/-- The function code of a kind (R77): the one place where the codes stand. -/
def kindCode : Kind → Byte
  | .announce => 0x03
  | .energy => 0x04
  | .ping => 0x16
  | .config => 0x18
  | .query => 0x19
  | .bufferedEnergy => 0x50

/-- The kind a function code selects; none for the other 250 values (R77, R97(a)). -/
def kindOf (fc : Byte) : Option Kind := allKinds.find? (fun k => decide (kindCode k = fc))

/-- `VARIANT(fc, dir)` (R77, R151). -/
def variantOf (fc : Byte) (dir : Dir) : Option Variant := (kindOf fc).map (fun k => ⟨k, dir⟩)

/-- The three one-byte acknowledgment variants ANNOUNCE.ACK, ENERGY.ACK and BUFFERED.ACK (R85). -/
def isAck (v : Variant) : Bool :=
  match v.dir, v.kind with
  | .down, .announce => true
  | .down, .energy => true
  | .down, .bufferedEnergy => true
  | _, _ => false

/-- R80: ANNOUNCE.UP. -/
def announceLayout : VariantLayout where
  fields := [
    ⟨.wifiSerial, 0, .str 10⟩, ⟨.deviceSerial, 30, .str 10⟩, ⟨.deviceType, 139, .str 16⟩,
    ⟨.year, 161, .u16⟩, ⟨.month, 163, .u16⟩, ⟨.day, 165, .u16⟩,
    ⟨.hour, 167, .u16⟩, ⟨.minute, 169, .u16⟩, ⟨.second, 171, .u16⟩]
  minlen := 173

/-- R81: ENERGY.UP; R82: BUFFERED.UP has the same layout, field for field. -/
def energyLayout : VariantLayout where
  fields := [
    ⟨.wifiSerial, 0, .str 10⟩, ⟨.inverterSerial, 30, .str 10⟩,
    ⟨.year, 60, .u8⟩, ⟨.month, 61, .u8⟩, ⟨.day, 62, .u8⟩,
    ⟨.hour, 63, .u8⟩, ⟨.minute, 64, .u8⟩, ⟨.second, 65, .u8⟩,
    ⟨.inverterStatus, 71, .u16⟩,
    ⟨.ppv, 73, .u32⟩, ⟨.vpv1, 77, .u16⟩, ⟨.ipv1, 79, .u16⟩, ⟨.ppv1, 81, .u32⟩,
    ⟨.vpv2, 85, .u16⟩, ⟨.ipv2, 87, .u16⟩, ⟨.ppv2, 89, .u32⟩,
    ⟨.pac, 117, .u32⟩, ⟨.fac, 121, .u16⟩, ⟨.vac1, 123, .u16⟩, ⟨.iac1, 125, .u16⟩, ⟨.pac1, 127, .u32⟩,
    ⟨.eacToday, 169, .u32⟩, ⟨.eacTotal, 173, .u32⟩, ⟨.epvTotal, 177, .u32⟩,
    ⟨.epv1Today, 181, .u32⟩, ⟨.epv1Total, 185, .u32⟩, ⟨.epv2Today, 189, .u32⟩, ⟨.epv2Total, 193, .u32⟩]
  minlen := 197

/-- R83: PING.UP; R84: PING.DOWN has the same layout. -/
def pingLayout : VariantLayout where
  fields := [⟨.wifiSerial, 0, .str 10⟩]
  minlen := 10

/-- R85: ANNOUNCE.ACK, ENERGY.ACK and BUFFERED.ACK. -/
def ackLayout : VariantLayout where
  fields := [⟨.ack, 0, .u8⟩]
  minlen := 1

/-- R86: CONFIG.UP and CONFIG.DOWN; R88: QUERY.UP has the same fields at the same offsets. -/
def configLayout : VariantLayout where
  fields := [
    ⟨.wifiSerial, 0, .str 10⟩, ⟨.configId, 30, .u16⟩, ⟨.configLength, 32, .u16⟩,
    ⟨.configValue, 34, .bytesOf .configLength⟩]
  minlen := 34

/-- R87: QUERY.DOWN. -/
def rangeLayout : VariantLayout where
  fields := [⟨.wifiSerial, 0, .str 10⟩, ⟨.firstConfig, 30, .u16⟩, ⟨.lastConfig, 32, .u16⟩]
  minlen := 34

/-- The table of 30_encoding.md: the one legal value of the parameter `LAYOUT` (R8, R23). -/
def layoutTable : Layout := [
  (⟨.announce, .up⟩, announceLayout), (⟨.energy, .up⟩, energyLayout), (⟨.bufferedEnergy, .up⟩, energyLayout),
  (⟨.ping, .up⟩, pingLayout), (⟨.config, .up⟩, configLayout), (⟨.query, .up⟩, configLayout),
  (⟨.announce, .down⟩, ackLayout), (⟨.energy, .down⟩, ackLayout), (⟨.bufferedEnergy, .down⟩, ackLayout),
  (⟨.ping, .down⟩, pingLayout), (⟨.config, .down⟩, configLayout), (⟨.query, .down⟩, rangeLayout)]

/-- The layout of a variant in a table. -/
def layoutOf (t : Layout) (v : Variant) : VariantLayout := (t.lookup v).getD ⟨[], 0⟩

/-- The width of a field whose width is fixed; a `bytes_L` field has no fixed width (R78). -/
def fixedWidth : FieldType → Nat
  | .u8 => 1
  | .u16 => 2
  | .u32 => 4
  | .str w => w
  | .bytesOf _ => 0

/-- Whether a field is of the variable type `bytes_L`. -/
def isVariable : FieldType → Bool
  | .bytesOf _ => true
  | _ => false

/-- The end of a field's fixed part. -/
def fieldEnd (f : FieldSpec) : Nat := f.offset + fixedWidth f.type

/-- Two fields of one layout do not overlap, whatever the length of a variable one (R92). -/
def disjointFields (f g : FieldSpec) : Bool :=
  (fieldEnd f ≤ g.offset && !isVariable f.type) || (fieldEnd g ≤ f.offset && !isVariable g.type)

/-- A variable field has its length in a `u16` field of the same layout (R78, R86). -/
def lengthFieldOk (l : VariantLayout) (f : FieldSpec) : Bool :=
  match f.type with
  | .bytesOf n => l.fields.any (fun g => g.name == n && g.type == .u16)
  | _ => true

/-- The layout check of R92 for one variant. -/
def variantLayoutOk (l : VariantLayout) : Bool :=
  l.fields.all (fun f => fieldEnd f ≤ l.minlen && lengthFieldOk l f) &&
  l.fields.all (fun f => l.fields.all (fun g => f.name == g.name || disjointFields f g))

/-- The layout check of R92: every variant's fields are pairwise disjoint and lie within `[0, MINLEN)`. -/
def layoutOk (t : Layout) : Bool := t.all (fun e => variantLayoutOk e.2)

/-- The fields R79 calls fixed-point, with one implicit decimal place; the block carries them as raw integers. -/
def isFixedPoint : FieldName → Bool
  | .ppv | .vpv1 | .ipv1 | .ppv1 | .vpv2 | .ipv2 | .ppv2 | .pac | .fac | .vac1 | .iac1 | .pac1 => true
  | .eacToday | .eacTotal | .epvTotal | .epv1Today | .epv1Total | .epv2Today | .epv2Total => true
  | _ => false

/-- The names R91 gives to values of `inverter_status`; the decoder delivers every value unchanged. -/
def inverterStatusName (v : U16) : Option String :=
  if v = 0 then some "Waiting" else if v = 1 then some "Normal" else if v = 3 then some "Fault" else none

/-- The one config id the source fixes: Date (R100). -/
def configIdDate : U16 := 0x1F

/-- The bytes of a date, the value of config id Date (R186). -/
def dateLength : U16 := 19

/-- The first config id of the full configuration range (R186). -/
def configIdFirst : U16 := 0x01

/-- The last config id of the full configuration range (R186). -/
def configIdLast : U16 := 0x1F

/-- `OBF_DEFAULT` (R113): true exactly for the six known function codes, for any pid and direction. -/
def obfDefault : ObfSel := allKinds.map (fun k => ⟨none, some (kindCode k), none, true⟩)

/-- The default of the parameter `KEY_LEN` (R8). -/
def keyLenDefault : Nat := 7

/-- The configuration the machine of `State.reset` was reset with: the defaults of R8 where it gives one.
DESIGN CHOICE (assumption 2): R8 leaves KEY open, and `KEY_LEN` bytes 0x00 stand for it here. -/
def launchCfg : Cfg where
  key := List.replicate keyLenDefault 0
  keyLen := keyLenDefault
  chk := .crc16Modbus
  obfSel := obfDefault
  rxDir := .up
  ackByte := 0x00
  bufCap := maxFrame
  layout := layoutTable

/-- A legal configuration (R9, with R23 and R92 for `LAYOUT`). -/
def legalCfg (c : Cfg) : Bool :=
  decide (1 ≤ c.keyLen) && decide (c.key.length = c.keyLen) && decide (maxFrame ≤ c.bufCap) &&
  layoutOk c.layout && decide (c.layout = layoutTable)

end Sys2Proof.Machine
end

