-- ==== Sys2Proof/Machine/Operands.lean ====
section
/-!
DEFINITION. The operand forms: how a field's value is assembled from a payload (spec/30_encoding.md rule R78), how many
payload bytes a variant needs (R153), DECODE (R154), how a field is written into a payload (R182 to R184) and ENCODE
(R180, R181, R185).
-/

namespace Sys2Proof

/-- The value of one field: an unsigned integer of the field's width, or a byte array (R78). -/
inductive FieldVal where
  | u8 (v : Byte)
  | u16 (v : U16)
  | u32 (v : U32)
  | bytes (a : Bytes)
deriving DecidableEq, Repr

/-- `fields`: every field name of a variant's layout with its value, in the layout's order (R93, R96). -/
abbrev Fields := List (FieldName × FieldVal)

end Sys2Proof

namespace Sys2Proof.Machine

/-- The value of the u16 field `n` in the payload `s`: the `L` of a `bytes_L` field (R78). -/
def lengthIn (l : VariantLayout) (n : FieldName) (s : Bytes) : Nat :=
  match l.fields.find? (fun f => f.name == n) with
  | some f => (be16 s f.offset).toNat
  | none => 0

/-- The value of the field `f` in the plaintext payload `s` (R78). No value is sign-extended, scaled or shifted. -/
def readField (l : VariantLayout) (s : Bytes) (f : FieldSpec) : FieldVal :=
  match f.type with
  | .u8 => .u8 (byteAt s f.offset)
  | .u16 => .u16 (be16 s f.offset)
  | .u32 => .u32 (be32 s f.offset)
  | .str w => .bytes (slice s f.offset w)
  | .bytesOf n => .bytes (slice s f.offset (lengthIn l n s))

/-- `DECODE(v, s)` (R154): every field of the layout with its value. -/
def decodeFields (l : VariantLayout) (s : Bytes) : Fields :=
  l.fields.map (fun f => (f.name, readField l s f))

/-- The bytes of the variable field of a layout, when its length can be read in `s`; 0 where there is none. -/
def variableLength (l : VariantLayout) (s : Bytes) : Nat :=
  match l.fields.find? (fun f => isVariable f.type) with
  | some ⟨_, _, .bytesOf n⟩ => lengthIn l n s
  | _ => 0

/-- `NEED(v, s)` (R153): MINLEN, and the declared length of the variable field once its length field is present. -/
def need (l : VariantLayout) (s : Bytes) : Nat :=
  if s.length < l.minlen then l.minlen else l.minlen + variableLength l s

/-- A command's value has the type of its field (R96, R183). -/
def valueFits : FieldType → FieldVal → Bool
  | .u8, .u8 _ => true
  | .u16, .u16 _ => true
  | .u32, .u32 _ => true
  | .str _, .bytes _ => true
  | .bytesOf _, .bytes _ => true
  | _, _ => false

/-- `fields` gives a value for every field of a list of fields, of the field's type, in the list's order (R96). -/
def fieldsFit : List FieldSpec → Fields → Bool
  | [], [] => true
  | f :: fs, (n, v) :: rest => f.name == n && valueFits f.type v && fieldsFit fs rest
  | _, _ => false

/-- The fields an ENC command supplies: those of the layout, and none for an ack variant (R96, R185). -/
def commandFields (t : Layout) (v : Variant) : List FieldSpec :=
  if isAck v then [] else (layoutOf t v).fields

/-- The declared length a command gives in its u16 field `n` (R184). -/
def declaredLength (n : FieldName) (fields : Fields) : Nat :=
  match fields.lookup n with
  | some (.u16 v) => v.toNat
  | _ => 0

/-- `enc(type, value)`: the bytes written for a field (R182, R183, R184). -/
def encodeValue (fields : Fields) : FieldType → FieldVal → Bytes
  | .u8, .u8 v => [v]
  | .u16, .u16 v => encBe16 v
  | .u32, .u32 v => encBe32 v
  | .str w, .bytes a => fitTo w a
  | .bytesOf n, .bytes a => fitTo (declaredLength n fields) a
  | _, _ => []

/-- Write the fields in the layout's order into the payload `p` (R180). -/
def writeFields (all : Fields) : List FieldSpec → Fields → Bytes → Bytes
  | f :: fs, (_, v) :: rest, p => writeFields all fs rest (memWrite p f.offset (encodeValue all f.type v))
  | _, _, p => p

/-- The length of the payload an ENC command builds (R89, R180). -/
def encodedLength (l : VariantLayout) (fields : Fields) : Nat :=
  match l.fields.find? (fun f => isVariable f.type) with
  | some ⟨_, _, .bytesOf n⟩ => l.minlen + declaredLength n fields
  | _ => l.minlen

/-- ENCODE over one layout: 0x00 in every byte no field covers (R180, R181). -/
def encodeFields (l : VariantLayout) (fields : Fields) : Bytes :=
  writeFields fields l.fields fields (zeros (encodedLength l fields))

/-- `ENCODE(v, fields)` under a configuration: an ack variant is the single byte ACK_BYTE (R180, R185). -/
def encodePayload (c : Cfg) (v : Variant) (fields : Fields) : Bytes :=
  encodeFields (layoutOf c.layout v) (if isAck v then [(.ack, .u8 c.ackByte)] else fields)

/-- A command's fields after the normalisation of R182 and R184: what a decoder of the payload reads back. -/
def normaliseFields (all : Fields) : List FieldSpec → Fields → Fields
  | f :: fs, (n, .bytes a) :: rest =>
    match f.type with
    | .str w => (n, .bytes (fitTo w a)) :: normaliseFields all fs rest
    | .bytesOf m => (n, .bytes (fitTo (declaredLength m all) a)) :: normaliseFields all fs rest
    | _ => (n, .bytes a) :: normaliseFields all fs rest
  | _ :: fs, e :: rest => e :: normaliseFields all fs rest
  | _, _ => []

end Sys2Proof.Machine
end

