-- ==== Sys2Proof/Syntax.lean ====
section
/-!
DEFINITION. The operations and the receive and transmit forms of PGW-FRAMER: one constructor of `Instr` for each row of
spec/opcode_table.json, with the operands of spec/30_encoding.md rules R95 and R96.
-/

namespace Sys2Proof

/-- The header values a transmit command supplies (R96, 92_eei_decisions.md D24). -/
structure TxHead where
  tid : U16
  pid : U16
  uid : Byte
deriving DecidableEq, Repr

/-- A frame on the receive path without its function code, which the row gives (R70). Its length field is
`|payload| + 2` (R72) and `chk` is the received 16-bit checksum. -/
structure RxFrame where
  tid : U16
  pid : U16
  uid : Byte
  payload : Bytes
  chk : U16
deriving DecidableEq, Repr

/-- One constructor per row of the opcode table. -/
inductive Instr where
  /-- RESET, operation code 000 (R240). -/
  | reset (c : Cfg)
  /-- RX_PUSH, operation code 001 (R120). -/
  | rxPush (b : Byte)
  /-- RX_POP, operation code 010 (R128). -/
  | rxPop
  /-- TX_ENC, operation code 011 (R190); the kind stands for "one of the six codes" (R96). -/
  | txEnc (h : TxHead) (kind : Kind) (dir : Dir) (fields : Fields)
  /-- TX_RAW, operation code 100 (R191). -/
  | txRaw (h : TxHead) (fc : Byte) (payload : Bytes)
  /-- TX_TAKE, operation code 101 (R192). -/
  | txTake
  /-- The reserved operation code 110 (R97(e)). -/
  | reserved110
  /-- The reserved operation code 111 (R97(e)). -/
  | reserved111
  /-- DEC.ANNOUNCE.UP (R160). -/
  | decAnnounceUp (f : RxFrame)
  /-- ENC.ANNOUNCE.UP (R193). -/
  | encAnnounceUp (h : TxHead) (fields : Fields)
  /-- DEC.ENERGY.UP (R161). -/
  | decEnergyUp (f : RxFrame)
  /-- ENC.ENERGY.UP (R194). -/
  | encEnergyUp (h : TxHead) (fields : Fields)
  /-- DEC.BUFFERED.UP (R162). -/
  | decBufferedUp (f : RxFrame)
  /-- ENC.BUFFERED.UP (R195). -/
  | encBufferedUp (h : TxHead) (fields : Fields)
  /-- DEC.PING.UP (R163). -/
  | decPingUp (f : RxFrame)
  /-- ENC.PING.UP (R196). -/
  | encPingUp (h : TxHead) (fields : Fields)
  /-- DEC.CONFIG.UP (R164). -/
  | decConfigUp (f : RxFrame)
  /-- ENC.CONFIG.UP (R202). -/
  | encConfigUp (h : TxHead) (fields : Fields)
  /-- DEC.QUERY.UP (R165). -/
  | decQueryUp (f : RxFrame)
  /-- ENC.QUERY.UP (R204). -/
  | encQueryUp (h : TxHead) (fields : Fields)
  /-- DEC.ANNOUNCE.ACK (R166). -/
  | decAnnounceAck (f : RxFrame)
  /-- ENC.ANNOUNCE.ACK (R198); no operand but the header. -/
  | encAnnounceAck (h : TxHead)
  /-- DEC.ENERGY.ACK (R167). -/
  | decEnergyAck (f : RxFrame)
  /-- ENC.ENERGY.ACK (R199). -/
  | encEnergyAck (h : TxHead)
  /-- DEC.BUFFERED.ACK (R168). -/
  | decBufferedAck (f : RxFrame)
  /-- ENC.BUFFERED.ACK (R200). -/
  | encBufferedAck (h : TxHead)
  /-- DEC.PING.DOWN (R169). -/
  | decPingDown (f : RxFrame)
  /-- ENC.PING.DOWN (R197). -/
  | encPingDown (h : TxHead) (fields : Fields)
  /-- DEC.CONFIG.DOWN (R170). -/
  | decConfigDown (f : RxFrame)
  /-- ENC.CONFIG.DOWN (R201). -/
  | encConfigDown (h : TxHead) (fields : Fields)
  /-- DEC.QUERY.DOWN (R171). -/
  | decQueryDown (f : RxFrame)
  /-- ENC.QUERY.DOWN (R203). -/
  | encQueryDown (h : TxHead) (fields : Fields)
  /-- DEC.PASS (R152): a frame whose function code is outside the six. -/
  | decPass (fc : Byte) (f : RxFrame)
  /-- RAW.ANY (R191): TX_RAW seen as the transmit row of every function code. -/
  | rawAny (h : TxHead) (fc : Byte) (payload : Bytes)
deriving DecidableEq, Repr

/-- The receive row of a variant. -/
def Instr.ofReceive (v : Variant) (f : RxFrame) : Instr :=
  match v.kind, v.dir with
  | .announce, .up => .decAnnounceUp f
  | .energy, .up => .decEnergyUp f
  | .bufferedEnergy, .up => .decBufferedUp f
  | .ping, .up => .decPingUp f
  | .config, .up => .decConfigUp f
  | .query, .up => .decQueryUp f
  | .announce, .down => .decAnnounceAck f
  | .energy, .down => .decEnergyAck f
  | .bufferedEnergy, .down => .decBufferedAck f
  | .ping, .down => .decPingDown f
  | .config, .down => .decConfigDown f
  | .query, .down => .decQueryDown f

/-- The transmit row of a variant; an ack row takes no fields. -/
def Instr.ofTransmit (v : Variant) (h : TxHead) (fields : Fields) : Instr :=
  match v.kind, v.dir with
  | .announce, .up => .encAnnounceUp h fields
  | .energy, .up => .encEnergyUp h fields
  | .bufferedEnergy, .up => .encBufferedUp h fields
  | .ping, .up => .encPingUp h fields
  | .config, .up => .encConfigUp h fields
  | .query, .up => .encQueryUp h fields
  | .announce, .down => .encAnnounceAck h
  | .energy, .down => .encEnergyAck h
  | .bufferedEnergy, .down => .encBufferedAck h
  | .ping, .down => .encPingDown h fields
  | .config, .down => .encConfigDown h fields
  | .query, .down => .encQueryDown h fields

end Sys2Proof
end

