-- ==== Sys2Proof/WellFormed.lean ====
section
/-!
DEFINITION. When an instruction can be written at all: the checks on operands that the types do not carry
(spec/30_encoding.md rules R72, R96 and R97).
-/

namespace Sys2Proof

/-- A configuration a host can name: its layout is the one table the source fixes (R8, R23). Whether the rest is legal
is RESET's own question (R9). -/
def Cfg.wellFormed (c : Cfg) : Bool := decide (c.layout = Machine.layoutTable)

/-- A payload fits a frame: `|payload| <= 65533` (R72, R96). -/
def payloadFits (p : Bytes) : Bool := decide (p.length ≤ Machine.maxPayload)

/-- `fields` gives a value for every field of the variant, typed as the layout says, and nothing else (R96, R183). -/
def commandFits (v : Variant) (fields : Fields) : Bool :=
  Machine.fieldsFit (Machine.commandFields Machine.layoutTable v) fields

/-- The instruction can be written (R96, R97). -/
def Instr.wellFormed : Instr → Bool
  | .reset c => c.wellFormed
  | .rxPush _ => true
  | .rxPop => true
  | .txEnc _ k d fields => commandFits ⟨k, d⟩ fields
  | .txRaw _ _ p => payloadFits p
  | .txTake => true
  | .reserved110 => true
  | .reserved111 => true
  | .decAnnounceUp f => payloadFits f.payload
  | .encAnnounceUp _ fields => commandFits ⟨.announce, .up⟩ fields
  | .decEnergyUp f => payloadFits f.payload
  | .encEnergyUp _ fields => commandFits ⟨.energy, .up⟩ fields
  | .decBufferedUp f => payloadFits f.payload
  | .encBufferedUp _ fields => commandFits ⟨.bufferedEnergy, .up⟩ fields
  | .decPingUp f => payloadFits f.payload
  | .encPingUp _ fields => commandFits ⟨.ping, .up⟩ fields
  | .decConfigUp f => payloadFits f.payload
  | .encConfigUp _ fields => commandFits ⟨.config, .up⟩ fields
  | .decQueryUp f => payloadFits f.payload
  | .encQueryUp _ fields => commandFits ⟨.query, .up⟩ fields
  | .decAnnounceAck f => payloadFits f.payload
  | .encAnnounceAck _ => true
  | .decEnergyAck f => payloadFits f.payload
  | .encEnergyAck _ => true
  | .decBufferedAck f => payloadFits f.payload
  | .encBufferedAck _ => true
  | .decPingDown f => payloadFits f.payload
  | .encPingDown _ fields => commandFits ⟨.ping, .down⟩ fields
  | .decConfigDown f => payloadFits f.payload
  | .encConfigDown _ fields => commandFits ⟨.config, .down⟩ fields
  | .decQueryDown f => payloadFits f.payload
  | .encQueryDown _ fields => commandFits ⟨.query, .down⟩ fields
  | .decPass fc f => decide (Machine.kindOf fc = none) && payloadFits f.payload
  | .rawAny _ _ p => payloadFits p

end Sys2Proof
end

