-- ==== Sys2Proof/Decode.lean ====
section
/-!
DEFINITION. The host's script as bytes: the decoder, total on any bytes and refusing by name, and after it the encoder.

The spec gives a row its code only: a 3-bit operation code (spec/30_encoding.md rule R95) or a function code (R77), and
says the operation codes are "not a bus encoding". DESIGN CHOICE (assumption 1): an instruction is its row's code in
one byte, then a form byte that tells apart the rows that share a code, then the operands:

* form 0: an operation, where the code is one of 0 to 7; any other code is read as form 1
* form 1, 2: a frame on the receive path, with RX_DIR = UP, DOWN; form 1 with a code outside the six is DEC.PASS
* form 3, 4: an ENC command with dir = UP, DOWN
* form 5: RAW.ANY

Integers are big-endian. A byte array, which may have any length, is written as 01 and the byte for each of its bytes,
and then 00; a natural number is the byte array of its base-256 digits, lowest first.
-/

namespace Sys2Proof

open Machine

/-- Why bytes are no instruction. -/
inductive DecodeError where
  /-- There is no byte. -/
  | noInstruction
  /-- There is a code byte and no form byte. -/
  | noForm
  /-- The form byte is none of 0 to 5. -/
  | reservedForm (form : Byte)
  /-- The code is no function code of the six, and the form needs one (R97(f)). -/
  | notAVariant (fc : Byte)
  /-- The operands end early or cannot be read. -/
  | badOperands (code form : Byte)
deriving DecidableEq, Repr

/-! ## Reading the operands -/

/-- A byte array: 01 before each byte, 00 at the end. -/
def readBytes : Bytes → Option (Bytes × Bytes)
  | [] => none
  | m :: rest =>
    if m = 0 then some ([], rest)
    else if m = 1 then
      match rest with
      | [] => none
      | b :: rest' =>
        match readBytes rest' with
        | some (a, r) => some (b :: a, r)
        | none => none
    else none

/-- A number from its base-256 digits, lowest first. -/
def natOfDigits : Bytes → Nat
  | [] => 0
  | d :: ds => d.toNat + 256 * natOfDigits ds

/-- A natural number. -/
def readNat (s : Bytes) : Option (Nat × Bytes) :=
  match readBytes s with
  | some (ds, r) => some (natOfDigits ds, r)
  | none => none

/-- A direction: 0 is UP, 1 is DOWN. -/
def dirOfByte (b : Byte) : Option Dir :=
  if b = 0 then some .up else if b = 1 then some .down else none

/-- A kind by its place in R77's table. -/
def kindOfByte (b : Byte) : Option Kind :=
  if b = 0 then some .announce
  else if b = 1 then some .energy
  else if b = 2 then some .ping
  else if b = 3 then some .config
  else if b = 4 then some .query
  else if b = 5 then some .bufferedEnergy
  else none

/-- A checksum selector. -/
def readChk : Bytes → Option (ChkSel × Bytes)
  | [] => none
  | t :: rest =>
    if t = 0 then some (.crc16Modbus, rest)
    else if t = 1 then some (.sum16, rest)
    else if t = 2 then
      match readChk rest with
      | some (c, r) => some (.swapped c, r)
      | none => none
    else if t = 3 then
      match readNat rest with
      | some (n, r) => some (.free n, r)
      | none => none
    else none

/-- The direction part of an obfuscation rule: 0 any, 1 UP, 2 DOWN. -/
def dirPartOfByte (b : Byte) : Option (Option Dir) :=
  if b = 0 then some none else if b = 1 then some (some .up) else if b = 2 then some (some .down) else none

/-- A flag byte: 0 or 1. -/
def flagOfByte (b : Byte) : Option Bool :=
  if b = 0 then some false else if b = 1 then some true else none

/-- One obfuscation rule from its seven bytes. -/
def ruleOfBytes (hasPid p1 p0 hasFc fc dir obf : Byte) : Option ObfRule :=
  match flagOfByte hasPid, flagOfByte hasFc, dirPartOfByte dir, flagOfByte obf with
  | some hp, some hf, some d, some o =>
    some ⟨if hp then some (p1 ++ p0) else none, if hf then some fc else none, d, o⟩
  | _, _, _, _ => none

/-- The obfuscation selection: 01 before each rule of seven bytes, 00 at the end. -/
def readRules : Bytes → Option (ObfSel × Bytes)
  | [] => none
  | m :: rest =>
    if m = 0 then some ([], rest)
    else if m = 1 then
      match rest with
      | hp :: p1 :: p0 :: hf :: fc :: d :: o :: rest' =>
        match ruleOfBytes hp p1 p0 hf fc d o, readRules rest' with
        | some rule, some (rules, r) => some (rule :: rules, r)
        | _, _ => none
      | _ => none
    else none

/-- A configuration: 00 is the one named in the program header (R99), here `launchCfg`; 01 and its fields is any other.
Its layout is the one table (R8). -/
def readCfg : Bytes → Option (Cfg × Bytes)
  | [] => none
  | m :: rest =>
    if m = 0 then some (launchCfg, rest)
    else if m = 1 then
      match readBytes rest with
      | none => none
      | some (key, r1) =>
        match readNat r1 with
        | none => none
        | some (keyLen, r2) =>
          match readChk r2 with
          | none => none
          | some (chk, r3) =>
            match readRules r3 with
            | none => none
            | some (rules, r4) =>
              match r4 with
              | d :: a :: r5 =>
                match dirOfByte d, readNat r5 with
                | some dir, some (cap, r6) => some (⟨key, keyLen, chk, rules, dir, a, cap, layoutTable⟩, r6)
                | _, _ => none
              | _ => none
    else none

/-- The header values of a command. -/
def readHead : Bytes → Option (TxHead × Bytes)
  | t1 :: t0 :: p1 :: p0 :: u :: rest => some (⟨t1 ++ t0, p1 ++ p0, u⟩, rest)
  | _ => none

/-- A frame on the receive path: its header values, its payload and its checksum. -/
def readFrame (s : Bytes) : Option (RxFrame × Bytes) :=
  match readHead s with
  | none => none
  | some (h, r1) =>
    match readBytes r1 with
    | some (p, c1 :: c0 :: r2) => if payloadFits p then some (⟨h.tid, h.pid, h.uid, p, c1 ++ c0⟩, r2) else none
    | _ => none

/-- The value of one field. -/
def readValue (t : FieldType) (s : Bytes) : Option (FieldVal × Bytes) :=
  match t, s with
  | .u8, b :: r => some (.u8 b, r)
  | .u16, b1 :: b0 :: r => some (.u16 (b1 ++ b0), r)
  | .u32, b3 :: b2 :: b1 :: b0 :: r => some (.u32 ((b3 ++ b2) ++ (b1 ++ b0)), r)
  | .str _, r =>
    match readBytes r with
    | some (a, r') => some (.bytes a, r')
    | none => none
  | .bytesOf _, r =>
    match readBytes r with
    | some (a, r') => some (.bytes a, r')
    | none => none
  | _, _ => none

/-- The values of a list of fields, in their order. -/
def readValues : List FieldSpec → Bytes → Option (Fields × Bytes)
  | [], s => some ([], s)
  | f :: fs, s =>
    match readValue f.type s with
    | none => none
    | some (v, r) =>
      match readValues fs r with
      | some (vs, r') => some ((f.name, v) :: vs, r')
      | none => none

/-- The fields of a command of one variant. -/
def readFields (v : Variant) (s : Bytes) : Option (Fields × Bytes) :=
  readValues (commandFields layoutTable v) s

/-- A raw payload. -/
def readPayload (s : Bytes) : Option (Bytes × Bytes) :=
  match readBytes s with
  | some (p, r) => if payloadFits p then some (p, r) else none
  | none => none

/-! ## The instructions -/

/-- RESET's operand. -/
def readReset (s : Bytes) : Option (Instr × Bytes) :=
  match readCfg s with
  | some (c, r) => some (.reset c, r)
  | none => none

/-- RX_PUSH's operand. -/
def readPush : Bytes → Option (Instr × Bytes)
  | b :: r => some (.rxPush b, r)
  | [] => none

/-- TX_ENC's operand, the ENC command record. -/
def readEnc (s : Bytes) : Option (Instr × Bytes) :=
  match readHead s with
  | some (h, k :: d :: r1) =>
    match kindOfByte k, dirOfByte d with
    | some kind, some dir =>
      match readFields ⟨kind, dir⟩ r1 with
      | some (fields, r2) => some (.txEnc h kind dir fields, r2)
      | none => none
    | _, _ => none
  | _ => none

/-- TX_RAW's operand, the RAW command record. -/
def readRaw (s : Bytes) : Option (Instr × Bytes) :=
  match readHead s with
  | some (h, fc :: r1) =>
    match readPayload r1 with
    | some (p, r2) => some (.txRaw h fc p, r2)
    | none => none
  | _ => none

/-- The operation of a code 0 to 7 with its operand (R95). -/
def readOperation (code : Byte) (s : Bytes) : Option (Instr × Bytes) :=
  if code = 0 then readReset s
  else if code = 1 then readPush s
  else if code = 2 then some (.rxPop, s)
  else if code = 3 then readEnc s
  else if code = 4 then readRaw s
  else if code = 5 then some (.txTake, s)
  else if code = 6 then some (.reserved110, s)
  else if code = 7 then some (.reserved111, s)
  else none

/-- The receive row of a variant with its frame. -/
def readReceive (v : Variant) (s : Bytes) : Option (Instr × Bytes) :=
  match readFrame s with
  | some (f, r) => some (Instr.ofReceive v f, r)
  | none => none

/-- DEC.PASS with its frame. -/
def readPass (fc : Byte) (s : Bytes) : Option (Instr × Bytes) :=
  match readFrame s with
  | some (f, r) => some (.decPass fc f, r)
  | none => none

/-- The transmit row of a variant with its command. -/
def readTransmit (v : Variant) (s : Bytes) : Option (Instr × Bytes) :=
  match readHead s with
  | some (h, r1) =>
    match readFields v r1 with
    | some (fields, r2) => some (Instr.ofTransmit v h fields, r2)
    | none => none
  | none => none

/-- RAW.ANY with its command. -/
def readRawAny (fc : Byte) (s : Bytes) : Option (Instr × Bytes) :=
  match readHead s with
  | some (h, r1) =>
    match readPayload r1 with
    | some (p, r2) => some (.rawAny h fc p, r2)
    | none => none
  | none => none

/-- The instruction of a function code whose row needs one of the six (R97(f)). -/
def readVariant (fc : Byte) (dir : Dir) (read : Variant → Option (Instr × Bytes)) (form : Byte) :
    Except DecodeError (Instr × Bytes) :=
  match variantOf fc dir with
  | none => .error (.notAVariant fc)
  | some v =>
    match read v with
    | some x => .ok x
    | none => .error (.badOperands fc form)

/-- Bytes read, or the operands refused by name. -/
def orBadOperands (code form : Byte) (x : Option (Instr × Bytes)) : Except DecodeError (Instr × Bytes) :=
  match x with
  | some y => .ok y
  | none => .error (.badOperands code form)

/-- The receive form with RX_DIR = UP, or DEC.PASS (R152). -/
def decodeReceiveUp (code form : Byte) (s : Bytes) : Except DecodeError (Instr × Bytes) :=
  match variantOf code .up with
  | some v => orBadOperands code form (readReceive v s)
  | none => orBadOperands code form (readPass code s)

/-- The instruction after its code and form bytes. -/
def decodeForm (code form : Byte) (s : Bytes) : Except DecodeError (Instr × Bytes) :=
  if form = 0 then
    if code.toNat < 8 then orBadOperands code form (readOperation code s) else decodeReceiveUp code form s
  else if form = 1 then decodeReceiveUp code form s
  else if form = 2 then readVariant code .down (fun v => readReceive v s) form
  else if form = 3 then readVariant code .up (fun v => readTransmit v s) form
  else if form = 4 then readVariant code .down (fun v => readTransmit v s) form
  else if form = 5 then orBadOperands code form (readRawAny code s)
  else .error (.reservedForm form)

/-- The next instruction of a script and what is left of the script; total on any bytes. -/
def decode : Bytes → Except DecodeError (Instr × Bytes)
  | [] => .error .noInstruction
  | [_] => .error .noForm
  | code :: form :: s => decodeForm code form s

/-- The bytes of a table word: `nbits` bits of `w`, the lowest byte first, and zeros above (the longest all-zero
instruction, ENC.ENERGY.UP, has 98 bytes). -/
def tableBytes (nbits w : Nat) : Bytes :=
  (List.range ((nbits + 7) / 8)).map (fun k => BitVec.ofNat 8 (w / 2 ^ (8 * k))) ++ zeros 128

/-- What the decoder reads from an instruction whose bits are `w`, numbered as the opcode table numbers them. Several
rows of the table have the same bits; the form byte is then 0 and the answer is the row that form 0 names. -/
def decodeTableWord (nbits w : Nat) : Option Instr :=
  match decode (tableBytes nbits w) with
  | .ok (i, _) => some i
  | .error _ => none

/-! ## The encoder -/

/-- A byte array of any length. -/
def writeBytes : Bytes → Bytes
  | [] => [0]
  | b :: bs => 1 :: b :: writeBytes bs

/-- The base-256 digits of a number, lowest first; `fuel` at least the number's digit count. -/
def digitsOf : Nat → Nat → Bytes
  | 0, _ => []
  | fuel + 1, n => if n = 0 then [] else BitVec.ofNat 8 (n % 256) :: digitsOf fuel (n / 256)

/-- A natural number. -/
def writeNat (n : Nat) : Bytes := writeBytes (digitsOf n n)

/-- A direction. -/
def byteOfDir : Dir → Byte
  | .up => 0
  | .down => 1

/-- A kind. -/
def byteOfKind : Kind → Byte
  | .announce => 0
  | .energy => 1
  | .ping => 2
  | .config => 3
  | .query => 4
  | .bufferedEnergy => 5

/-- A checksum selector. -/
def writeChk : ChkSel → Bytes
  | .crc16Modbus => [0]
  | .sum16 => [1]
  | .swapped c => 2 :: writeChk c
  | .free n => 3 :: writeNat n

/-- A flag. -/
def byteOfFlag (b : Bool) : Byte := if b then 1 else 0

/-- The direction part of an obfuscation rule. -/
def byteOfDirPart : Option Dir → Byte
  | none => 0
  | some .up => 1
  | some .down => 2

/-- One obfuscation rule. -/
def writeRule (r : ObfRule) : Bytes :=
  [byteOfFlag r.pid.isSome] ++ encBe16 (r.pid.getD 0) ++
    [byteOfFlag r.fc.isSome, r.fc.getD 0, byteOfDirPart r.dir, byteOfFlag r.obfuscate]

/-- The obfuscation selection. -/
def writeRules : ObfSel → Bytes
  | [] => [0]
  | r :: rs => 1 :: (writeRule r ++ writeRules rs)

/-- A configuration, field by field. -/
def writeCfg (c : Cfg) : Bytes :=
  [1] ++ writeBytes c.key ++ writeNat c.keyLen ++ writeChk c.chk ++ writeRules c.obfSel ++
    [byteOfDir c.rxDir, c.ackByte] ++ writeNat c.bufCap

/-- The header values of a command. -/
def writeHead (h : TxHead) : Bytes := encBe16 h.tid ++ encBe16 h.pid ++ [h.uid]

/-- A frame on the receive path. -/
def writeFrame (f : RxFrame) : Bytes :=
  writeHead ⟨f.tid, f.pid, f.uid⟩ ++ writeBytes f.payload ++ encBe16 f.chk

/-- The value of one field. -/
def writeValue : FieldVal → Bytes
  | .u8 v => [v]
  | .u16 v => encBe16 v
  | .u32 v => encBe32 v
  | .bytes a => writeBytes a

/-- The values of a command's fields, in their order. -/
def writeValues : Fields → Bytes
  | [] => []
  | (_, v) :: rest => writeValue v ++ writeValues rest

/-- A receive row. -/
def encodeReceive (k : Kind) (form : Byte) (f : RxFrame) : Bytes := kindCode k :: form :: writeFrame f

/-- A transmit row. -/
def encodeTransmit (k : Kind) (form : Byte) (h : TxHead) (fields : Fields) : Bytes :=
  kindCode k :: form :: (writeHead h ++ writeValues fields)

/-- The bytes of an instruction. -/
def encode : Instr → Bytes
  | .reset c => 0 :: 0 :: writeCfg c
  | .rxPush b => [1, 0, b]
  | .rxPop => [2, 0]
  | .txEnc h k d fields => 3 :: 0 :: (writeHead h ++ [byteOfKind k, byteOfDir d] ++ writeValues fields)
  | .txRaw h fc p => 4 :: 0 :: (writeHead h ++ [fc] ++ writeBytes p)
  | .txTake => [5, 0]
  | .reserved110 => [6, 0]
  | .reserved111 => [7, 0]
  | .decAnnounceUp f => encodeReceive .announce 1 f
  | .encAnnounceUp h fields => encodeTransmit .announce 3 h fields
  | .decEnergyUp f => encodeReceive .energy 1 f
  | .encEnergyUp h fields => encodeTransmit .energy 3 h fields
  | .decBufferedUp f => encodeReceive .bufferedEnergy 1 f
  | .encBufferedUp h fields => encodeTransmit .bufferedEnergy 3 h fields
  | .decPingUp f => encodeReceive .ping 1 f
  | .encPingUp h fields => encodeTransmit .ping 3 h fields
  | .decConfigUp f => encodeReceive .config 1 f
  | .encConfigUp h fields => encodeTransmit .config 3 h fields
  | .decQueryUp f => encodeReceive .query 1 f
  | .encQueryUp h fields => encodeTransmit .query 3 h fields
  | .decAnnounceAck f => encodeReceive .announce 2 f
  | .encAnnounceAck h => encodeTransmit .announce 4 h []
  | .decEnergyAck f => encodeReceive .energy 2 f
  | .encEnergyAck h => encodeTransmit .energy 4 h []
  | .decBufferedAck f => encodeReceive .bufferedEnergy 2 f
  | .encBufferedAck h => encodeTransmit .bufferedEnergy 4 h []
  | .decPingDown f => encodeReceive .ping 2 f
  | .encPingDown h fields => encodeTransmit .ping 4 h fields
  | .decConfigDown f => encodeReceive .config 2 f
  | .encConfigDown h fields => encodeTransmit .config 4 h fields
  | .decQueryDown f => encodeReceive .query 2 f
  | .encQueryDown h fields => encodeTransmit .query 4 h fields
  | .decPass fc f => fc :: 1 :: writeFrame f
  | .rawAny h fc p => fc :: 5 :: (writeHead h ++ writeBytes p)

end Sys2Proof
end

