-- ==== Sys2Proof/Machine/State.lean ====
section
/-!
DEFINITION. The state of one PGW-FRAMER instance (spec/10_state.md rules R20 to R34): the record `S`, its outputs, and
the host's script. Plain data throughout.
-/

namespace Sys2Proof.Machine

/-- `rx_phase` (R25). -/
inductive RxPhase where
  | waitHdr
  | waitBody
  | frameReady
deriving DecidableEq, Repr

/-- An MBAP header `H` (R26, R93). -/
structure Hdr where
  tid : U16
  pid : U16
  len : U16
  uid : Byte
deriving DecidableEq, Repr

/-- A result record (R93), one of three forms. -/
inductive Result where
  /-- A decoded message. -/
  | msg (h : Hdr) (fc : Byte) (dir : Dir) (kind : Kind) (fields : Fields)
  /-- A frame with a function code outside the six, exactly as received. -/
  | pass (h : Hdr) (fc : Byte) (frame : Bytes)
  /-- A decode error: the payload has `plen` bytes and decoding required `need`. -/
  | derr (h : Hdr) (fc : Byte) (dir : Dir) (kind : Kind) (plen need : Nat)
deriving DecidableEq, Repr

/-- An event record (R94, R211). No other event exists. -/
inductive Event where
  /-- 0x01: a candidate whose checksum does not match. -/
  | chkFail (tid pid len : U16) (uid : Byte) (chkRx chkCalc : U16)
  /-- 0x02: a header whose length is 0 or 1. -/
  | degenerateLen (tid pid len : U16) (uid : Byte)
  /-- 0x03: a payload shorter than its variant needs. -/
  | decodeShort (tid : U16) (fc : Byte) (plen need : Nat)
  /-- 0x04, informational: a function code outside the six. -/
  | unknownFc (tid : U16) (fc : Byte)
  /-- 0x05: an ENC payload that no frame can carry. -/
  | txTooLong (tid : U16) (fc : Byte) (plen : Nat)
deriving DecidableEq, Repr

/-- The state. `cfg` to `txQ` are the record `S` of R20; `ev`, `results` and `taken` are its outputs; `launched` says
whether the first RESET has happened (R242, assumption 4); `script` is the model's own field (assumption 16). -/
structure State where
  /-- Whether a RESET has happened: before it no other operation has a meaning (R242). -/
  launched : Bool
  /-- The configuration (R22). -/
  cfg : Cfg
  /-- The receive buffer, oldest byte first (R24). -/
  rxBuf : Bytes
  /-- The assembler's phase (R25). -/
  rxPhase : RxPhase
  /-- The latched MBAP header (R26). -/
  hdr : Hdr
  /-- The candidate's byte count (R26). -/
  rxNeed : Nat
  /-- The result register (R27). -/
  rxOut : Option Result
  /-- The transmit byte queue, next byte first (R29). -/
  txQ : Bytes
  /-- The event trace, oldest first (R210). -/
  ev : List Event
  /-- The result port: the results RX_POP has returned, in order (R20, R254). -/
  results : List Result
  /-- The transmit byte port: the bytes TX_TAKE has returned, in order (R20, R254). -/
  taken : Bytes
  /-- The host's script: the encoded operations it has still to perform (R254; the model's own field). -/
  script : Bytes
deriving DecidableEq, Repr

/-- PGW-FRAMER has no faults: no event stops the block or transfers control (R214; 93_implementation_defined.md
section 1: "`fault` and `stuck` are not used"). The type has no constructor, so no step can end in a fault. -/
inductive Fault where
deriving DecidableEq, Repr

/-- Why there is no step. Every one is safe: the model refuses where the spec has no step. -/
inductive Refusal where
  /-- An instruction without a meaning yet. Raised by `exec`'s arms only; safe. -/
  | notModelled (mnemonic : String)
  /-- An operation other than RESET before the first RESET (R242, I19). Raised by every operation but RESET; safe. -/
  | beforeReset
  /-- RESET with a configuration that is not legal (R9, R240, I19). Raised by RESET; safe. -/
  | illegalConfig
  /-- RX_PUSH with a full buffer (R121, I17). Raised by RX_PUSH and the receive rows; safe. -/
  | rxInNotReady
  /-- RX_POP without a result (R128, I18). Raised by RX_POP; safe. -/
  | rxOutNotValid
  /-- TX_ENC or TX_RAW while bytes wait (R190, R191, I18). Raised by them and the transmit rows; safe. -/
  | txCmdNotReady
  /-- TX_TAKE with nothing to take (R192, I18). Raised by TX_TAKE; safe. -/
  | txOutNotValid
  /-- A reserved operation code (R97(e), I15). Raised by the two reserved rows; safe. -/
  | reservedOperation (code : Byte)
  /-- An operand that is no command record or no frame (R72, R96, R97(f)). Raised by the transmit operations and rows
  and the receive rows, on terms that are not well-formed; safe. -/
  | malformedOperand
  /-- A receive row whose direction the configuration does not select (R151). Raised by the twelve receive rows; safe. -/
  | variantNotSelected
  /-- The host's script is exhausted: the run is complete (R254). Raised by `step`; safe. -/
  | scriptExhausted
  /-- The next bytes of the script are no instruction (assumption 1). Raised by `step`; safe. -/
  | undecodable (e : DecodeError)
deriving DecidableEq, Repr

/-- The outcome of an instruction. -/
abbrev Out := Host.Outcome State Fault Refusal

/-- The machine right after a RESET (R34, R240) with the configuration `launchCfg` (assumption 2), having reported and
delivered nothing yet (assumption 3), with an empty script. -/
def State.reset : State where
  launched := true
  cfg := launchCfg
  rxBuf := []
  rxPhase := .waitHdr
  hdr := ⟨0, 0, 0, 0⟩
  rxNeed := 0
  rxOut := none
  txQ := []
  ev := []
  results := []
  taken := []
  script := []

/-- A machine before its first RESET (R242): its other fields are unspecified, and only `launched` is read. -/
def State.powerOn : State := { State.reset with launched := false }

end Sys2Proof.Machine
end

