-- ==== Sys2Proof/Machine/Flags.lean ====
section
/-!
DEFINITION. The four status flags (spec/10_state.md rule R30): pure functions of the state that no operation writes.
PGW-FRAMER has no condition codes.
-/

namespace Sys2Proof.Machine

/-- RX_PUSH is enabled. -/
def rxInReady (s : State) : Bool := decide (s.rxBuf.length < s.cfg.bufCap)

/-- RX_POP is enabled. -/
def rxOutValid (s : State) : Bool := decide (s.rxPhase = .frameReady)

/-- TX_ENC and TX_RAW are enabled. -/
def txCmdReady (s : State) : Bool := s.txQ.isEmpty

/-- TX_TAKE is enabled. -/
def txOutValid (s : State) : Bool := !s.txQ.isEmpty

end Sys2Proof.Machine
end

