-- ==== Sys2Proof/Machine/Ops.lean ====
section
/-!
DEFINITION. The named operations on the state. PGW-FRAMER takes no exceptions: what stands in their place is the
append of an event, which transfers no control and changes no mode (spec/60_exceptions.md rules R210, R214, R215), so
there is nothing to return from.
-/

namespace Sys2Proof.Machine

/-- The code of an event (R211). -/
def eventCode : Event → Byte
  | .chkFail _ _ _ _ _ _ => 0x01
  | .degenerateLen _ _ _ _ => 0x02
  | .decodeShort _ _ _ _ => 0x03
  | .unknownFc _ _ => 0x04
  | .txTooLong _ _ _ => 0x05

/-- `emit E` (R12, R210): the one operation that reports an error. -/
def emit (e : Event) (s : State) : State := { s with ev := s.ev ++ [e] }

/-- Append the event of a rule that may emit none. -/
def emitOpt (e : Option Event) (s : State) : State := { s with ev := s.ev ++ e.toList }

/-- `rx_buf <- rx_buf ++ [b]` (R120). -/
def appendByte (b : Byte) (s : State) : State := { s with rxBuf := s.rxBuf ++ [b] }

/-- `rx_buf <- rx_buf[n ..)` (R124, R125, R128). -/
def dropFront (n : Nat) (s : State) : State := { s with rxBuf := s.rxBuf.drop n }

/-- `rx_phase <- p`. -/
def setPhase (p : RxPhase) (s : State) : State := { s with rxPhase := p }

/-- Latch a header: `hdr`, `rx_need` and `WAIT_BODY` (R123). -/
def latch (h : Hdr) (s : State) : State :=
  { s with hdr := h, rxNeed := h.len.toNat + frameOverhead, rxPhase := .waitBody }

/-- `rx_out <- r` and `FRAME_READY` (R124). -/
def deliver (r : Result) (s : State) : State := { s with rxOut := some r, rxPhase := .frameReady }

/-- Release the result through the result port: `return rx_out`, `rx_out <- none`, `WAIT_HDR` (R128). -/
def release (s : State) : State :=
  { s with results := s.results ++ s.rxOut.toList, rxOut := none, rxPhase := .waitHdr }

/-- `tx_q <- f` (R190, R191). -/
def enqueue (f : Bytes) (s : State) : State := { s with txQ := f }

/-- Deliver the byte `b` through the transmit port and keep the rest of the queue (R192). -/
def takeByte (b : Byte) (rest : Bytes) (s : State) : State := { s with txQ := rest, taken := s.taken ++ [b] }

/-- RESET's writes: every field of `S`; the trace and the ports keep what they hold (R34, R240). -/
def resetTo (c : Cfg) (s : State) : State :=
  { s with
    launched := true, cfg := c, rxBuf := [], rxPhase := .waitHdr, hdr := ⟨0, 0, 0, 0⟩, rxNeed := 0, rxOut := none,
    txQ := [] }

/-- An operation other than RESET: it has no step before the first RESET (R242). -/
def afterLaunch (s : State) (k : Out) : Out := if s.launched then k else .refused .beforeReset

end Sys2Proof.Machine
end

