-- ==== Sys2Proof/Machine/Control.lean ====
section
/-!
DEFINITION. RESET (spec/70_reset_and_hazards.md rule R240) and the two reserved operation codes (spec/30_encoding.md
rule R97(e)).
-/

namespace Sys2Proof.Machine

/-- RESET: always enabled; an illegal configuration has no step (R9, R240). -/
def execReset (c : Cfg) (s : State) : Out :=
  if legalCfg c then .next (resetTo c s) else .refused .illegalConfig

/-- Operation code 110: "the model has no step for it" (R97(e)). -/
def execReserved110 (_s : State) : Out := .refused (.reservedOperation 6)

/-- Operation code 111: "the model has no step for it" (R97(e)). -/
def execReserved111 (_s : State) : Out := .refused (.reservedOperation 7)

end Sys2Proof.Machine
end

