-- ==== Sys2Proof/Machine/Checksum.lean ====
section
/-!
DEFINITION. The checksum `CHK` (spec/41_frame.md rules R129 to R131) and the frame builder (R132).
-/

namespace Sys2Proof.Machine

/-- One of the eight shifts of R131. -/
def crcShift (c : U16) : U16 := if c.getLsbD 0 then (c >>> 1) ^^^ 0xA001 else c >>> 1

/-- One byte of R131: `c <- c ^ zext_16(x)`, then eight shifts. -/
def crcByte (c : U16) (x : Byte) : U16 :=
  crcShift (crcShift (crcShift (crcShift (crcShift (crcShift (crcShift (crcShift (c ^^^ x.setWidth 16))))))))

/-- `CRC16_MODBUS(s)` (R131). -/
def crc16Modbus (s : Bytes) : U16 := s.foldl crcByte 0xFFFF

/-- The 16-bit byte sum (R130, 90_conflicts.md C5). -/
def sum16 (s : Bytes) : U16 := s.foldl (fun c x => c + x.setWidth 16) 0

/-- A 16-bit value with its two bytes exchanged (92_eei_decisions.md D5). -/
def swap16 (v : U16) : U16 := v.extractLsb' 0 8 ++ v.extractLsb' 8 8

/-- The function a checksum selector stands for: `CHK` (R8, R130). -/
def chkOf : ChkSel → Bytes → U16
  | .crc16Modbus, s => crc16Modbus s
  | .sum16, s => sum16 s
  | .swapped c, s => swap16 (chkOf c s)
  | .free n, s => Config.freeChk n s

/-- `chk_calc` of a candidate (R129). -/
def chkCalc (c : Cfg) (f : Bytes) : U16 := chkOf c.chk (f.take (f.length - chkLen))

/-- `chk_rx` of a candidate (R129). -/
def chkRx (f : Bytes) : U16 := le16 f (f.length - chkLen)

/-- `chk_ok(F)` (R129). -/
def chkOk (c : Cfg) (f : Bytes) : Bool := decide (chkCalc c f = chkRx f)

/-- The bytes of a frame before its checksum: header, function code and wire payload (R70, R132). -/
def frameHead (tid pid : U16) (uid fc : Byte) (w : Bytes) : Bytes :=
  encBe16 tid ++ encBe16 pid ++ encBe16 (BitVec.ofNat 16 (w.length + lenBias)) ++ [uid, fc] ++ w

/-- `FRAME_BUILD(tid, pid, uid, fc, w)` (R132). -/
def frameBuild (c : Cfg) (tid pid : U16) (uid fc : Byte) (w : Bytes) : Bytes :=
  frameHead tid pid uid fc w ++ encLe16 (chkOf c.chk (frameHead tid pid uid fc w))

end Sys2Proof.Machine
end

