-- ==== Sys2Proof/Machine/Cipher.lean ====
section
/-!
DEFINITION. The fixed-key XOR obfuscator (spec/40_cipher.md rules R110 to R115) and the selection of the frames it is
applied to (R112, R113).
-/

namespace Sys2Proof.Machine

/-- XOR of `d` with the key `k`, the key index starting at `i`. -/
def xorFrom (k : Bytes) : Nat → Bytes → Bytes
  | _, [] => []
  | i, x :: xs => (x ^^^ byteAt k (i % k.length)) :: xorFrom k (i + 1) xs

/-- `XOR(d, k) = [d[i] ^ k[i mod |k|]]` (R110); the key index restarts at 0 for every payload (R114). -/
def xorKey (d k : Bytes) : Bytes := xorFrom k 0 d

/-- A part of an obfuscation rule agrees: it is absent, or equal. -/
def partAgrees {α : Type} [DecidableEq α] (p : Option α) (x : α) : Bool :=
  match p with
  | none => true
  | some y => decide (y = x)

/-- An obfuscation rule applies to a frame. -/
def ruleApplies (r : ObfRule) (pid : U16) (fc : Byte) (dir : Dir) : Bool :=
  partAgrees r.pid pid && partAgrees r.fc fc && partAgrees r.dir dir

/-- `OBF_SEL(pid, fc, dir)` (R112): the first rule that applies decides. -/
def obfuscated : ObfSel → U16 → Byte → Dir → Bool
  | [], _, _, _ => false
  | r :: rs, pid, fc, dir => if ruleApplies r pid fc dir then r.obfuscate else obfuscated rs pid fc dir

/-- A payload as it stands on the other side of the obfuscator: the same transform obfuscates and de-obfuscates
(R111, R112). -/
def transform (c : Cfg) (pid : U16) (fc : Byte) (dir : Dir) (p : Bytes) : Bytes :=
  if obfuscated c.obfSel pid fc dir then xorKey p c.key else p

end Sys2Proof.Machine
end

