-- ==== Sys2Proof/Machine/Receive.lean ====
section
/-!
DEFINITION. The receive path (spec/41_frame.md rules R120 to R128) and the demultiplexer (spec/42_decode.md rules R150
to R155): RX_PUSH, RX_POP and the settle step inside both.
-/

namespace Sys2Proof.Machine

/-- The MBAP header at the front of a byte sequence (R71, R123). -/
def headerOf (s : Bytes) : Hdr :=
  ⟨be16 s tidOffset, be16 s pidOffset, be16 s lenOffset, byteAt s uidOffset⟩

/-- The wire payload of a frame: `F[8 .. N-2)` (R150). -/
def wirePayload (f : Bytes) : Bytes := slice f payloadOffset (f.length - frameRest)

/-- The function code of a frame (R70). -/
def frameFc (f : Bytes) : Byte := byteAt f fcOffset

/-- DEMUX for one of the six kinds, on the plaintext payload `s` (R150, R153, R154). -/
def demuxKind (c : Cfg) (h : Hdr) (fc : Byte) (k : Kind) (s : Bytes) : Result × Option Event :=
  let l := layoutOf c.layout ⟨k, c.rxDir⟩
  if s.length < need l s then
    (.derr h fc c.rxDir k s.length (need l s), some (.decodeShort h.tid fc s.length (need l s)))
  else (.msg h fc c.rxDir k (decodeFields l s), none)

/-- `DEMUX(H, F)` with the event it emits (R150, R152). -/
def demux (c : Cfg) (h : Hdr) (f : Bytes) : Result × Option Event :=
  match kindOf (frameFc f) with
  | none => (.pass h (frameFc f) f, some (.unknownFc h.tid (frameFc f)))
  | some k => demuxKind c h (frameFc f) k (transform c h.pid (frameFc f) c.rxDir (wirePayload f))

/-- The candidate `F = rx_buf[0 .. rx_need)` (R50(b), R124). -/
def candidate (s : State) : Bytes := s.rxBuf.take s.rxNeed

/-- The event of a degenerate header (R125). -/
def degenerateEvent (h : Hdr) : Event := .degenerateLen h.tid h.pid h.len h.uid

/-- The event of a failed checksum (R124). -/
def chkFailEvent (c : Cfg) (h : Hdr) (f : Bytes) : Event :=
  .chkFail h.tid h.pid h.len h.uid (chkRx f) (chkCalc c f)

/-- Header parse with 7 bytes buffered: R123, or R125 where the length is below 2. -/
def parseHeader (s : State) : State :=
  if (headerOf s.rxBuf).len.toNat < lenBias then
    dropFront mbapLen (emit (degenerateEvent (headerOf s.rxBuf)) s)
  else latch (headerOf s.rxBuf) s

/-- Candidate complete (R124). -/
def completeCandidate (s : State) : State :=
  if chkOk s.cfg (candidate s) then
    deliver (demux s.cfg s.hdr (candidate s)).1 (emitOpt (demux s.cfg s.hdr (candidate s)).2 s)
  else setPhase .waitHdr (dropFront s.rxNeed (emit (chkFailEvent s.cfg s.hdr (candidate s)) s))

/-- One round of settle's loop; `none` where it returns (R122, R126, R127). -/
def settleStep (s : State) : Option State :=
  match s.rxPhase with
  | .waitHdr => if s.rxBuf.length < mbapLen then none else some (parseHeader s)
  | .waitBody => if s.rxBuf.length < s.rxNeed then none else some (completeCandidate s)
  | .frameReady => none

/-- At most `n` rounds. -/
def settleLoop : Nat → State → State
  | 0, s => s
  | n + 1, s =>
    match settleStep s with
    | none => s
    | some t => settleLoop n t

/-- `settle()` (R126): rounds until none changes the state. A round that goes on removes bytes or latches a header, so
this many are enough (Laws/Settle.lean, `settleStep_settle`). -/
def settle (s : State) : State := settleLoop (2 * s.rxBuf.length + 3) s

/-- RX_PUSH (R120, R121). -/
def execRxPush (b : Byte) (s : State) : Out :=
  afterLaunch s (if rxInReady s then .next (settle (appendByte b s)) else .refused .rxInNotReady)

/-- RX_POP (R128). -/
def execRxPop (s : State) : Out :=
  afterLaunch s (if rxOutValid s then .next (settle (release (dropFront s.rxNeed s))) else .refused .rxOutNotValid)

/-- The script's `push <b0> <b1> ...`: one RX_PUSH per byte, in order (R99). -/
def pushAll : Bytes → State → Out
  | [], s => .next s
  | b :: bs, s =>
    match execRxPush b s with
    | .next t => pushAll bs t
    | .fault e => .fault e
    | .refused r => .refused r

end Sys2Proof.Machine
end

