-- ==== Sys2Proof/Machine/ReceiveRows.lean ====
section
/-!
DEFINITION. The receive rows of the opcode table: the twelve DEC rows (spec/42_decode.md rules R160 to R171) and
DEC.PASS (R152).

"a frame (the block's "instruction" on the receive path)", says spec/30_encoding.md: a receive row is one frame of the
row's function code arriving on the receive path, byte by byte, as the script's `push` does (R99, R120). DESIGN CHOICE
(assumption 7): the whole arrival is one step of this model; it is the same as one RX_PUSH per byte. DEMUX and the
decode of R150 to R155 happen in the settle of the push that completes the frame.
-/

namespace Sys2Proof.Machine

/-- The bytes of a frame on the wire (R70); its checksum is as received, right or wrong. -/
def frameBytes (fc : Byte) (f : RxFrame) : Bytes :=
  frameHead f.tid f.pid f.uid fc f.payload ++ encLe16 f.chk

/-- The MBAP header of a frame with a payload of `p` bytes (R71, R72). -/
def frameHdr (tid pid : U16) (uid : Byte) (p : Nat) : Hdr := ⟨tid, pid, BitVec.ofNat 16 (p + lenBias), uid⟩

/-- A frame with function code `fc` arrives (R70, R120). A payload over 65533 bytes is no frame (R72). -/
def receiveFrame (fc : Byte) (f : RxFrame) (s : State) : Out :=
  if f.payload.length ≤ maxPayload then pushAll (frameBytes fc f) s else .refused .malformedOperand

/-- A frame of the variant `v` arrives; the variant is selected by the configured direction alone (R151). -/
def receiveVariant (v : Variant) (f : RxFrame) (s : State) : Out :=
  afterLaunch s
    (if s.cfg.rxDir = v.dir then receiveFrame (kindCode v.kind) f s else .refused .variantNotSelected)

/-- DEC.ANNOUNCE.UP (R160). -/
def execDecAnnounceUp (f : RxFrame) (s : State) : Out := receiveVariant ⟨.announce, .up⟩ f s

/-- DEC.ENERGY.UP (R161). -/
def execDecEnergyUp (f : RxFrame) (s : State) : Out := receiveVariant ⟨.energy, .up⟩ f s

/-- DEC.BUFFERED.UP (R162). -/
def execDecBufferedUp (f : RxFrame) (s : State) : Out := receiveVariant ⟨.bufferedEnergy, .up⟩ f s

/-- DEC.PING.UP (R163). -/
def execDecPingUp (f : RxFrame) (s : State) : Out := receiveVariant ⟨.ping, .up⟩ f s

/-- DEC.CONFIG.UP (R164). -/
def execDecConfigUp (f : RxFrame) (s : State) : Out := receiveVariant ⟨.config, .up⟩ f s

/-- DEC.QUERY.UP (R165). -/
def execDecQueryUp (f : RxFrame) (s : State) : Out := receiveVariant ⟨.query, .up⟩ f s

/-- DEC.ANNOUNCE.ACK (R166). -/
def execDecAnnounceAck (f : RxFrame) (s : State) : Out := receiveVariant ⟨.announce, .down⟩ f s

/-- DEC.ENERGY.ACK (R167). -/
def execDecEnergyAck (f : RxFrame) (s : State) : Out := receiveVariant ⟨.energy, .down⟩ f s

/-- DEC.BUFFERED.ACK (R168). -/
def execDecBufferedAck (f : RxFrame) (s : State) : Out := receiveVariant ⟨.bufferedEnergy, .down⟩ f s

/-- DEC.PING.DOWN (R169). -/
def execDecPingDown (f : RxFrame) (s : State) : Out := receiveVariant ⟨.ping, .down⟩ f s

/-- DEC.CONFIG.DOWN (R170). -/
def execDecConfigDown (f : RxFrame) (s : State) : Out := receiveVariant ⟨.config, .down⟩ f s

/-- DEC.QUERY.DOWN (R171). -/
def execDecQueryDown (f : RxFrame) (s : State) : Out := receiveVariant ⟨.query, .down⟩ f s

/-- DEC.PASS (R152): a frame whose function code is outside the six arrives, in either direction. -/
def execDecPass (fc : Byte) (f : RxFrame) (s : State) : Out :=
  afterLaunch s (if kindOf fc = none then receiveFrame fc f s else .refused .malformedOperand)

end Sys2Proof.Machine
end

