-- ==== Sys2Proof/Machine/Transmit.lean ====
section
/-!
DEFINITION. The transmit operations TX_ENC, TX_RAW and TX_TAKE (spec/43_encode.md rules R190 to R192).
-/

namespace Sys2Proof.Machine

/-- The frame TX_ENC queues for the plaintext payload `p` of variant `v` (R190). -/
def encodedFrame (c : Cfg) (v : Variant) (h : TxHead) (p : Bytes) : Bytes :=
  frameBuild c h.tid h.pid h.uid (kindCode v.kind) (transform c h.pid (kindCode v.kind) v.dir p)

/-- TX_ENC once the command is accepted: queue the frame, or TX_TOO_LONG with nothing queued (R190). -/
def sendEncoded (v : Variant) (h : TxHead) (p : Bytes) (s : State) : State :=
  if maxPayload < p.length then emit (.txTooLong h.tid (kindCode v.kind) p.length) s
  else enqueue (encodedFrame s.cfg v h p) s

/-- TX_ENC of one variant (R190), the operation behind TX_ENC and the twelve ENC rows. -/
def transmitVariant (v : Variant) (h : TxHead) (fields : Fields) (s : State) : Out :=
  afterLaunch s
    (if txCmdReady s then
      (if fieldsFit (commandFields s.cfg.layout v) fields then
        .next (sendEncoded v h (encodePayload s.cfg v fields) s)
      else .refused .malformedOperand)
    else .refused .txCmdNotReady)

/-- TX_RAW's operation: a frame around wire bytes, never obfuscated (R191). -/
def transmitRaw (h : TxHead) (fc : Byte) (p : Bytes) (s : State) : Out :=
  afterLaunch s
    (if txCmdReady s then
      (if p.length ≤ maxPayload then .next (enqueue (frameBuild s.cfg h.tid h.pid h.uid fc p) s)
      else .refused .malformedOperand)
    else .refused .txCmdNotReady)

/-- TX_ENC (R190). -/
def execTxEnc (h : TxHead) (k : Kind) (d : Dir) (fields : Fields) (s : State) : Out :=
  transmitVariant ⟨k, d⟩ h fields s

/-- TX_RAW (R191). -/
def execTxRaw (h : TxHead) (fc : Byte) (p : Bytes) (s : State) : Out := transmitRaw h fc p s

/-- TX_TAKE (R192). -/
def execTxTake (s : State) : Out :=
  afterLaunch s
    (match s.txQ with
    | b :: rest => .next (takeByte b rest s)
    | [] => .refused .txOutNotValid)

end Sys2Proof.Machine
end

