-- ==== Sys2Proof/Machine/TransmitRows.lean ====
section
/-!
DEFINITION. The transmit rows of the opcode table: the twelve ENC rows (spec/43_encode.md rules R193 to R204), each
TX_ENC of its variant ("path: transmit; TX_ENC with dir = ..."), and RAW.ANY (R191).
-/

namespace Sys2Proof.Machine

/-- ENC.ANNOUNCE.UP (R193). -/
def execEncAnnounceUp (h : TxHead) (fields : Fields) (s : State) : Out := transmitVariant ⟨.announce, .up⟩ h fields s

/-- ENC.ENERGY.UP (R194). -/
def execEncEnergyUp (h : TxHead) (fields : Fields) (s : State) : Out := transmitVariant ⟨.energy, .up⟩ h fields s

/-- ENC.BUFFERED.UP (R195). -/
def execEncBufferedUp (h : TxHead) (fields : Fields) (s : State) : Out := transmitVariant ⟨.bufferedEnergy, .up⟩ h fields s

/-- ENC.PING.UP (R196). -/
def execEncPingUp (h : TxHead) (fields : Fields) (s : State) : Out := transmitVariant ⟨.ping, .up⟩ h fields s

/-- ENC.CONFIG.UP (R202). -/
def execEncConfigUp (h : TxHead) (fields : Fields) (s : State) : Out := transmitVariant ⟨.config, .up⟩ h fields s

/-- ENC.QUERY.UP (R204). -/
def execEncQueryUp (h : TxHead) (fields : Fields) (s : State) : Out := transmitVariant ⟨.query, .up⟩ h fields s

/-- ENC.ANNOUNCE.ACK (R198): no operands, so no fields (R185). -/
def execEncAnnounceAck (h : TxHead) (s : State) : Out := transmitVariant ⟨.announce, .down⟩ h [] s

/-- ENC.ENERGY.ACK (R199): no operands, so no fields (R185). -/
def execEncEnergyAck (h : TxHead) (s : State) : Out := transmitVariant ⟨.energy, .down⟩ h [] s

/-- ENC.BUFFERED.ACK (R200): no operands, so no fields (R185). -/
def execEncBufferedAck (h : TxHead) (s : State) : Out := transmitVariant ⟨.bufferedEnergy, .down⟩ h [] s

/-- ENC.PING.DOWN (R197). -/
def execEncPingDown (h : TxHead) (fields : Fields) (s : State) : Out := transmitVariant ⟨.ping, .down⟩ h fields s

/-- ENC.CONFIG.DOWN (R201). -/
def execEncConfigDown (h : TxHead) (fields : Fields) (s : State) : Out := transmitVariant ⟨.config, .down⟩ h fields s

/-- ENC.QUERY.DOWN (R203). -/
def execEncQueryDown (h : TxHead) (fields : Fields) (s : State) : Out := transmitVariant ⟨.query, .down⟩ h fields s

/-- RAW.ANY: TX_RAW with any function code, the six known ones included (R191). -/
def execRawAny (h : TxHead) (fc : Byte) (p : Bytes) (s : State) : Out := transmitRaw h fc p s

end Sys2Proof.Machine
end

