-- ==== Sys2Proof/Machine/Dispatch.lean ====
section
/-!
DEFINITION. The one dispatch: each constructor of Instr to its meaning.
-/

namespace Sys2Proof.Machine

def exec (i : Instr) (s : State) : Host.Outcome State Fault Refusal :=
  match i with
  | .reset c => Sys2Proof.Machine.execReset c s
  | .rxPush b => Sys2Proof.Machine.execRxPush b s
  | .rxPop => Sys2Proof.Machine.execRxPop s
  | .txEnc h k d fields => Sys2Proof.Machine.execTxEnc h k d fields s
  | .txRaw h fc p => Sys2Proof.Machine.execTxRaw h fc p s
  | .txTake => Sys2Proof.Machine.execTxTake s
  | .reserved110 => Sys2Proof.Machine.execReserved110 s
  | .reserved111 => Sys2Proof.Machine.execReserved111 s
  | .decAnnounceUp f => Sys2Proof.Machine.execDecAnnounceUp f s
  | .encAnnounceUp h fields => Sys2Proof.Machine.execEncAnnounceUp h fields s
  | .decEnergyUp f => Sys2Proof.Machine.execDecEnergyUp f s
  | .encEnergyUp h fields => Sys2Proof.Machine.execEncEnergyUp h fields s
  | .decBufferedUp f => Sys2Proof.Machine.execDecBufferedUp f s
  | .encBufferedUp h fields => Sys2Proof.Machine.execEncBufferedUp h fields s
  | .decPingUp f => Sys2Proof.Machine.execDecPingUp f s
  | .encPingUp h fields => Sys2Proof.Machine.execEncPingUp h fields s
  | .decConfigUp f => Sys2Proof.Machine.execDecConfigUp f s
  | .encConfigUp h fields => Sys2Proof.Machine.execEncConfigUp h fields s
  | .decQueryUp f => Sys2Proof.Machine.execDecQueryUp f s
  | .encQueryUp h fields => Sys2Proof.Machine.execEncQueryUp h fields s
  | .decAnnounceAck f => Sys2Proof.Machine.execDecAnnounceAck f s
  | .encAnnounceAck h => Sys2Proof.Machine.execEncAnnounceAck h s
  | .decEnergyAck f => Sys2Proof.Machine.execDecEnergyAck f s
  | .encEnergyAck h => Sys2Proof.Machine.execEncEnergyAck h s
  | .decBufferedAck f => Sys2Proof.Machine.execDecBufferedAck f s
  | .encBufferedAck h => Sys2Proof.Machine.execEncBufferedAck h s
  | .decPingDown f => Sys2Proof.Machine.execDecPingDown f s
  | .encPingDown h fields => Sys2Proof.Machine.execEncPingDown h fields s
  | .decConfigDown f => Sys2Proof.Machine.execDecConfigDown f s
  | .encConfigDown h fields => Sys2Proof.Machine.execEncConfigDown h fields s
  | .decQueryDown f => Sys2Proof.Machine.execDecQueryDown f s
  | .encQueryDown h fields => Sys2Proof.Machine.execEncQueryDown h fields s
  | .decPass fc f => Sys2Proof.Machine.execDecPass fc f s
  | .rawAny h fc p => Sys2Proof.Machine.execRawAny h fc p s

end Sys2Proof.Machine
end

