-- ==== Sys2Proof/Machine/Step.lean ====
section
/-!
DEFINITION. One step: the host performs the next operation of its script (spec/70_reset_and_hazards.md rule R254;
spec/10_state.md rule R33). PGW-FRAMER has no program counter and fetches nothing itself (R31, R63).
-/

namespace Sys2Proof.Machine

/-- The instruction at the front of the script is taken off it and executed. A script that is exhausted ends the run
(R254), and bytes that are no instruction have no step. -/
def step (s : State) : Host.Outcome State Fault Refusal :=
  match decode s.script with
  | .ok (i, rest) => exec i { s with script := rest }
  | .error .noInstruction => .refused .scriptExhausted
  | .error e => .refused (.undecodable e)

/-- The state with an instruction given by the opcode table's bits at the front of its script: over the bytes that
stood there, as a store would. -/
def State.withFetchWord (s : State) (nbits w : Nat) : State :=
  { s with script := tableBytes nbits w ++ s.script.drop (tableBytes nbits w).length }

end Sys2Proof.Machine
end

