-- ==== Sys2Proof/Machine/Messages.lean ====
section
/-!
DEFINITION. The messages the source's Negotiation Engine emits, as the commands that build them (spec/43_encode.md
rules R186 and R187). Which one to send is decided outside the block (R6(a)).
-/

namespace Sys2Proof.Machine

/-- The acknowledgment of an Announce (R186): ANNOUNCE.ACK. -/
def announceAckCommand (h : TxHead) : Instr := .txEnc h .announce .down []

/-- The acknowledgment of an Energy report (R186): ENERGY.ACK. -/
def energyAckCommand (h : TxHead) : Instr := .txEnc h .energy .down []

/-- The acknowledgment of a BufferedEnergy report (R186): BUFFERED.ACK. -/
def bufferedAckCommand (h : TxHead) : Instr := .txEnc h .bufferedEnergy .down []

/-- A Config message correcting the device (R186): CONFIG.DOWN with the caller's id and value. -/
def configCommand (h : TxHead) (wifi : Bytes) (id len : U16) (value : Bytes) : Instr :=
  .txEnc h .config .down
    [(.wifiSerial, .bytes wifi), (.configId, .u16 id), (.configLength, .u16 len), (.configValue, .bytes value)]

/-- The date correction (R186): config_id Date and the 19 ASCII bytes of the date. -/
def dateCommand (h : TxHead) (wifi date : Bytes) : Instr := configCommand h wifi configIdDate dateLength date

/-- A Query for a range of config ids (R186, R203): QUERY.DOWN. -/
def queryCommand (h : TxHead) (wifi : Bytes) (first last : U16) : Instr :=
  .txEnc h .query .down [(.wifiSerial, .bytes wifi), (.firstConfig, .u16 first), (.lastConfig, .u16 last)]

/-- The Query for the full configuration range, ids 0x01 to 0x1F (R186). -/
def fullQueryCommand (h : TxHead) (wifi : Bytes) : Instr := queryCommand h wifi configIdFirst configIdLast

/-- The Query acknowledgment (R187(a)): QUERY.DOWN with the reported id as both ends of the range. -/
def queryAckCommand (h : TxHead) (wifi : Bytes) (id : U16) : Instr := queryCommand h wifi id id

/-- The plain Ping acknowledgment (R187(b)): PING.DOWN echoing the wifi_serial. -/
def pingAckCommand (h : TxHead) (wifi : Bytes) : Instr := .txEnc h .ping .down [(.wifiSerial, .bytes wifi)]

end Sys2Proof.Machine
end

