-- ==== Sys2Proof/Machine/Script.lean ====
section
/-!
DEFINITION. The script lines of spec/30_encoding.md rule R99 with their pseudo-operations, over the operations of
`exec`. The rule fixes a text for them; the meaning is here, the text is not read (assumption 15).
-/

namespace Sys2Proof.Machine

/-- A script line (R99). -/
inductive Line where
  | reset
  | push (bytes : Bytes)
  | pop
  | enc (h : TxHead) (kind : Kind) (dir : Dir) (fields : Fields)
  | raw (h : TxHead) (fc : Byte) (payload : Bytes)
  | take (n : Nat)
  | takeAll
deriving DecidableEq, Repr

/-- `take <n>`: `n` TX_TAKE operations (R99). -/
def takeN : Nat → State → Out
  | 0, s => .next s
  | n + 1, s =>
    match execTxTake s with
    | .next t => takeN n t
    | .fault e => .fault e
    | .refused r => .refused r

/-- One line; `header` is the configuration named in the program header. -/
def execLine (header : Cfg) (line : Line) (s : State) : Out :=
  match line with
  | .reset => exec (.reset header) s
  | .push bs => pushAll bs s
  | .pop => exec .rxPop s
  | .enc h k d fields => exec (.txEnc h k d fields) s
  | .raw h fc p => exec (.txRaw h fc p) s
  | .take n => takeN n s
  | .takeAll => takeN s.txQ.length s

/-- A program: its lines in order, stopping where there is no step. -/
def runLines (header : Cfg) : List Line → State → Out
  | [], s => .next s
  | l :: ls, s =>
    match execLine header l s with
    | .next t => runLines header ls t
    | .fault e => .fault e
    | .refused r => .refused r

end Sys2Proof.Machine
end

