-- ==== Sys2Proof/Safety.lean ====
section
/-!
DEFINITION. The terms the claims are stated in: the invariants of spec/10_state.md rule R28, what a run shows (R254),
the accounting of pushed bytes (R136) and the property of `CHK` that claims of corruption detection assume (R130).
-/

namespace Sys2Proof

open Machine

/-- The invariants that hold after every operation once the block is launched: R28, with the facts R22, R26, R27 and
R29 give beside it. -/
structure Machine.Good (s : State) : Prop where
  /-- The configuration is legal (R9, R22, R240). -/
  legal : legalCfg s.cfg = true
  /-- R28(i). -/
  waitHdr : s.rxPhase = .waitHdr → s.rxBuf.length < mbapLen
  /-- R28(ii). -/
  waitBody : s.rxPhase = .waitBody →
    s.rxNeed = s.hdr.len.toNat + frameOverhead ∧ lenBias ≤ s.hdr.len.toNat ∧ s.rxBuf.length < s.rxNeed
  /-- R28(iii), with the size of the frame held. -/
  frameReady : s.rxPhase = .frameReady →
    s.rxNeed = s.hdr.len.toNat + frameOverhead ∧ lenBias ≤ s.hdr.len.toNat ∧ s.rxNeed ≤ s.rxBuf.length ∧
      chkOk s.cfg (candidate s) = true
  /-- R28(iv). -/
  cap : s.rxBuf.length ≤ s.cfg.bufCap
  /-- While a candidate is awaited or held, the latched header is the one at the front of the buffer (R26, R123). -/
  latched : s.rxPhase ≠ .waitHdr → mbapLen ≤ s.rxBuf.length ∧ s.hdr = headerOf s.rxBuf
  /-- R27: there is a result exactly in FRAME_READY. -/
  result : s.rxOut.isSome = true ↔ s.rxPhase = .frameReady
  /-- The result is the demultiplexer's for the frame held (R124). -/
  demuxed : ∀ r, s.rxOut = some r → r = (demux s.cfg s.hdr (candidate s)).1
  /-- R29: the queue holds at most one frame. -/
  txQ : s.txQ.length ≤ maxFrame

/-- The invariant of the machine: nothing is claimed before the first RESET (R242). -/
def Machine.Invariant (s : State) : Prop := s.launched = true → Good s

/-- `CHK_DETECTS_1BYTE` (R130): changing one byte changes the checksum. -/
def ChkDetects1Byte (chk : Bytes → U16) : Prop :=
  ∀ (s : Bytes) (i : Nat) (x : Byte), i < s.length → x ≠ byteAt s i → chk (s.set i x) ≠ chk s

/-- A run is complete when the host's script is exhausted (R254). -/
def complete (s : State) : Bool := s.script.isEmpty

/-- A run is quiescent when it is complete and, in addition, no result and no transmit byte waits (R254). Bytes may still
stand in `rxBuf`: that is no error. -/
def quiescent (s : State) : Bool := complete s && !rxOutValid s && !txOutValid s

/-- The MBAP header of a result (R93). -/
def resultHdr : Result → Hdr
  | .msg h _ _ _ _ => h
  | .pass h _ _ => h
  | .derr h _ _ _ _ _ => h

/-- The bytes a result accounts for: its frame (R72, R136). -/
def resultBytes (r : Result) : Nat := (resultHdr r).len.toNat + frameOverhead

/-- The bytes an event accounts for: a failed candidate, or a degenerate header (R136). -/
def eventBytes : Event → Nat
  | .chkFail _ _ len _ _ _ => len.toNat + frameOverhead
  | .degenerateLen _ _ _ _ => mbapLen
  | .decodeShort _ _ _ _ => 0
  | .unknownFc _ _ => 0
  | .txTooLong _ _ _ => 0

/-- The received bytes a state accounts for: buffered, reported, or delivered (R136). -/
def accountedBytes (s : State) : Nat :=
  s.rxBuf.length + (s.ev.map eventBytes).sum + (s.results.map resultBytes).sum

/-- The bytes an instruction brings to the receive path: one for RX_PUSH, a whole frame for a receive row (R70, R120). -/
def pushedBytes : Instr → Nat
  | .rxPush _ => 1
  | .decAnnounceUp f | .decEnergyUp f | .decBufferedUp f | .decPingUp f | .decConfigUp f | .decQueryUp f
  | .decAnnounceAck f | .decEnergyAck f | .decBufferedAck f | .decPingDown f | .decConfigDown f | .decQueryDown f
  | .decPass _ f => f.payload.length + frameRest
  | _ => 0

/-- An idle receive path: launched, in WAIT_HDR with an empty buffer (R133), which can hold any frame (R9). -/
abbrev rxIdle (s : State) : Prop :=
  s.launched = true ∧ s.rxPhase = .waitHdr ∧ s.rxBuf = [] ∧ maxFrame ≤ s.cfg.bufCap

/-- The transmit side can take a command (R30): launched, with an empty queue. -/
abbrev txIdle (s : State) : Prop := s.launched = true ∧ s.txQ = []

/-- A frame whose received checksum is the one `CHK` gives (R129), with a payload a frame can carry (R72). -/
abbrev verifiedFrame (c : Cfg) (fc : Byte) (f : RxFrame) : Prop :=
  f.payload.length ≤ maxPayload ∧ chkOf c.chk (frameHead f.tid f.pid f.uid fc f.payload) = f.chk

/-- The plaintext payload of a received frame under the configured direction (R112, R150). -/
def plaintext (c : Cfg) (fc : Byte) (f : RxFrame) : Bytes := transform c f.pid fc c.rxDir f.payload

/-- The payload offset `i` lies in a field of the layout `l`, a variable field being as long as `s` declares (R78, R155). -/
def covered (l : VariantLayout) (s : Bytes) (i : Nat) : Prop :=
  ∃ f ∈ l.fields, f.offset ≤ i ∧
    i < f.offset + (match f.type with | .bytesOf n => lengthIn l n s | t => fixedWidth t)

/-- The MBAP header of a received frame (R71, R72). -/
def hdrOf (f : RxFrame) : Hdr := frameHdr f.tid f.pid f.uid f.payload.length

/-- The state that holds the frame `f` with its result `r`, its arrival having emitted `es` (R123, R124). -/
def holding (fc : Byte) (f : RxFrame) (r : Result) (es : List Event) (s : State) : State :=
  { s with
    rxBuf := frameBytes fc f, rxPhase := .frameReady, hdr := hdrOf f, rxNeed := f.payload.length + frameRest,
    rxOut := some r, ev := s.ev ++ es }

/-- The state after TX_ENC of the plaintext payload `p` has queued its frame (R190). -/
def queued (v : Variant) (h : TxHead) (p : Bytes) (s : State) : State :=
  { s with
    txQ := frameBuild s.cfg h.tid h.pid h.uid (kindCode v.kind) (transform s.cfg h.pid (kindCode v.kind) v.dir p) }

/-- The receive operations and rows. -/
def isReceive : Instr → Bool
  | .rxPush _ | .rxPop | .decAnnounceUp _ | .decEnergyUp _ | .decBufferedUp _ | .decPingUp _ | .decConfigUp _
  | .decQueryUp _ | .decAnnounceAck _ | .decEnergyAck _ | .decBufferedAck _ | .decPingDown _ | .decConfigDown _
  | .decQueryDown _ | .decPass _ _ => true
  | _ => false

/-- The transmit operations and rows. -/
def isTransmit : Instr → Bool
  | .txEnc _ _ _ _ | .txRaw _ _ _ | .txTake | .encAnnounceUp _ _ | .encEnergyUp _ _ | .encBufferedUp _ _
  | .encPingUp _ _ | .encConfigUp _ _ | .encQueryUp _ _ | .encAnnounceAck _ | .encEnergyAck _ | .encBufferedAck _
  | .encPingDown _ _ | .encConfigDown _ _ | .encQueryDown _ _ | .rawAny _ _ _ => true
  | _ => false

end Sys2Proof
end

