-- ==== Sys2Proof/Certificates/Slice0/Obligations.lean ====
section
/-!
DEFINITION. The statements for the provers. Each formalises a rule of spec/ named in its docstring; where one rests on a
choice of the model it says so and names the log entry.
-/

open Sys2Proof Sys2Proof.Machine

/-! ## Decoding, encoding and the step -/

/-- The eight operation codes of R95 and a word of each receive and transmit form of R77's function codes. The form byte
and the operands are the model's own (assumption 1). -/
def Obligations.CodesDecodeToTheirRows : Prop :=
  decode [0x00, 0x00, 0x00] = .ok (.reset launchCfg, []) ∧
  decode [0x01, 0x00, 0x5a] = .ok (.rxPush 0x5a, []) ∧
  decode [0x02, 0x00] = .ok (.rxPop, []) ∧
  decode [0x03, 0x00, 0x00, 0x01, 0x00, 0x05, 0x01, 0x02, 0x01, 0x01, 0x41, 0x00] =
    .ok (.txEnc ⟨1, 5, 1⟩ .ping .down [(.wifiSerial, .bytes [0x41])], []) ∧
  decode [0x04, 0x00, 0x00, 0x01, 0x00, 0x05, 0x01, 0x7f, 0x01, 0x02, 0x00] = .ok (.txRaw ⟨1, 5, 1⟩ 0x7f [0x02], []) ∧
  decode [0x05, 0x00] = .ok (.txTake, []) ∧
  decode [0x06, 0x00] = .ok (.reserved110, []) ∧
  decode [0x07, 0x00] = .ok (.reserved111, []) ∧
  decode [0x50, 0x01, 0x00, 0x01, 0x00, 0x05, 0x01, 0x00, 0xbe, 0xef] = .ok (.decBufferedUp ⟨1, 5, 1, [], 0xbeef⟩, []) ∧
  decode [0x19, 0x02, 0x00, 0x01, 0x00, 0x05, 0x01, 0x00, 0xbe, 0xef] = .ok (.decQueryDown ⟨1, 5, 1, [], 0xbeef⟩, []) ∧
  decode [0x16, 0x03, 0x00, 0x01, 0x00, 0x05, 0x01, 0x01, 0x41, 0x00] =
    .ok (.encPingUp ⟨1, 5, 1⟩ [(.wifiSerial, .bytes [0x41])], []) ∧
  decode [0x04, 0x04, 0x00, 0x01, 0x00, 0x05, 0x01] = .ok (.encEnergyAck ⟨1, 5, 1⟩, []) ∧
  decode [0x7f, 0x01, 0x00, 0x01, 0x00, 0x05, 0x01, 0x00, 0xbe, 0xef] = .ok (.decPass 0x7f ⟨1, 5, 1, [], 0xbeef⟩, [])

/-- Decoding inverts encoding, for every well-formed instruction with every operand, whatever follows it in the script
(the model's format, assumption 1). -/
def Obligations.DecodeInvertsEncode : Prop :=
  ∀ (i : Instr) (rest : Bytes), i.wellFormed = true → decode (encode i ++ rest) = .ok (i, rest)

/-- The decoder answers nothing that could not be written: R96's records and R97(f). The byte format is the model's own
(assumption 1). -/
def Obligations.DecodedIsWellFormed : Prop :=
  ∀ (bs : Bytes) (i : Instr) (rest : Bytes), decode bs = .ok (i, rest) → i.wellFormed = true

/-- The step takes the next instruction off the script and is `exec` of it; an exhausted script ends the run (R254). The
script is the model's own field (assumption 16). -/
def Obligations.StepRunsNextInstruction : Prop :=
  (∀ (s : State) (i : Instr) (rest : Bytes), decode s.script = .ok (i, rest) →
    step s = exec i { s with script := rest }) ∧
  (∀ s : State, s.script = [] → step s = .refused .scriptExhausted)

/-! ## Reset and what holds always -/

/-- R240 and R34: RESET with a legal configuration writes every field of S and leaves the trace (R213). That it leaves the
ports too is the model's reading (assumption 3). -/
def Obligations.ResetWritesEveryField : Prop :=
  ∀ (c : Cfg) (s : State),
    (legalCfg c = true →
      exec (.reset c) s = .next
        { launched := true, cfg := c, rxBuf := [], rxPhase := .waitHdr, hdr := ⟨0, 0, 0, 0⟩, rxNeed := 0, rxOut := none,
          txQ := [], ev := s.ev, results := s.results, taken := s.taken, script := s.script }) ∧
    (legalCfg c = false → exec (.reset c) s = .refused .illegalConfig)

/-- R9: what a legal configuration must satisfy; with the one layout of R23 the three conditions of R9 suffice. That no
other layout is legal is read from R8 and R23 (assumption 8). -/
def Obligations.LegalConfigurations : Prop :=
  ∀ c : Cfg,
    (legalCfg c = true → 1 ≤ c.keyLen ∧ c.key.length = c.keyLen ∧ 65543 ≤ c.bufCap ∧ c.layout = layoutTable) ∧
    (1 ≤ c.keyLen ∧ c.key.length = c.keyLen ∧ 65543 ≤ c.bufCap ∧ c.layout = layoutTable → legalCfg c = true)

/-- The state after reset: the values of R34 and the flags of R30. The configuration held there is the model's choice
(assumption 2), as are the empty trace and ports (assumption 3). -/
def Obligations.ResetStateValues : Prop :=
  State.reset.rxBuf = [] ∧ State.reset.rxPhase = .waitHdr ∧ State.reset.hdr = ⟨0, 0, 0, 0⟩ ∧ State.reset.rxNeed = 0 ∧
  State.reset.rxOut = none ∧ State.reset.txQ = [] ∧ State.reset.cfg = launchCfg ∧ legalCfg launchCfg = true ∧
  rxInReady State.reset = true ∧ rxOutValid State.reset = false ∧ txCmdReady State.reset = true ∧
  txOutValid State.reset = false

/-- R30: the four flags are these functions of the state, and have these values after RESET. -/
def Obligations.FlagsOfTheState : Prop :=
  (∀ s : State,
    (rxInReady s = true ↔ s.rxBuf.length < s.cfg.bufCap) ∧ (rxOutValid s = true ↔ s.rxPhase = .frameReady) ∧
    (txCmdReady s = true ↔ s.txQ = []) ∧ (txOutValid s = true ↔ s.txQ ≠ [])) ∧
  (∀ (c : Cfg) (s t : State), exec (.reset c) s = .next t →
    rxInReady t = true ∧ rxOutValid t = false ∧ txCmdReady t = true ∧ txOutValid t = false)

/-- R242: before the first RESET no other operation is enabled. -/
def Obligations.NothingBeforeFirstReset : Prop :=
  ∀ (i : Instr) (s : State), s.launched = false → (∀ c, i ≠ .reset c) → ∃ r, exec i s = .refused r

/-- R22 and R245: `cfg` changes only by RESET, to the configuration RESET is given. -/
def Obligations.ConfigChangesOnlyByReset : Prop :=
  ∀ (i : Instr) (s t : State), exec i s = .next t → t.cfg = s.cfg ∨ i = .reset t.cfg

/-- The invariants of R28 hold after reset. -/
def Obligations.InvariantsHoldAfterReset : Prop := Invariant State.reset

/-- R28 (with R27, R29 and the latch of R26): every step keeps the invariants, from every state that has them. -/
def Obligations.StepKeepsInvariants : Prop :=
  ∀ s t : State, Invariant s → step s = .next t → Invariant t

/-- No instruction takes anything out of the event trace or the two ports' histories. For every operation but RESET that
is R210's and R254's. That RESET keeps the results and the bytes delivered is the model's reading (assumption 3, DEDUCED);
that it keeps the trace is R213's. -/
def Obligations.TraceAndPortsOnlyGrow : Prop :=
  ∀ (i : Instr) (s t : State), exec i s = .next t → s.ev <+: t.ev ∧ s.results <+: t.results ∧ s.taken <+: t.taken

/-- R136, counted: every received byte stays buffered, or is in a degenerate header or failed candidate the trace
reports, or in a frame RX_POP delivered. RESET alone lets go of the buffered ones. Two counts are the model's: that a
receive row brings a whole frame, its payload and 10 bytes, is its choice (assumption 7, DESIGN CHOICE); that RESET keeps
the results already delivered is its reading (assumption 3, DEDUCED). -/
def Obligations.EveryReceivedByteIsAccounted : Prop :=
  ∀ (i : Instr) (s t : State), Invariant s → exec i s = .next t →
    ((∀ c, i ≠ .reset c) → accountedBytes t = accountedBytes s + pushedBytes i) ∧
    (∀ c, i = .reset c → accountedBytes t + s.rxBuf.length = accountedBytes s)

/-- R61: a receive operation or row leaves the transmit side as it was; its frame. Only RX_POP delivers a result, the
one that waited (R128). -/
def Obligations.ReceiveLeavesTransmitSide : Prop :=
  ∀ (i : Instr) (s t : State), isReceive i = true → exec i s = .next t →
    t.launched = s.launched ∧ t.cfg = s.cfg ∧ t.txQ = s.txQ ∧ t.taken = s.taken ∧ t.script = s.script ∧
    (i ≠ .rxPop → t.results = s.results) ∧ (i = .rxPop → t.results = s.results ++ s.rxOut.toList)

/-- R61: a transmit operation or row leaves the receive side as it was; its frame. Only TX_TAKE delivers a byte, and the
only event is TX_TOO_LONG, with nothing queued (R190). -/
def Obligations.TransmitLeavesReceiveSide : Prop :=
  ∀ (i : Instr) (s t : State), isTransmit i = true → exec i s = .next t →
    t.launched = s.launched ∧ t.cfg = s.cfg ∧ t.rxBuf = s.rxBuf ∧ t.rxPhase = s.rxPhase ∧ t.hdr = s.hdr ∧
    t.rxNeed = s.rxNeed ∧ t.rxOut = s.rxOut ∧ t.results = s.results ∧ t.script = s.script ∧
    (i ≠ .txTake → t.taken = s.taken) ∧
    (t.ev = s.ev ∨ (t.txQ = s.txQ ∧ ∃ tid fc n, 65533 < n ∧ t.ev = s.ev ++ [.txTooLong tid fc n]))

/-! ## Obfuscator and checksum -/

/-- R111: XOR is its own inverse. -/
def Obligations.XorIsItsOwnInverse : Prop :=
  ∀ d k : Bytes, k ≠ [] → xorKey (xorKey d k) k = d

/-- R110: the result is as long as the data, and each of its bytes is the data byte XOR the key byte at `i mod |k|`. -/
def Obligations.XorCyclesTheKey : Prop :=
  ∀ d k : Bytes, 1 ≤ k.length →
    (xorKey d k).length = d.length ∧
    ∀ i, i < d.length → byteAt (xorKey d k) i = byteAt d i ^^^ byteAt k (i % k.length)

/-- R113: `OBF_DEFAULT` is true exactly for the six known function codes, whatever the pid and the direction. -/
def Obligations.DefaultSelectionIsTheSixCodes : Prop :=
  ∀ (pid : U16) (fc : Byte) (dir : Dir),
    obfuscated obfDefault pid fc dir = true ↔
      fc = 0x03 ∨ fc = 0x04 ∨ fc = 0x16 ∨ fc = 0x18 ∨ fc = 0x19 ∨ fc = 0x50

/-- R23: `OBF_SEL` may be any function of (u16, u8, Dir): the model's rule lists (assumption 6) leave none out. -/
def Obligations.EverySelectionIsARuleList : Prop :=
  ∀ g : U16 → Byte → Dir → Bool, ∃ rules : ObfSel, ∀ pid fc dir, obfuscated rules pid fc dir = g pid fc dir

/-- R130: the default checksum and the byte sum have the property CHK_DETECTS_1BYTE. -/
def Obligations.NamedChecksumsDetectOneByte : Prop :=
  ChkDetects1Byte (chkOf .crc16Modbus) ∧ ChkDetects1Byte (chkOf .sum16)

/-- R132, R70, R72, R74, R52: where everything stands in a built frame, and that its checksum covers all before it. -/
def Obligations.BuiltFrameLayout : Prop :=
  ∀ (c : Cfg) (tid pid : U16) (uid fc : Byte) (w : Bytes), w.length ≤ 65533 →
    (frameBuild c tid pid uid fc w).length = w.length + 10 ∧
    be16 (frameBuild c tid pid uid fc w) 0 = tid ∧ be16 (frameBuild c tid pid uid fc w) 2 = pid ∧
    (be16 (frameBuild c tid pid uid fc w) 4).toNat = w.length + 2 ∧
    byteAt (frameBuild c tid pid uid fc w) 6 = uid ∧ byteAt (frameBuild c tid pid uid fc w) 7 = fc ∧
    slice (frameBuild c tid pid uid fc w) 8 w.length = w ∧
    le16 (frameBuild c tid pid uid fc w) (w.length + 8) =
      chkOf c.chk ((frameBuild c tid pid uid fc w).take (w.length + 8))

/-- R92 and R89: the layout table passes its check, and each variant's MINLEN is the end of its last field. -/
def Obligations.LayoutTableIsSound : Prop :=
  layoutOk layoutTable = true ∧
  ∀ v : Variant, ((layoutOf layoutTable v).fields.map fieldEnd).foldl max 0 = (layoutOf layoutTable v).minlen

/-! ## The receive path -/

/-- R127: while a result waits, a pushed byte is appended and nothing else happens. -/
def Obligations.PushWhileReadyOnlyAppends : Prop :=
  ∀ (b : Byte) (s : State), s.launched = true → s.rxPhase = .frameReady → s.rxBuf.length < s.cfg.bufCap →
    exec (.rxPush b) s = .next { s with rxBuf := s.rxBuf ++ [b] }

/-- R121: a full buffer has no push; with the invariants it is full only in FRAME_READY, where one RX_POP removes at
least 10 bytes. -/
def Obligations.FullBufferHoldsTheByte : Prop :=
  (∀ (b : Byte) (s : State), s.launched = true → s.cfg.bufCap ≤ s.rxBuf.length →
    exec (.rxPush b) s = .refused .rxInNotReady) ∧
  (∀ s : State, Invariant s → s.launched = true → s.cfg.bufCap ≤ s.rxBuf.length →
    s.rxPhase = .frameReady ∧ ∃ t, exec .rxPop s = .next t ∧ t.rxBuf.length + 10 ≤ s.rxBuf.length)

/-- R122: a byte that completes neither a header nor a candidate is only buffered. -/
def Obligations.PartialInputWaits : Prop :=
  ∀ (b : Byte) (s : State), s.launched = true → s.rxBuf.length < s.cfg.bufCap →
    (s.rxPhase = .waitHdr ∧ s.rxBuf.length + 1 < 7 ∨ s.rxPhase = .waitBody ∧ s.rxBuf.length + 1 < s.rxNeed) →
    exec (.rxPush b) s = .next { s with rxBuf := s.rxBuf ++ [b] }

/-- R123: with 7 bytes buffered in WAIT_HDR and a length of at least 2, settle latches the header and goes on; and what
that makes of the push of the seventh byte. -/
def Obligations.HeaderIsLatched : Prop :=
  (∀ s : State, s.rxPhase = .waitHdr → 7 ≤ s.rxBuf.length → 2 ≤ (be16 s.rxBuf 4).toNat →
    settle s = settle
      { s with
        rxPhase := .waitBody, hdr := ⟨be16 s.rxBuf 0, be16 s.rxBuf 2, be16 s.rxBuf 4, byteAt s.rxBuf 6⟩,
        rxNeed := (be16 s.rxBuf 4).toNat + 8 }) ∧
  (∀ (b : Byte) (s : State), s.launched = true → s.rxBuf.length < s.cfg.bufCap → s.rxPhase = .waitHdr →
    s.rxBuf.length = 6 → 2 ≤ (be16 (s.rxBuf ++ [b]) 4).toNat →
    exec (.rxPush b) s = .next
      { s with
        rxBuf := s.rxBuf ++ [b], rxPhase := .waitBody,
        hdr := ⟨be16 (s.rxBuf ++ [b]) 0, be16 (s.rxBuf ++ [b]) 2, be16 (s.rxBuf ++ [b]) 4, b⟩,
        rxNeed := (be16 (s.rxBuf ++ [b]) 4).toNat + 8 })

/-- R125: with 7 bytes buffered in WAIT_HDR and a length below 2, settle reports and removes the 7 bytes and goes on; and
what that makes of the push of the seventh byte. -/
def Obligations.DegenerateHeaderIsDiscarded : Prop :=
  (∀ s : State, s.rxPhase = .waitHdr → 7 ≤ s.rxBuf.length → (be16 s.rxBuf 4).toNat < 2 →
    settle s = settle
      { s with
        rxBuf := s.rxBuf.drop 7,
        ev := s.ev ++ [.degenerateLen (be16 s.rxBuf 0) (be16 s.rxBuf 2) (be16 s.rxBuf 4) (byteAt s.rxBuf 6)] }) ∧
  (∀ (b : Byte) (s : State), s.launched = true → s.rxBuf.length < s.cfg.bufCap → s.rxPhase = .waitHdr →
    s.rxBuf.length = 6 → (be16 (s.rxBuf ++ [b]) 4).toNat < 2 →
    exec (.rxPush b) s = .next
      { s with
        rxBuf := [],
        ev := s.ev ++ [.degenerateLen (be16 (s.rxBuf ++ [b]) 0) (be16 (s.rxBuf ++ [b]) 2) (be16 (s.rxBuf ++ [b]) 4) b] })

/-- R124 and R129: with all of a candidate buffered in WAIT_BODY, settle delivers the demultiplexer's result when the
checksum matches, and reports and removes the candidate and goes on when it does not; and what that makes of the push of
a candidate's last byte. -/
def Obligations.CandidateIsSettled : Prop :=
  (∀ s : State, s.rxPhase = .waitBody → s.rxNeed ≤ s.rxBuf.length →
    let f := s.rxBuf.take s.rxNeed
    let chkCalculated := chkOf s.cfg.chk (f.take (s.rxNeed - 2))
    let chkReceived := le16 f (s.rxNeed - 2)
    (chkCalculated = chkReceived →
      settle s =
        { s with
          rxOut := some (demux s.cfg s.hdr f).1, rxPhase := .frameReady,
          ev := s.ev ++ (demux s.cfg s.hdr f).2.toList }) ∧
    (chkCalculated ≠ chkReceived →
      settle s = settle
        { s with
          rxBuf := s.rxBuf.drop s.rxNeed, rxPhase := .waitHdr,
          ev := s.ev ++ [.chkFail s.hdr.tid s.hdr.pid s.hdr.len s.hdr.uid chkReceived chkCalculated] })) ∧
  (∀ (b : Byte) (s : State), s.launched = true → s.rxBuf.length < s.cfg.bufCap → s.rxPhase = .waitBody →
    s.rxBuf.length + 1 = s.rxNeed →
    let f := s.rxBuf ++ [b]
    let chkCalculated := chkOf s.cfg.chk (f.take (s.rxNeed - 2))
    let chkReceived := le16 f (s.rxNeed - 2)
    (chkCalculated = chkReceived →
      exec (.rxPush b) s = .next
        { s with
          rxBuf := f, rxPhase := .frameReady, rxOut := some (demux s.cfg s.hdr f).1,
          ev := s.ev ++ (demux s.cfg s.hdr f).2.toList }) ∧
    (chkCalculated ≠ chkReceived →
      exec (.rxPush b) s = .next
        { s with
          rxBuf := [], rxPhase := .waitHdr,
          ev := s.ev ++ [.chkFail s.hdr.tid s.hdr.pid s.hdr.len s.hdr.uid chkReceived chkCalculated] }))

/-- R128: RX_POP delivers the result, removes exactly the frame's bytes and settles what is left; with fewer than 7
bytes left there is nothing to settle. Without a result it has no step. -/
def Obligations.PopConsumesOneFrame : Prop :=
  ∀ s : State, s.launched = true →
    (s.rxPhase = .frameReady →
      exec .rxPop s = .next (settle
        { s with
          rxBuf := s.rxBuf.drop s.rxNeed, rxPhase := .waitHdr, rxOut := none,
          results := s.results ++ s.rxOut.toList })) ∧
    (s.rxPhase = .frameReady → s.rxBuf.length < s.rxNeed + 7 →
      exec .rxPop s = .next
        { s with
          rxBuf := s.rxBuf.drop s.rxNeed, rxPhase := .waitHdr, rxOut := none,
          results := s.results ++ s.rxOut.toList }) ∧
    (s.rxPhase ≠ .frameReady → exec .rxPop s = .refused .rxOutNotValid)

/-- R153: the number of payload bytes each variant needs. -/
def Obligations.NeedOfEachVariant : Prop :=
  ∀ (v : Variant) (s : Bytes),
    need (layoutOf layoutTable v) s =
      match v.kind, v.dir with
      | .announce, .up => 173
      | .energy, .up => 197
      | .bufferedEnergy, .up => 197
      | .ping, _ => 10
      | .announce, .down => 1
      | .energy, .down => 1
      | .bufferedEnergy, .down => 1
      | .query, .down => 34
      | .config, _ => if s.length < 34 then 34 else 34 + (be16 s 32).toNat
      | .query, .up => if s.length < 34 then 34 else 34 + (be16 s 32).toNat

/-- R150, R152 and R216: what the demultiplexer answers for a verified frame, by its function code and payload length. -/
def Obligations.DemultiplexerOutcomes : Prop :=
  ∀ (c : Cfg) (h : Hdr) (fc : Byte) (f : RxFrame),
    (kindOf fc = none → demux c h (frameBytes fc f) = (.pass h fc (frameBytes fc f), some (.unknownFc h.tid fc))) ∧
    (∀ k, kindOf fc = some k →
      let s := transform c h.pid fc c.rxDir f.payload
      let l := layoutOf c.layout ⟨k, c.rxDir⟩
      (s.length < need l s →
        demux c h (frameBytes fc f) =
          (.derr h fc c.rxDir k s.length (need l s), some (.decodeShort h.tid fc s.length (need l s)))) ∧
      (need l s ≤ s.length → demux c h (frameBytes fc f) = (.msg h fc c.rxDir k (decodeFields l s), none)))

/-- R155: a payload that agrees with `s` on the bytes its fields cover, and is long enough, decodes as `s` does, whatever
its gaps hold and however long it is. -/
def Obligations.UncoveredBytesAreNotRead : Prop :=
  ∀ (v : Variant) (s s' : Bytes),
    let l := layoutOf layoutTable v
    need l s ≤ s.length → need l s ≤ s'.length → (∀ i, covered l s i → byteAt s' i = byteAt s i) →
    need l s' = need l s ∧ decodeFields l s' = decodeFields l s

/-- R133: pushing the bytes of a built frame into an idle receive path reaches FRAME_READY exactly at the last byte, with
the frame's header latched and its payload held. -/
def Obligations.BuiltFrameIsAssembled : Prop :=
  ∀ (s : State) (tid pid : U16) (uid fc : Byte) (w : Bytes), rxIdle s → w.length ≤ 65533 →
    (∀ k, k < w.length + 10 →
      ∃ t, pushAll ((frameBuild s.cfg tid pid uid fc w).take k) s = .next t ∧ t.rxPhase ≠ .frameReady ∧ t.ev = s.ev) ∧
    ∃ t, pushAll (frameBuild s.cfg tid pid uid fc w) s = .next t ∧ t.rxPhase = .frameReady ∧
      t.hdr.tid = tid ∧ t.hdr.pid = pid ∧ t.hdr.len.toNat = w.length + 2 ∧ t.hdr.uid = uid ∧
      slice t.rxBuf 8 w.length = w

/-- R134: under CHK_DETECTS_1BYTE, a built frame with one payload byte changed is reported and dropped, and no result
comes of it. -/
def Obligations.CorruptPayloadIsDropped : Prop :=
  ∀ (s : State) (tid pid : U16) (uid fc : Byte) (w : Bytes) (i : Nat) (x : Byte),
    ChkDetects1Byte (chkOf s.cfg.chk) → rxIdle s → s.rxOut = none → w.length ≤ 65533 → i < w.length → x ≠ byteAt w i →
    ∃ t, pushAll ((frameBuild s.cfg tid pid uid fc w).set (8 + i) x) s = .next t ∧
      t.rxPhase = .waitHdr ∧ t.rxBuf = [] ∧ t.rxOut = none ∧ t.results = s.results ∧
      ∃ rx computed, rx ≠ computed ∧
        t.ev = s.ev ++ [.chkFail tid pid (BitVec.ofNat 16 (w.length + 2)) uid rx computed]

/-- R205: what one block encodes, another that shares KEY, CHK and OBF_SEL and listens in the command's direction
decodes, with strings and config_value normalised as R182 and R184 say. -/
def Obligations.EncodedMessageIsDecoded : Prop :=
  ∀ (a b : State) (v : Variant) (h : TxHead) (fields : Fields),
    txIdle a → rxIdle b → a.cfg.layout = layoutTable → b.cfg.layout = layoutTable →
    b.cfg.key = a.cfg.key → b.cfg.chk = a.cfg.chk → b.cfg.obfSel = a.cfg.obfSel → b.cfg.rxDir = v.dir →
    commandFits v fields = true → (encodePayload a.cfg v fields).length ≤ 65533 →
    ∃ a' b', exec (Instr.ofTransmit v h fields) a = .next a' ∧ pushAll a'.txQ b = .next b' ∧
      b'.rxPhase = .frameReady ∧
      b'.rxOut = some (.msg ⟨h.tid, h.pid, BitVec.ofNat 16 ((encodePayload a.cfg v fields).length + 2), h.uid⟩
        (kindCode v.kind) v.dir v.kind
        (if isAck v then [(.ack, .u8 a.cfg.ackByte)]
          else normaliseFields fields (layoutOf layoutTable v).fields fields))

/-! ## The receive rows -/

/-- R160: DEC.ANNOUNCE.UP. That a row is one whole arrival is the model's choice (assumption 7). -/
def Obligations.DecAnnounceUpResult : Prop :=
  ∀ (f : RxFrame) (s : State), rxIdle s → s.cfg.layout = layoutTable → s.cfg.rxDir = .up → verifiedFrame s.cfg 0x03 f →
    173 ≤ f.payload.length →
    let p := plaintext s.cfg 0x03 f
    exec (.decAnnounceUp f) s = .next (holding 0x03 f (.msg (hdrOf f) 0x03 .up .announce
      [(.wifiSerial, .bytes (slice p 0 10)), (.deviceSerial, .bytes (slice p 30 10)),
       (.deviceType, .bytes (slice p 139 16)),
       (.year, .u16 (be16 p 161)), (.month, .u16 (be16 p 163)), (.day, .u16 (be16 p 165)),
       (.hour, .u16 (be16 p 167)), (.minute, .u16 (be16 p 169)), (.second, .u16 (be16 p 171))]) [] s)

/-- R161 and R162: DEC.ENERGY.UP and DEC.BUFFERED.UP, which differ in function code and kind only. That a row is one
whole arrival is the model's choice (assumption 7). -/
def Obligations.DecEnergyAndBufferedUpResult : Prop :=
  let fields := fun (p : Bytes) => ([
    (.wifiSerial, .bytes (slice p 0 10)), (.inverterSerial, .bytes (slice p 30 10)),
    (.year, .u8 (byteAt p 60)), (.month, .u8 (byteAt p 61)), (.day, .u8 (byteAt p 62)),
    (.hour, .u8 (byteAt p 63)), (.minute, .u8 (byteAt p 64)), (.second, .u8 (byteAt p 65)),
    (.inverterStatus, .u16 (be16 p 71)), (.ppv, .u32 (be32 p 73)),
    (.vpv1, .u16 (be16 p 77)), (.ipv1, .u16 (be16 p 79)), (.ppv1, .u32 (be32 p 81)),
    (.vpv2, .u16 (be16 p 85)), (.ipv2, .u16 (be16 p 87)), (.ppv2, .u32 (be32 p 89)),
    (.pac, .u32 (be32 p 117)), (.fac, .u16 (be16 p 121)),
    (.vac1, .u16 (be16 p 123)), (.iac1, .u16 (be16 p 125)), (.pac1, .u32 (be32 p 127)),
    (.eacToday, .u32 (be32 p 169)), (.eacTotal, .u32 (be32 p 173)), (.epvTotal, .u32 (be32 p 177)),
    (.epv1Today, .u32 (be32 p 181)), (.epv1Total, .u32 (be32 p 185)),
    (.epv2Today, .u32 (be32 p 189)), (.epv2Total, .u32 (be32 p 193))] : Fields)
  ∀ (f : RxFrame) (s : State), rxIdle s → s.cfg.layout = layoutTable → s.cfg.rxDir = .up → 197 ≤ f.payload.length →
    (verifiedFrame s.cfg 0x04 f →
      exec (.decEnergyUp f) s = .next (holding 0x04 f
        (.msg (hdrOf f) 0x04 .up .energy (fields (plaintext s.cfg 0x04 f))) [] s)) ∧
    (verifiedFrame s.cfg 0x50 f →
      exec (.decBufferedUp f) s = .next (holding 0x50 f
        (.msg (hdrOf f) 0x50 .up .bufferedEnergy (fields (plaintext s.cfg 0x50 f))) [] s))

/-- R163 and R169: DEC.PING.UP and DEC.PING.DOWN. That a row is one whole arrival is the model's choice (assumption 7).
-/
def Obligations.DecPingResult : Prop :=
  ∀ (f : RxFrame) (s : State), rxIdle s → s.cfg.layout = layoutTable → verifiedFrame s.cfg 0x16 f →
    10 ≤ f.payload.length →
    let r := fun d => Result.msg (hdrOf f) 0x16 d .ping [(.wifiSerial, .bytes (slice (plaintext s.cfg 0x16 f) 0 10))]
    (s.cfg.rxDir = .up → exec (.decPingUp f) s = .next (holding 0x16 f (r .up) [] s)) ∧
    (s.cfg.rxDir = .down → exec (.decPingDown f) s = .next (holding 0x16 f (r .down) [] s))

/-- R164, R165 and R170: DEC.CONFIG.UP, DEC.QUERY.UP and DEC.CONFIG.DOWN, with a config_value of the declared length.
That a row is one whole arrival is the model's choice (assumption 7). -/
def Obligations.DecConfigShapedResult : Prop :=
  ∀ (f : RxFrame) (s : State), rxIdle s → s.cfg.layout = layoutTable →
    let r := fun (fc : Byte) (d : Dir) (k : Kind) =>
      let p := plaintext s.cfg fc f
      Result.msg (hdrOf f) fc d k
        [(.wifiSerial, .bytes (slice p 0 10)), (.configId, .u16 (be16 p 30)), (.configLength, .u16 (be16 p 32)),
         (.configValue, .bytes (slice p 34 (be16 p 32).toNat))]
    let long := fun (fc : Byte) => verifiedFrame s.cfg fc f ∧ 34 ≤ f.payload.length ∧
      34 + (be16 (plaintext s.cfg fc f) 32).toNat ≤ f.payload.length
    (s.cfg.rxDir = .up → long 0x18 →
      exec (.decConfigUp f) s = .next (holding 0x18 f (r 0x18 .up .config) [] s)) ∧
    (s.cfg.rxDir = .up → long 0x19 →
      exec (.decQueryUp f) s = .next (holding 0x19 f (r 0x19 .up .query) [] s)) ∧
    (s.cfg.rxDir = .down → long 0x18 →
      exec (.decConfigDown f) s = .next (holding 0x18 f (r 0x18 .down .config) [] s))

/-- R166, R167 and R168: the three ack rows read payload byte 0 and do not compare it with ACK_BYTE. That a row is one
whole arrival is the model's choice (assumption 7). -/
def Obligations.DecAckResult : Prop :=
  ∀ (f : RxFrame) (s : State), rxIdle s → s.cfg.layout = layoutTable → s.cfg.rxDir = .down → 1 ≤ f.payload.length →
    let r := fun (fc : Byte) (k : Kind) =>
      Result.msg (hdrOf f) fc .down k [(.ack, .u8 (byteAt (plaintext s.cfg fc f) 0))]
    (verifiedFrame s.cfg 0x03 f →
      exec (.decAnnounceAck f) s = .next (holding 0x03 f (r 0x03 .announce) [] s)) ∧
    (verifiedFrame s.cfg 0x04 f →
      exec (.decEnergyAck f) s = .next (holding 0x04 f (r 0x04 .energy) [] s)) ∧
    (verifiedFrame s.cfg 0x50 f →
      exec (.decBufferedAck f) s = .next (holding 0x50 f (r 0x50 .bufferedEnergy) [] s))

/-- R171: DEC.QUERY.DOWN; no range check. That a row is one whole arrival is the model's choice (assumption 7). -/
def Obligations.DecQueryDownResult : Prop :=
  ∀ (f : RxFrame) (s : State), rxIdle s → s.cfg.layout = layoutTable → s.cfg.rxDir = .down →
    verifiedFrame s.cfg 0x19 f → 34 ≤ f.payload.length →
    let p := plaintext s.cfg 0x19 f
    exec (.decQueryDown f) s = .next (holding 0x19 f (.msg (hdrOf f) 0x19 .down .query
      [(.wifiSerial, .bytes (slice p 0 10)), (.firstConfig, .u16 (be16 p 30)), (.lastConfig, .u16 (be16 p 32))]) [] s)

/-- R152: DEC.PASS delivers the whole frame as received, not de-obfuscated, with UNKNOWN_FC, in either direction. That a
row is one whole arrival is the model's choice (assumption 7). -/
def Obligations.DecPassResult : Prop :=
  ∀ (fc : Byte) (f : RxFrame) (s : State), rxIdle s → kindOf fc = none → verifiedFrame s.cfg fc f →
    exec (.decPass fc f) s = .next
      (holding fc f (.pass (hdrOf f) fc (frameBytes fc f)) [.unknownFc f.tid fc] s)

/-- R153: a verified frame whose payload is shorter than its variant needs gives DERR and DECODE_SHORT, for each of the
twelve receive rows. That a row is one whole arrival is the model's choice (assumption 7). -/
def Obligations.ShortPayloadIsReported : Prop :=
  ∀ (v : Variant) (f : RxFrame) (s : State), rxIdle s → s.cfg.rxDir = v.dir →
    verifiedFrame s.cfg (kindCode v.kind) f →
    let n := need (layoutOf s.cfg.layout v) (plaintext s.cfg (kindCode v.kind) f)
    f.payload.length < n →
    exec (Instr.ofReceive v f) s = .next (holding (kindCode v.kind) f
      (.derr (hdrOf f) (kindCode v.kind) v.dir v.kind f.payload.length n)
      [.decodeShort f.tid (kindCode v.kind) f.payload.length n] s)

/-- R124 and R214 for the receive rows: a frame whose checksum does not match is discarded with CHK_FAIL, and neither
its function code nor its payload is examined (R216). That a row is one whole arrival is the model's choice (assumption
7). -/
def Obligations.FailedChecksumIsReported : Prop :=
  ∀ (f : RxFrame) (s : State), rxIdle s → f.payload.length ≤ 65533 →
    let bad := fun (fc : Byte) => chkOf s.cfg.chk (frameHead f.tid f.pid f.uid fc f.payload) ≠ f.chk
    let t := fun (fc : Byte) =>
      { s with
        rxBuf := [], rxPhase := .waitHdr, hdr := hdrOf f, rxNeed := f.payload.length + 10,
        ev := s.ev ++ [.chkFail f.tid f.pid (hdrOf f).len f.uid f.chk
          (chkOf s.cfg.chk (frameHead f.tid f.pid f.uid fc f.payload))] }
    (∀ v : Variant, s.cfg.rxDir = v.dir → bad (kindCode v.kind) →
      exec (Instr.ofReceive v f) s = .next (t (kindCode v.kind))) ∧
    (∀ fc, kindOf fc = none → bad fc → exec (.decPass fc f) s = .next (t fc))

/-- R151: the variant is chosen by the configured direction; a receive row of the other direction has no step. That a
row is one whole arrival is the model's choice (assumption 7). -/
def Obligations.OtherDirectionIsNotSelected : Prop :=
  ∀ (v : Variant) (f : RxFrame) (s : State), s.launched = true → s.cfg.rxDir ≠ v.dir →
    exec (Instr.ofReceive v f) s = .refused .variantNotSelected

/-- A receive row, in any state, is RX_PUSH of each byte of its frame in turn; where a push has no step, neither has the
row. That a row is the whole arrival is the model's choice (assumption 7); each push is R120's. -/
def Obligations.ReceiveRowIsItsPushes : Prop :=
  (∀ s : State, pushAll [] s = .next s) ∧
  (∀ (b : Byte) (bs : Bytes) (s : State),
    (∀ t, exec (.rxPush b) s = .next t → pushAll (b :: bs) s = pushAll bs t) ∧
    (∀ r, exec (.rxPush b) s = .refused r → pushAll (b :: bs) s = .refused r)) ∧
  (∀ (v : Variant) (f : RxFrame) (s : State), s.launched = true → s.cfg.rxDir = v.dir → f.payload.length ≤ 65533 →
    exec (Instr.ofReceive v f) s = pushAll (frameBytes (kindCode v.kind) f) s) ∧
  (∀ (fc : Byte) (f : RxFrame) (s : State), s.launched = true → kindOf fc = none → f.payload.length ≤ 65533 →
    exec (.decPass fc f) s = pushAll (frameBytes fc f) s)

/-- An instruction that could not be written (R72, R96, R97(f)) has no step, in any state with the one layout. Fields are
lists in the layout's order (assumption 9). That RESET with another layout has no step is the model's reading of R23
(assumption 8, DEDUCED). -/
def Obligations.IllFormedInstructionsHaveNoStep : Prop :=
  ∀ (i : Instr) (s : State), s.cfg.layout = layoutTable → i.wellFormed = false → ∃ r, exec i s = .refused r

/-! ## The transmit operations and rows -/

/-- R190: TX_ENC of a fitting command queues the framed, obfuscated payload, or emits TX_TOO_LONG and queues nothing; the
row of its variant does the same. -/
def Obligations.TxEncQueuesOrReports : Prop :=
  ∀ (h : TxHead) (k : Kind) (d : Dir) (fields : Fields) (s : State), txIdle s → s.cfg.layout = layoutTable →
    commandFits ⟨k, d⟩ fields = true →
    exec (.txEnc h k d fields) s = exec (Instr.ofTransmit ⟨k, d⟩ h fields) s ∧
    ((encodePayload s.cfg ⟨k, d⟩ fields).length ≤ 65533 →
      exec (.txEnc h k d fields) s = .next (queued ⟨k, d⟩ h (encodePayload s.cfg ⟨k, d⟩ fields) s)) ∧
    (65533 < (encodePayload s.cfg ⟨k, d⟩ fields).length →
      exec (.txEnc h k d fields) s = .next
        { s with ev := s.ev ++ [.txTooLong h.tid (kindCode k) (encodePayload s.cfg ⟨k, d⟩ fields).length] })

/-- R193: ENC.ANNOUNCE.UP. -/
def Obligations.EncAnnounceUpQueues : Prop :=
  ∀ (h : TxHead) (wifi device type : Bytes) (ye mo da ho mi se : U16) (s : State), txIdle s →
    s.cfg.layout = layoutTable →
    exec (.encAnnounceUp h
      [(.wifiSerial, .bytes wifi), (.deviceSerial, .bytes device), (.deviceType, .bytes type),
       (.year, .u16 ye), (.month, .u16 mo), (.day, .u16 da), (.hour, .u16 ho), (.minute, .u16 mi), (.second, .u16 se)]) s =
    .next (queued ⟨.announce, .up⟩ h
      (fitTo 10 wifi ++ zeros 20 ++ fitTo 10 device ++ zeros 99 ++ fitTo 16 type ++ zeros 6 ++
        encBe16 ye ++ encBe16 mo ++ encBe16 da ++ encBe16 ho ++ encBe16 mi ++ encBe16 se) s)

/-- R194 and R195: ENC.ENERGY.UP and ENC.BUFFERED.UP, each field at its offset of R81 and 0x00 in the gaps. -/
def Obligations.EncEnergyAndBufferedUpQueue : Prop :=
  ∀ (h : TxHead) (wifi inverter : Bytes) (ye mo da ho mi se : Byte) (status : U16)
    (ppv : U32) (vpv1 ipv1 : U16) (ppv1 : U32) (vpv2 ipv2 : U16) (ppv2 pac : U32) (fac vac1 iac1 : U16) (pac1 : U32)
    (eacD eacT epvT epv1D epv1T epv2D epv2T : U32) (s : State), txIdle s → s.cfg.layout = layoutTable →
    let fields : Fields := [
      (.wifiSerial, .bytes wifi), (.inverterSerial, .bytes inverter), (.year, .u8 ye), (.month, .u8 mo), (.day, .u8 da),
      (.hour, .u8 ho), (.minute, .u8 mi), (.second, .u8 se), (.inverterStatus, .u16 status),
      (.ppv, .u32 ppv), (.vpv1, .u16 vpv1), (.ipv1, .u16 ipv1), (.ppv1, .u32 ppv1),
      (.vpv2, .u16 vpv2), (.ipv2, .u16 ipv2), (.ppv2, .u32 ppv2),
      (.pac, .u32 pac), (.fac, .u16 fac), (.vac1, .u16 vac1), (.iac1, .u16 iac1), (.pac1, .u32 pac1),
      (.eacToday, .u32 eacD), (.eacTotal, .u32 eacT), (.epvTotal, .u32 epvT),
      (.epv1Today, .u32 epv1D), (.epv1Total, .u32 epv1T), (.epv2Today, .u32 epv2D), (.epv2Total, .u32 epv2T)]
    let p := fitTo 10 wifi ++ zeros 20 ++ fitTo 10 inverter ++ zeros 20 ++ [ye, mo, da, ho, mi, se] ++ zeros 5 ++
      encBe16 status ++ encBe32 ppv ++ encBe16 vpv1 ++ encBe16 ipv1 ++ encBe32 ppv1 ++
      encBe16 vpv2 ++ encBe16 ipv2 ++ encBe32 ppv2 ++ zeros 24 ++
      encBe32 pac ++ encBe16 fac ++ encBe16 vac1 ++ encBe16 iac1 ++ encBe32 pac1 ++ zeros 38 ++
      encBe32 eacD ++ encBe32 eacT ++ encBe32 epvT ++ encBe32 epv1D ++ encBe32 epv1T ++ encBe32 epv2D ++ encBe32 epv2T
    exec (.encEnergyUp h fields) s = .next (queued ⟨.energy, .up⟩ h p s) ∧
    exec (.encBufferedUp h fields) s = .next (queued ⟨.bufferedEnergy, .up⟩ h p s)

/-- R196 and R197: ENC.PING.UP and ENC.PING.DOWN. -/
def Obligations.EncPingQueues : Prop :=
  ∀ (h : TxHead) (wifi : Bytes) (s : State), txIdle s → s.cfg.layout = layoutTable →
    exec (.encPingUp h [(.wifiSerial, .bytes wifi)]) s = .next (queued ⟨.ping, .up⟩ h (fitTo 10 wifi) s) ∧
    exec (.encPingDown h [(.wifiSerial, .bytes wifi)]) s = .next (queued ⟨.ping, .down⟩ h (fitTo 10 wifi) s)

/-- R198, R199 and R200: the three ack rows, whose payload is the one byte ACK_BYTE (R185). -/
def Obligations.EncAckQueues : Prop :=
  ∀ (h : TxHead) (s : State), txIdle s → s.cfg.layout = layoutTable →
    exec (.encAnnounceAck h) s = .next (queued ⟨.announce, .down⟩ h [s.cfg.ackByte] s) ∧
    exec (.encEnergyAck h) s = .next (queued ⟨.energy, .down⟩ h [s.cfg.ackByte] s) ∧
    exec (.encBufferedAck h) s = .next (queued ⟨.bufferedEnergy, .down⟩ h [s.cfg.ackByte] s)

/-- R201, R202 and R204: ENC.CONFIG.DOWN, ENC.CONFIG.UP and ENC.QUERY.UP, the value sized by the declared length (R184);
a declared length above 65499 gives TX_TOO_LONG. -/
def Obligations.EncConfigShapedQueues : Prop :=
  ∀ (h : TxHead) (wifi : Bytes) (id len : U16) (value : Bytes) (s : State), txIdle s → s.cfg.layout = layoutTable →
    let fields : Fields :=
      [(.wifiSerial, .bytes wifi), (.configId, .u16 id), (.configLength, .u16 len), (.configValue, .bytes value)]
    let p := fitTo 10 wifi ++ zeros 20 ++ encBe16 id ++ encBe16 len ++ fitTo len.toNat value
    let tooLong := fun (fc : Byte) => { s with ev := s.ev ++ [.txTooLong h.tid fc (34 + len.toNat)] }
    (len.toNat ≤ 65499 →
      exec (.encConfigDown h fields) s = .next (queued ⟨.config, .down⟩ h p s) ∧
      exec (.encConfigUp h fields) s = .next (queued ⟨.config, .up⟩ h p s) ∧
      exec (.encQueryUp h fields) s = .next (queued ⟨.query, .up⟩ h p s)) ∧
    (65499 < len.toNat →
      exec (.encConfigDown h fields) s = .next (tooLong 0x18) ∧
      exec (.encConfigUp h fields) s = .next (tooLong 0x18) ∧
      exec (.encQueryUp h fields) s = .next (tooLong 0x19))

/-- R203: ENC.QUERY.DOWN; the range is not checked. -/
def Obligations.EncQueryDownQueues : Prop :=
  ∀ (h : TxHead) (wifi : Bytes) (first last : U16) (s : State), txIdle s → s.cfg.layout = layoutTable →
    exec (.encQueryDown h [(.wifiSerial, .bytes wifi), (.firstConfig, .u16 first), (.lastConfig, .u16 last)]) s =
      .next (queued ⟨.query, .down⟩ h (fitTo 10 wifi ++ zeros 20 ++ encBe16 first ++ encBe16 last) s)

/-- R191: TX_RAW and RAW.ANY frame the given wire bytes for any function code, never obfuscated. -/
def Obligations.RawPayloadIsFramedAsGiven : Prop :=
  ∀ (h : TxHead) (fc : Byte) (w : Bytes) (s : State), txIdle s → w.length ≤ 65533 →
    exec (.txRaw h fc w) s = .next { s with txQ := frameBuild s.cfg h.tid h.pid h.uid fc w } ∧
    exec (.rawAny h fc w) s = .next { s with txQ := frameBuild s.cfg h.tid h.pid h.uid fc w }

/-- R192: TX_TAKE delivers the byte at the front of the queue; an empty queue has nothing to take. -/
def Obligations.TakeDeliversTheFrontByte : Prop :=
  (∀ (b : Byte) (rest : Bytes) (s : State), s.launched = true → s.txQ = b :: rest →
    exec .txTake s = .next { s with txQ := rest, taken := s.taken ++ [b] }) ∧
  (∀ s : State, s.launched = true → s.txQ = [] → exec .txTake s = .refused .txOutNotValid)

/-- R247: no transmit command has a step until the previous frame's bytes have all been taken. -/
def Obligations.CommandsWaitForTheQueue : Prop :=
  ∀ (i : Instr) (s : State), s.launched = true → s.txQ ≠ [] → isTransmit i = true → i ≠ .txTake →
    exec i s = .refused .txCmdNotReady

/-- R97(e): the reserved operation codes 110 and 111 have no step in any state. -/
def Obligations.ReservedCodesHaveNoStep : Prop :=
  ∀ s : State, exec .reserved110 s = .refused (.reservedOperation 6) ∧
    exec .reserved111 s = .refused (.reservedOperation 7)

/-- R186 and R187: each message of the Negotiation Engine can be written, and a block that can take a command queues the
frame of the payload those rules give it. A caller's CONFIG.DOWN whose declared length no frame can carry is reported
(R190). -/
def Obligations.NegotiationMessagesAreQueued : Prop :=
  ∀ (h : TxHead) (wifi value : Bytes) (id len : U16) (s : State), txIdle s → s.cfg.layout = layoutTable →
    let queues := fun (i : Instr) (k : Kind) (p : Bytes) =>
      i.wellFormed = true ∧ exec i s = .next (queued ⟨k, .down⟩ h p s)
    let serial := fitTo 10 wifi ++ zeros 20
    queues (announceAckCommand h) .announce [s.cfg.ackByte] ∧
    queues (energyAckCommand h) .energy [s.cfg.ackByte] ∧
    queues (bufferedAckCommand h) .bufferedEnergy [s.cfg.ackByte] ∧
    queues (dateCommand h wifi value) .config (serial ++ encBe16 0x1F ++ encBe16 19 ++ fitTo 19 value) ∧
    queues (fullQueryCommand h wifi) .query (serial ++ encBe16 0x01 ++ encBe16 0x1F) ∧
    (len.toNat ≤ 65499 →
      queues (configCommand h wifi id len value) .config
        (serial ++ encBe16 id ++ encBe16 len ++ fitTo len.toNat value)) ∧
    (65499 < len.toNat →
      exec (configCommand h wifi id len value) s = .next
        { s with ev := s.ev ++ [.txTooLong h.tid 0x18 (34 + len.toNat)] }) ∧
    queues (queryAckCommand h wifi id) .query (serial ++ encBe16 id ++ encBe16 id) ∧
    queues (pingAckCommand h wifi) .ping (fitTo 10 wifi)
end

