-- ==== Sys2Proof/Laws/Bytes.lean ====
section
/-!
SUPPORT. What the byte primitives of Machine/Bytes.lean do: reading what was written, lengths, and slices.
-/

namespace Sys2Proof.Machine

@[simp] theorem length_encBe16 (v : U16) : (encBe16 v).length = 2 := rfl
@[simp] theorem length_encBe32 (v : U32) : (encBe32 v).length = 4 := rfl
@[simp] theorem length_encLe16 (v : U16) : (encLe16 v).length = 2 := rfl
@[simp] theorem length_zeros (n : Nat) : (zeros n).length = n := by simp [zeros]

/-- The two bytes of a 16-bit value, high byte first, are the value. -/
@[simp] theorem bytes16_append (v : U16) : (v.extractLsb' 8 8 ++ v.extractLsb' 0 8 : BitVec 16) = v := by
  ext i hi
  simp only [BitVec.getElem_append, BitVec.getElem_extractLsb']
  split
  · rename_i h; simp [BitVec.getLsbD_eq_getElem hi]
  · rename_i h; rw [show 8 + (i - 8) = i by omega]; simp [BitVec.getLsbD_eq_getElem hi]

/-- The two halves of a 32-bit value are the value. -/
theorem halves32_append (v : U32) : (v.extractLsb' 16 16 ++ v.extractLsb' 0 16 : BitVec 32) = v := by
  ext i hi
  simp only [BitVec.getElem_append, BitVec.getElem_extractLsb']
  split
  · simp [BitVec.getLsbD_eq_getElem hi]
  · rw [show 16 + (i - 16) = i by omega]; simp [BitVec.getLsbD_eq_getElem hi]

/-- The four bytes of a 32-bit value, most significant first, are the value. -/
@[simp] theorem bytes32_append (v : U32) :
    ((v.extractLsb' 24 8 ++ v.extractLsb' 16 8 : BitVec 16) ++ (v.extractLsb' 8 8 ++ v.extractLsb' 0 8 : BitVec 16)
      : BitVec 32) = v := by
  have h1 : (v.extractLsb' 24 8 ++ v.extractLsb' 16 8 : BitVec 16) = v.extractLsb' 16 16 := by
    rw [← bytes16_append (v.extractLsb' 16 16)]
    congr 1 <;> ext i hi <;> simp
    · simp [show 16 + (8 + i) = 24 + i by omega, show 8 + i < 16 from by omega]
    · omega
  have h0 : (v.extractLsb' 8 8 ++ v.extractLsb' 0 8 : BitVec 16) = v.extractLsb' 0 16 := by
    rw [← bytes16_append (v.extractLsb' 0 16)]
    congr 1 <;> ext i hi <;> simp
  rw [h1, h0, halves32_append]

/-- `byteAt` in the first part of an appended sequence. -/
theorem byteAt_append_left {a b : Bytes} {o : Nat} (h : o < a.length) : byteAt (a ++ b) o = byteAt a o := by
  simp [byteAt, List.getD, List.getElem?_append_left h]

/-- `byteAt` in the second part of an appended sequence. -/
theorem byteAt_append_right {a b : Bytes} {o : Nat} (h : a.length ≤ o) : byteAt (a ++ b) o = byteAt b (o - a.length) := by
  simp [byteAt, List.getD, List.getElem?_append_right h]

/-- `byteAt` at an offset in the second part. -/
theorem byteAt_append_add (a b : Bytes) (k : Nat) : byteAt (a ++ b) (a.length + k) = byteAt b k := by
  rw [byteAt_append_right (Nat.le_add_right _ _)]; simp

/-- `byteAt` at the start of the second part. -/
theorem byteAt_append_length (a b : Bytes) : byteAt (a ++ b) a.length = byteAt b 0 := byteAt_append_add a b 0

/-- A big-endian read of a big-endian write. -/
theorem be16_encBe16 (a b : Bytes) (v : U16) : be16 (a ++ (encBe16 v ++ b)) a.length = v := by
  rw [be16, byteAt_append_add, byteAt_append_length]
  exact bytes16_append v

/-- A big-endian read of a big-endian write. -/
theorem be32_encBe32 (a b : Bytes) (v : U32) : be32 (a ++ (encBe32 v ++ b)) a.length = v := by
  rw [be32, byteAt_append_add, byteAt_append_add, byteAt_append_add, byteAt_append_length]
  exact bytes32_append v

/-- A little-endian read of a little-endian write. -/
theorem le16_encLe16 (a b : Bytes) (v : U16) : le16 (a ++ (encLe16 v ++ b)) a.length = v := by
  rw [le16, byteAt_append_add, byteAt_append_length]
  exact bytes16_append v

/-- The slice of an appended sequence that is its middle part. -/
theorem slice_append_mid (a m b : Bytes) : slice (a ++ (m ++ b)) a.length m.length = m := by
  simp [slice]

/-- A slice within bounds has the length asked for. -/
theorem length_slice {s : Bytes} {o n : Nat} (h : o + n ≤ s.length) : (slice s o n).length = n := by
  simp [slice]; omega

@[simp] theorem length_fitTo (n : Nat) (a : Bytes) : (fitTo n a).length = n := by
  simp [fitTo]; omega

/-- R182: a byte array of the right length is written as it is. -/
theorem fitTo_of_length {n : Nat} {a : Bytes} (h : a.length = n) : fitTo n a = a := by
  subst h; simp [fitTo, zeros]

/-- A payload write within bounds keeps the length. -/
theorem length_memWrite {p bs : Bytes} {o : Nat} (h : o + bs.length ≤ p.length) : (memWrite p o bs).length = p.length := by
  simp [memWrite]; omega

/-- A payload read at the place just written gives what was written. -/
theorem slice_memWrite_same {p bs : Bytes} {o : Nat} (h : o + bs.length ≤ p.length) :
    slice (memWrite p o bs) o bs.length = bs := by
  have ho : (p.take o).length = o := by simp; omega
  have := slice_append_mid (p.take o) bs (p.drop (o + bs.length))
  rw [ho] at this
  simpa [memWrite] using this

/-- A payload write leaves every byte outside it alone. -/
theorem byteAt_memWrite_other {p bs : Bytes} {o k : Nat} (h : o + bs.length ≤ p.length)
    (hk : k < o ∨ o + bs.length ≤ k) : byteAt (memWrite p o bs) k = byteAt p k := by
  have ho : (p.take o).length = o := by simp; omega
  rcases hk with hk | hk
  · rw [memWrite, List.append_assoc, byteAt_append_left (by omega)]
    simp [byteAt, List.getD, hk]
  · rw [memWrite, byteAt_append_right (by simp; omega)]
    simp only [byteAt, List.getD, List.getElem?_drop]
    congr 2
    simp; omega

end Sys2Proof.Machine
end

