-- ==== Sys2Proof/Laws/Cipher.lean ====
section
/-!
SUPPORT. The length law of the obfuscator (spec/40_cipher.md rule R115).
-/

namespace Sys2Proof.Machine

@[simp] theorem length_xorFrom (k : Bytes) (i : Nat) (d : Bytes) : (xorFrom k i d).length = d.length := by
  induction d generalizing i with
  | nil => rfl
  | cons x xs ih => simp [xorFrom, ih]

@[simp] theorem length_xorKey (d k : Bytes) : (xorKey d k).length = d.length := length_xorFrom k 0 d

/-- Obfuscation never changes the length (R115). -/
@[simp] theorem length_transform (c : Cfg) (pid : U16) (fc : Byte) (dir : Dir) (p : Bytes) :
    (transform c pid fc dir p).length = p.length := by
  unfold transform; split <;> simp

end Sys2Proof.Machine
end

