-- ==== Sys2Proof/Laws/Codec.lean ====
section
/-!
SUPPORT. Each reader of Decode.lean reads back what its writer wrote, whatever follows (the model's script format,
assumption 1).
-/

namespace Sys2Proof

open Machine

theorem readBytes_writeBytes (a r : Bytes) : readBytes (writeBytes a ++ r) = some (a, r) := by
  induction a with
  | nil => rw [readBytes.eq_def]; rfl
  | cons b bs ih => simp [writeBytes, readBytes, ih]

theorem natOfDigits_digitsOf (fuel n : Nat) (h : n ≤ fuel) : natOfDigits (digitsOf fuel n) = n := by
  induction fuel generalizing n with
  | zero => simp [digitsOf, natOfDigits]; omega
  | succ k ih =>
    rw [digitsOf]
    split
    · simp [natOfDigits]; omega
    · rw [natOfDigits, ih _ (by omega)]; simp; omega

theorem readNat_writeNat (n : Nat) (r : Bytes) : readNat (writeNat n ++ r) = some (n, r) := by
  simp [readNat, writeNat, readBytes_writeBytes, natOfDigits_digitsOf]

theorem readChk_writeChk (c : ChkSel) (r : Bytes) : readChk (writeChk c ++ r) = some (c, r) := by
  induction c with
  | crc16Modbus => simp [writeChk, readChk]
  | sum16 => simp [writeChk, readChk]
  | swapped c ih => simp [writeChk, readChk, ih]
  | free n => simp [writeChk, readChk, readNat_writeNat]

theorem dirOfByte_byteOfDir (d : Dir) : dirOfByte (byteOfDir d) = some d := by cases d <;> rfl

theorem kindOfByte_byteOfKind (k : Kind) : kindOfByte (byteOfKind k) = some k := by cases k <;> rfl

theorem flagOfByte_byteOfFlag (b : Bool) : flagOfByte (byteOfFlag b) = some b := by cases b <;> rfl

theorem dirPartOfByte_byteOfDirPart (d : Option Dir) : dirPartOfByte (byteOfDirPart d) = some d := by
  rcases d with _ | _ | _ <;> rfl

theorem readRules_writeRules (rules : ObfSel) (r : Bytes) : readRules (writeRules rules ++ r) = some (rules, r) := by
  induction rules with
  | nil => rw [readRules.eq_def]; rfl
  | cons a as ih =>
    obtain ⟨p, f, d, o⟩ := a
    have hrule : ruleOfBytes (byteOfFlag p.isSome) ((p.getD 0).extractLsb' 8 8) ((p.getD 0).extractLsb' 0 8)
        (byteOfFlag f.isSome) (f.getD 0) (byteOfDirPart d) (byteOfFlag o) = some ⟨p, f, d, o⟩ := by
      simp only [ruleOfBytes, flagOfByte_byteOfFlag, dirPartOfByte_byteOfDirPart, bytes16_append]
      cases p <;> cases f <;> simp
    simp only [writeRules, writeRule, encBe16, List.cons_append, List.nil_append, readRules]
    rw [hrule, ih]
    rfl

/-- A configuration over the one layout is read back (R8, R23). -/
theorem readCfg_writeCfg {c : Cfg} (h : c.wellFormed = true) (r : Bytes) : readCfg (writeCfg c ++ r) = some (c, r) := by
  simp only [Cfg.wellFormed, decide_eq_true_eq] at h
  simp only [writeCfg, List.append_assoc, List.cons_append, List.nil_append, readCfg]
  simp [readBytes_writeBytes, readNat_writeNat, readChk_writeChk, readRules_writeRules, dirOfByte_byteOfDir, ← h]

theorem readHead_writeHead (h : TxHead) (r : Bytes) : readHead (writeHead h ++ r) = some (h, r) := by
  simp [writeHead, encBe16, readHead]

theorem readFrame_writeFrame {f : RxFrame} (h : payloadFits f.payload = true) (r : Bytes) :
    readFrame (writeFrame f ++ r) = some (f, r) := by
  simp [writeFrame, readFrame, readHead_writeHead, readBytes_writeBytes, encBe16, h]

theorem readPayload_writeBytes {p : Bytes} (h : payloadFits p = true) (r : Bytes) :
    readPayload (writeBytes p ++ r) = some (p, r) := by
  simp [readPayload, readBytes_writeBytes, h]

theorem readValue_writeValue {t : FieldType} {v : FieldVal} (h : valueFits t v = true) (r : Bytes) :
    readValue t (writeValue v ++ r) = some (v, r) := by
  cases t <;> cases v <;> simp only [valueFits, Bool.false_eq_true] at h
  · rfl
  · simp [writeValue, readValue, encBe16]
  · rename_i v
    exact congrArg (fun x => some (FieldVal.u32 x, r)) (bytes32_append v)
  · simp [writeValue, readValue, readBytes_writeBytes]
  · simp [writeValue, readValue, readBytes_writeBytes]

/-- The values of a command's fields are read back (R96). -/
theorem readValues_writeValues {fs : List FieldSpec} {vals : Fields} (h : fieldsFit fs vals = true) (r : Bytes) :
    readValues fs (writeValues vals ++ r) = some (vals, r) := by
  induction fs generalizing vals with
  | nil => cases vals <;> first | rfl | simp [fieldsFit] at h
  | cons f fs ih =>
    obtain - | ⟨⟨m, v⟩, rest⟩ := vals
    · simp [fieldsFit] at h
    · simp only [fieldsFit, Bool.and_eq_true, beq_iff_eq] at h
      simp [writeValues, readValues, readValue_writeValue h.1.2, ih h.2, h.1.1]

/-- A receive row's frame is read back. -/
theorem readReceive_writeFrame (v : Variant) {f : RxFrame} (h : payloadFits f.payload = true) (r : Bytes) :
    readReceive v (writeFrame f ++ r) = some (Instr.ofReceive v f, r) := by
  simp [readReceive, readFrame_writeFrame h]

/-- A transmit row's command is read back. -/
theorem readTransmit_writeValues {v : Variant} (h : TxHead) {fields : Fields} (hf : commandFits v fields = true) (r : Bytes) :
    readTransmit v (writeHead h ++ writeValues fields ++ r) = some (Instr.ofTransmit v h fields, r) := by
  simp [readTransmit, readHead_writeHead, readFields, readValues_writeValues hf]

end Sys2Proof
end

