-- ==== Sys2Proof/Laws/Layout.lean ====
section
/-!
SUPPORT. The values the spec states for the constants that Machine/Layout.lean derives (spec/30_encoding.md rules R71
and R72), and the function codes R77 gives.
-/

namespace Sys2Proof.Machine

theorem mbapLen_eq : mbapLen = 7 := rfl

theorem frameRest_eq : frameRest = 10 := rfl

theorem frameOverhead_eq : frameOverhead = 8 := rfl

theorem maxPayload_eq : maxPayload = 65533 := rfl

theorem maxFrame_eq : maxFrame = 65543 := rfl

/-- The six kinds are all in the list. -/
theorem mem_allKinds (k : Kind) : k ∈ allKinds := by cases k <;> decide

/-- Each kind is the one its function code selects: no two kinds share a code (R77). -/
theorem kindOf_kindCode (k : Kind) : kindOf (kindCode k) = some k := by cases k <;> decide

/-- A function code selects a kind only if it is that kind's code (R77). -/
theorem kindCode_of_kindOf {fc : Byte} {k : Kind} (h : kindOf fc = some k) : kindCode k = fc := by
  simpa using List.find?_some h

/-- A function code selects no kind exactly if it is none of the six (R77, R97(a)). -/
theorem kindOf_eq_none {fc : Byte} : kindOf fc = none ↔ ∀ k, kindCode k ≠ fc := by
  simp [kindOf, mem_allKinds]

/-- `OBF_DEFAULT` written out (R113). -/
theorem obfDefault_eq : obfDefault = [
    ⟨none, some 0x03, none, true⟩, ⟨none, some 0x04, none, true⟩, ⟨none, some 0x16, none, true⟩,
    ⟨none, some 0x18, none, true⟩, ⟨none, some 0x19, none, true⟩, ⟨none, some 0x50, none, true⟩] := rfl

end Sys2Proof.Machine
end

