-- ==== Sys2Proof/Laws/State.lean ====
section
/-!
SUPPORT. One lemma per field per named update of the state (Machine/Ops.lean), each true by rfl, so that no later proof
unfolds a record update.
-/

namespace Sys2Proof.Machine

section
variable (s : State) (e : Event)

@[simp] theorem emit_launched : (emit e s).launched = s.launched := rfl
@[simp] theorem emit_cfg : (emit e s).cfg = s.cfg := rfl
@[simp] theorem emit_rxBuf : (emit e s).rxBuf = s.rxBuf := rfl
@[simp] theorem emit_rxPhase : (emit e s).rxPhase = s.rxPhase := rfl
@[simp] theorem emit_hdr : (emit e s).hdr = s.hdr := rfl
@[simp] theorem emit_rxNeed : (emit e s).rxNeed = s.rxNeed := rfl
@[simp] theorem emit_rxOut : (emit e s).rxOut = s.rxOut := rfl
@[simp] theorem emit_txQ : (emit e s).txQ = s.txQ := rfl
@[simp] theorem emit_ev : (emit e s).ev = s.ev ++ [e] := rfl
@[simp] theorem emit_results : (emit e s).results = s.results := rfl
@[simp] theorem emit_taken : (emit e s).taken = s.taken := rfl
@[simp] theorem emit_script : (emit e s).script = s.script := rfl

end

section
variable (s : State) (e : Option Event)

@[simp] theorem emitOpt_launched : (emitOpt e s).launched = s.launched := rfl
@[simp] theorem emitOpt_cfg : (emitOpt e s).cfg = s.cfg := rfl
@[simp] theorem emitOpt_rxBuf : (emitOpt e s).rxBuf = s.rxBuf := rfl
@[simp] theorem emitOpt_rxPhase : (emitOpt e s).rxPhase = s.rxPhase := rfl
@[simp] theorem emitOpt_hdr : (emitOpt e s).hdr = s.hdr := rfl
@[simp] theorem emitOpt_rxNeed : (emitOpt e s).rxNeed = s.rxNeed := rfl
@[simp] theorem emitOpt_rxOut : (emitOpt e s).rxOut = s.rxOut := rfl
@[simp] theorem emitOpt_txQ : (emitOpt e s).txQ = s.txQ := rfl
@[simp] theorem emitOpt_ev : (emitOpt e s).ev = s.ev ++ e.toList := rfl
@[simp] theorem emitOpt_results : (emitOpt e s).results = s.results := rfl
@[simp] theorem emitOpt_taken : (emitOpt e s).taken = s.taken := rfl
@[simp] theorem emitOpt_script : (emitOpt e s).script = s.script := rfl

end

section
variable (s : State) (b : Byte)

@[simp] theorem appendByte_launched : (appendByte b s).launched = s.launched := rfl
@[simp] theorem appendByte_cfg : (appendByte b s).cfg = s.cfg := rfl
@[simp] theorem appendByte_rxBuf : (appendByte b s).rxBuf = s.rxBuf ++ [b] := rfl
@[simp] theorem appendByte_rxPhase : (appendByte b s).rxPhase = s.rxPhase := rfl
@[simp] theorem appendByte_hdr : (appendByte b s).hdr = s.hdr := rfl
@[simp] theorem appendByte_rxNeed : (appendByte b s).rxNeed = s.rxNeed := rfl
@[simp] theorem appendByte_rxOut : (appendByte b s).rxOut = s.rxOut := rfl
@[simp] theorem appendByte_txQ : (appendByte b s).txQ = s.txQ := rfl
@[simp] theorem appendByte_ev : (appendByte b s).ev = s.ev := rfl
@[simp] theorem appendByte_results : (appendByte b s).results = s.results := rfl
@[simp] theorem appendByte_taken : (appendByte b s).taken = s.taken := rfl
@[simp] theorem appendByte_script : (appendByte b s).script = s.script := rfl

end

section
variable (s : State) (n : Nat)

@[simp] theorem dropFront_launched : (dropFront n s).launched = s.launched := rfl
@[simp] theorem dropFront_cfg : (dropFront n s).cfg = s.cfg := rfl
@[simp] theorem dropFront_rxBuf : (dropFront n s).rxBuf = s.rxBuf.drop n := rfl
@[simp] theorem dropFront_rxPhase : (dropFront n s).rxPhase = s.rxPhase := rfl
@[simp] theorem dropFront_hdr : (dropFront n s).hdr = s.hdr := rfl
@[simp] theorem dropFront_rxNeed : (dropFront n s).rxNeed = s.rxNeed := rfl
@[simp] theorem dropFront_rxOut : (dropFront n s).rxOut = s.rxOut := rfl
@[simp] theorem dropFront_txQ : (dropFront n s).txQ = s.txQ := rfl
@[simp] theorem dropFront_ev : (dropFront n s).ev = s.ev := rfl
@[simp] theorem dropFront_results : (dropFront n s).results = s.results := rfl
@[simp] theorem dropFront_taken : (dropFront n s).taken = s.taken := rfl
@[simp] theorem dropFront_script : (dropFront n s).script = s.script := rfl

end

section
variable (s : State) (p : RxPhase)

@[simp] theorem setPhase_launched : (setPhase p s).launched = s.launched := rfl
@[simp] theorem setPhase_cfg : (setPhase p s).cfg = s.cfg := rfl
@[simp] theorem setPhase_rxBuf : (setPhase p s).rxBuf = s.rxBuf := rfl
@[simp] theorem setPhase_rxPhase : (setPhase p s).rxPhase = p := rfl
@[simp] theorem setPhase_hdr : (setPhase p s).hdr = s.hdr := rfl
@[simp] theorem setPhase_rxNeed : (setPhase p s).rxNeed = s.rxNeed := rfl
@[simp] theorem setPhase_rxOut : (setPhase p s).rxOut = s.rxOut := rfl
@[simp] theorem setPhase_txQ : (setPhase p s).txQ = s.txQ := rfl
@[simp] theorem setPhase_ev : (setPhase p s).ev = s.ev := rfl
@[simp] theorem setPhase_results : (setPhase p s).results = s.results := rfl
@[simp] theorem setPhase_taken : (setPhase p s).taken = s.taken := rfl
@[simp] theorem setPhase_script : (setPhase p s).script = s.script := rfl

end

section
variable (s : State) (h : Hdr)

@[simp] theorem latch_launched : (latch h s).launched = s.launched := rfl
@[simp] theorem latch_cfg : (latch h s).cfg = s.cfg := rfl
@[simp] theorem latch_rxBuf : (latch h s).rxBuf = s.rxBuf := rfl
@[simp] theorem latch_rxPhase : (latch h s).rxPhase = .waitBody := rfl
@[simp] theorem latch_hdr : (latch h s).hdr = h := rfl
@[simp] theorem latch_rxNeed : (latch h s).rxNeed = h.len.toNat + frameOverhead := rfl
@[simp] theorem latch_rxOut : (latch h s).rxOut = s.rxOut := rfl
@[simp] theorem latch_txQ : (latch h s).txQ = s.txQ := rfl
@[simp] theorem latch_ev : (latch h s).ev = s.ev := rfl
@[simp] theorem latch_results : (latch h s).results = s.results := rfl
@[simp] theorem latch_taken : (latch h s).taken = s.taken := rfl
@[simp] theorem latch_script : (latch h s).script = s.script := rfl

end

section
variable (s : State) (r : Result)

@[simp] theorem deliver_launched : (deliver r s).launched = s.launched := rfl
@[simp] theorem deliver_cfg : (deliver r s).cfg = s.cfg := rfl
@[simp] theorem deliver_rxBuf : (deliver r s).rxBuf = s.rxBuf := rfl
@[simp] theorem deliver_rxPhase : (deliver r s).rxPhase = .frameReady := rfl
@[simp] theorem deliver_hdr : (deliver r s).hdr = s.hdr := rfl
@[simp] theorem deliver_rxNeed : (deliver r s).rxNeed = s.rxNeed := rfl
@[simp] theorem deliver_rxOut : (deliver r s).rxOut = some r := rfl
@[simp] theorem deliver_txQ : (deliver r s).txQ = s.txQ := rfl
@[simp] theorem deliver_ev : (deliver r s).ev = s.ev := rfl
@[simp] theorem deliver_results : (deliver r s).results = s.results := rfl
@[simp] theorem deliver_taken : (deliver r s).taken = s.taken := rfl
@[simp] theorem deliver_script : (deliver r s).script = s.script := rfl

end

section
variable (s : State)

@[simp] theorem release_launched : (release s).launched = s.launched := rfl
@[simp] theorem release_cfg : (release s).cfg = s.cfg := rfl
@[simp] theorem release_rxBuf : (release s).rxBuf = s.rxBuf := rfl
@[simp] theorem release_rxPhase : (release s).rxPhase = .waitHdr := rfl
@[simp] theorem release_hdr : (release s).hdr = s.hdr := rfl
@[simp] theorem release_rxNeed : (release s).rxNeed = s.rxNeed := rfl
@[simp] theorem release_rxOut : (release s).rxOut = none := rfl
@[simp] theorem release_txQ : (release s).txQ = s.txQ := rfl
@[simp] theorem release_ev : (release s).ev = s.ev := rfl
@[simp] theorem release_results : (release s).results = s.results ++ s.rxOut.toList := rfl
@[simp] theorem release_taken : (release s).taken = s.taken := rfl
@[simp] theorem release_script : (release s).script = s.script := rfl

end

section
variable (s : State) (f : Bytes)

@[simp] theorem enqueue_launched : (enqueue f s).launched = s.launched := rfl
@[simp] theorem enqueue_cfg : (enqueue f s).cfg = s.cfg := rfl
@[simp] theorem enqueue_rxBuf : (enqueue f s).rxBuf = s.rxBuf := rfl
@[simp] theorem enqueue_rxPhase : (enqueue f s).rxPhase = s.rxPhase := rfl
@[simp] theorem enqueue_hdr : (enqueue f s).hdr = s.hdr := rfl
@[simp] theorem enqueue_rxNeed : (enqueue f s).rxNeed = s.rxNeed := rfl
@[simp] theorem enqueue_rxOut : (enqueue f s).rxOut = s.rxOut := rfl
@[simp] theorem enqueue_txQ : (enqueue f s).txQ = f := rfl
@[simp] theorem enqueue_ev : (enqueue f s).ev = s.ev := rfl
@[simp] theorem enqueue_results : (enqueue f s).results = s.results := rfl
@[simp] theorem enqueue_taken : (enqueue f s).taken = s.taken := rfl
@[simp] theorem enqueue_script : (enqueue f s).script = s.script := rfl

end

section
variable (s : State) (b : Byte) (rest : Bytes)

@[simp] theorem takeByte_launched : (takeByte b rest s).launched = s.launched := rfl
@[simp] theorem takeByte_cfg : (takeByte b rest s).cfg = s.cfg := rfl
@[simp] theorem takeByte_rxBuf : (takeByte b rest s).rxBuf = s.rxBuf := rfl
@[simp] theorem takeByte_rxPhase : (takeByte b rest s).rxPhase = s.rxPhase := rfl
@[simp] theorem takeByte_hdr : (takeByte b rest s).hdr = s.hdr := rfl
@[simp] theorem takeByte_rxNeed : (takeByte b rest s).rxNeed = s.rxNeed := rfl
@[simp] theorem takeByte_rxOut : (takeByte b rest s).rxOut = s.rxOut := rfl
@[simp] theorem takeByte_txQ : (takeByte b rest s).txQ = rest := rfl
@[simp] theorem takeByte_ev : (takeByte b rest s).ev = s.ev := rfl
@[simp] theorem takeByte_results : (takeByte b rest s).results = s.results := rfl
@[simp] theorem takeByte_taken : (takeByte b rest s).taken = s.taken ++ [b] := rfl
@[simp] theorem takeByte_script : (takeByte b rest s).script = s.script := rfl

end

section
variable (s : State) (c : Cfg)

@[simp] theorem resetTo_launched : (resetTo c s).launched = true := rfl
@[simp] theorem resetTo_cfg : (resetTo c s).cfg = c := rfl
@[simp] theorem resetTo_rxBuf : (resetTo c s).rxBuf = [] := rfl
@[simp] theorem resetTo_rxPhase : (resetTo c s).rxPhase = .waitHdr := rfl
@[simp] theorem resetTo_hdr : (resetTo c s).hdr = ⟨0, 0, 0, 0⟩ := rfl
@[simp] theorem resetTo_rxNeed : (resetTo c s).rxNeed = 0 := rfl
@[simp] theorem resetTo_rxOut : (resetTo c s).rxOut = none := rfl
@[simp] theorem resetTo_txQ : (resetTo c s).txQ = [] := rfl
@[simp] theorem resetTo_ev : (resetTo c s).ev = s.ev := rfl
@[simp] theorem resetTo_results : (resetTo c s).results = s.results := rfl
@[simp] theorem resetTo_taken : (resetTo c s).taken = s.taken := rfl
@[simp] theorem resetTo_script : (resetTo c s).script = s.script := rfl

end

end Sys2Proof.Machine
end

