-- ==== Sys2Proof/Laws/Settle.lean ====
section
/-!
SUPPORT. What settle does (spec/41_frame.md rule R126), said once: one round's cases, that the loop ends at a fixpoint,
an induction principle over its rounds, and what no round changes.
-/

namespace Sys2Proof.Machine

/-- The offsets of the header's parts (R71). -/
theorem headerOf_eq (s : Bytes) : headerOf s = ⟨be16 s 0, be16 s 2, be16 s 4, byteAt s 6⟩ := rfl

/-- The offset of the function code (R70). -/
theorem frameFc_eq (f : Bytes) : frameFc f = byteAt f 7 := rfl

/-- A round, with everything it can do. -/
theorem settleStep_cases {s t : State} (h : settleStep s = some t) :
    (s.rxPhase = .waitHdr ∧ mbapLen ≤ s.rxBuf.length ∧ (headerOf s.rxBuf).len.toNat < lenBias ∧
      t = dropFront mbapLen (emit (degenerateEvent (headerOf s.rxBuf)) s)) ∨
    (s.rxPhase = .waitHdr ∧ mbapLen ≤ s.rxBuf.length ∧ lenBias ≤ (headerOf s.rxBuf).len.toNat ∧
      t = latch (headerOf s.rxBuf) s) ∨
    (s.rxPhase = .waitBody ∧ s.rxNeed ≤ s.rxBuf.length ∧ chkOk s.cfg (candidate s) = true ∧
      t = deliver (demux s.cfg s.hdr (candidate s)).1 (emitOpt (demux s.cfg s.hdr (candidate s)).2 s)) ∨
    (s.rxPhase = .waitBody ∧ s.rxNeed ≤ s.rxBuf.length ∧ chkOk s.cfg (candidate s) = false ∧
      t = setPhase .waitHdr (dropFront s.rxNeed (emit (chkFailEvent s.cfg s.hdr (candidate s)) s))) := by
  unfold settleStep at h
  split at h
  · rename_i hp
    split at h
    · simp at h
    · rename_i hl
      cases h
      unfold parseHeader
      split
      · exact .inl ⟨hp, by omega, ‹_›, rfl⟩
      · exact .inr (.inl ⟨hp, by omega, by omega, rfl⟩)
  · rename_i hp
    split at h
    · simp at h
    · rename_i hl
      cases h
      unfold completeCandidate
      split
      · exact .inr (.inr (.inl ⟨hp, by omega, ‹_›, rfl⟩))
      · exact .inr (.inr (.inr ⟨hp, by omega, Bool.eq_false_iff.mpr ‹_›, rfl⟩))
  · simp at h

/-- The rounds left: a header parse and a removal each lowers it. -/
def roundsLeft (s : State) : Nat :=
  match s.rxPhase with
  | .waitHdr => 2 * s.rxBuf.length + 1
  | .waitBody => 2 * s.rxBuf.length + (if s.rxNeed = 0 then 2 else 0)
  | .frameReady => 0

theorem roundsLeft_lt {s t : State} (h : settleStep s = some t) : roundsLeft t < roundsLeft s := by
  rcases settleStep_cases h with ⟨hp, hl, -, rfl⟩ | ⟨hp, hl, hb, rfl⟩ | ⟨hp, hl, -, rfl⟩ | ⟨hp, hl, -, rfl⟩
  · simp [roundsLeft, hp, mbapLen_eq] at *; omega
  · simp [roundsLeft, hp, frameOverhead_eq]
  · simp [roundsLeft, hp]; split <;> omega
  · simp [roundsLeft, hp]; split <;> omega

theorem settleStep_settleLoop (n : Nat) (s : State) (h : roundsLeft s < n) : settleStep (settleLoop n s) = none := by
  induction n generalizing s with
  | zero => omega
  | succ n ih =>
    rw [settleLoop]
    cases hs : settleStep s with
    | none => exact hs
    | some t => exact ih t (by have := roundsLeft_lt hs; omega)

/-- R126: settle ends where no round changes the state. -/
theorem settleStep_settle (s : State) : settleStep (settle s) = none := by
  apply settleStep_settleLoop
  unfold roundsLeft
  split <;> (try split) <;> omega

/-- Rounds beyond the last change nothing. -/
theorem settleLoop_of_none {s : State} (h : settleStep s = none) (n : Nat) : settleLoop n s = s := by
  cases n with
  | zero => rfl
  | succ n => rw [settleLoop, h]

/-- Enough rounds are as good as any. -/
theorem settleLoop_eq {n m : Nat} {s : State} (hn : roundsLeft s < n) (hm : roundsLeft s < m) :
    settleLoop n s = settleLoop m s := by
  induction n generalizing m s with
  | zero => omega
  | succ n ih =>
    obtain ⟨m, rfl⟩ : ∃ k, m = k + 1 := ⟨m - 1, by omega⟩
    rw [settleLoop, settleLoop]
    cases hs : settleStep s with
    | none => rfl
    | some t => have := roundsLeft_lt hs; exact ih (by omega) (by omega)

theorem roundsLeft_lt_fuel (s : State) : roundsLeft s < 2 * s.rxBuf.length + 3 := by
  unfold roundsLeft
  split <;> (try split) <;> omega

/-- Settling where no round applies changes nothing (R122, R127). -/
theorem settle_of_none {s : State} (h : settleStep s = none) : settle s = s := settleLoop_of_none h _

/-- Settling is one round, then settling (R126). -/
theorem settle_of_some {s t : State} (h : settleStep s = some t) : settle s = settle t := by
  rw [settle, settleLoop, h]
  have h1 := roundsLeft_lt h
  have h2 := roundsLeft_lt_fuel s
  exact settleLoop_eq (by omega) (roundsLeft_lt_fuel t)

/-- What every round keeps, settle keeps. -/
theorem settle_induction (p : State → Prop) (hstep : ∀ s t, settleStep s = some t → p s → p t) (s : State) (h : p s) :
    p (settle s) := by
  suffices ∀ n s, p s → p (settleLoop n s) from this _ s h
  intro n
  induction n with
  | zero => exact fun _ h => h
  | succ n ih =>
    intro s h
    rw [settleLoop]
    cases hs : settleStep s with
    | none => exact h
    | some t => exact ih t (hstep s t hs h)

/-- In FRAME_READY nothing is parsed (R127). -/
theorem settle_frameReady {s : State} (h : s.rxPhase = .frameReady) : settle s = s :=
  settle_of_none (by simp [settleStep, h])

/-- A partial header waits (R122). -/
theorem settle_waitHdr {s : State} (h : s.rxPhase = .waitHdr) (hl : s.rxBuf.length < mbapLen) : settle s = s :=
  settle_of_none (by simp [settleStep, h, hl])

/-- A partial candidate waits (R122). -/
theorem settle_waitBody {s : State} (h : s.rxPhase = .waitBody) (hl : s.rxBuf.length < s.rxNeed) : settle s = s :=
  settle_of_none (by simp [settleStep, h, hl])

/-- What settle never writes: everything but the receive buffer, phase, latches, result and trace. -/
theorem settle_frame (s : State) :
    (settle s).launched = s.launched ∧ (settle s).cfg = s.cfg ∧ (settle s).txQ = s.txQ ∧
      (settle s).results = s.results ∧ (settle s).taken = s.taken ∧ (settle s).script = s.script := by
  refine settle_induction (fun t => t.launched = s.launched ∧ t.cfg = s.cfg ∧ t.txQ = s.txQ ∧ t.results = s.results ∧
    t.taken = s.taken ∧ t.script = s.script) ?_ s ⟨rfl, rfl, rfl, rfl, rfl, rfl⟩
  intro a b hab ha
  rcases settleStep_cases hab with ⟨-, -, -, rfl⟩ | ⟨-, -, -, rfl⟩ | ⟨-, -, -, rfl⟩ | ⟨-, -, -, rfl⟩ <;> simpa using ha

@[simp] theorem settle_launched (s : State) : (settle s).launched = s.launched := (settle_frame s).1
@[simp] theorem settle_cfg (s : State) : (settle s).cfg = s.cfg := (settle_frame s).2.1
@[simp] theorem settle_txQ (s : State) : (settle s).txQ = s.txQ := (settle_frame s).2.2.1
@[simp] theorem settle_results (s : State) : (settle s).results = s.results := (settle_frame s).2.2.2.1
@[simp] theorem settle_taken (s : State) : (settle s).taken = s.taken := (settle_frame s).2.2.2.2.1
@[simp] theorem settle_script (s : State) : (settle s).script = s.script := (settle_frame s).2.2.2.2.2

/-- Settle only appends to the trace (R210). -/
theorem settle_ev_prefix (s : State) : s.ev <+: (settle s).ev := by
  refine settle_induction (fun t => s.ev <+: t.ev) ?_ s (List.prefix_refl _)
  intro a b hab ha
  rcases settleStep_cases hab with ⟨-, -, -, rfl⟩ | ⟨-, -, -, rfl⟩ | ⟨-, -, -, rfl⟩ | ⟨-, -, -, rfl⟩ <;> simp
  · exact ha.trans (List.prefix_append _ _)
  · exact ha
  · exact ha.trans (List.prefix_append _ _)
  · exact ha.trans (List.prefix_append _ _)

end Sys2Proof.Machine
end

