-- ==== Sys2Proof/Laws/Frame.lean ====
section
/-!
SUPPORT. What a frame's bytes are (spec/30_encoding.md rule R70, spec/41_frame.md rule R132) and what their arrival on
an idle receive path does (R120 to R124): every byte but the last waits, and the last completes the candidate.
-/

namespace Sys2Proof.Machine

/-! ## The bytes of a frame -/

theorem length_frameHead (tid pid : U16) (uid fc : Byte) (w : Bytes) :
    (frameHead tid pid uid fc w).length = w.length + 8 := by
  simp [frameHead]; omega

theorem length_frameBuild (c : Cfg) (tid pid : U16) (uid fc : Byte) (w : Bytes) :
    (frameBuild c tid pid uid fc w).length = w.length + 10 := by
  simp [frameBuild, length_frameHead]

theorem length_frameBytes (fc : Byte) (f : RxFrame) : (frameBytes fc f).length = f.payload.length + 10 := by
  simp [frameBytes, length_frameHead]

/-- The length field of a frame that carries a payload (R72). -/
theorem frameHdr_len {tid pid : U16} {uid : Byte} {p : Nat} (h : p ≤ maxPayload) :
    (frameHdr tid pid uid p).len.toNat = p + lenBias := by
  simp only [frameHdr, BitVec.toNat_ofNat, maxPayload_eq, lenBias] at *
  omega

/-- The header at the front of a frame's bytes, whatever follows (R71). -/
theorem headerOf_frameHead (tid pid : U16) (uid fc : Byte) (w z : Bytes) :
    headerOf (frameHead tid pid uid fc w ++ z) = frameHdr tid pid uid w.length := by
  simp only [headerOf, frameHead, frameHdr, be16, byteAt, encBe16, tidOffset, pidOffset, lenOffset, uidOffset]
  simp

/-- The function code in a frame's bytes (R70). -/
theorem frameFc_frameHead (tid pid : U16) (uid fc : Byte) (w z : Bytes) :
    frameFc (frameHead tid pid uid fc w ++ z) = fc := by
  simp [frameFc, fcOffset, frameHead, byteAt, encBe16]

/-- The wire payload in a frame's bytes (R70). -/
theorem wirePayload_frameHead (tid pid : U16) (uid fc : Byte) (w : Bytes) (z : Bytes) (hz : z.length = 2) :
    wirePayload (frameHead tid pid uid fc w ++ z) = w := by
  have hl : (frameHead tid pid uid fc w ++ z).length = w.length + 10 := by simp [length_frameHead, hz]
  rw [wirePayload, hl]
  simp [slice, frameHead, encBe16, payloadOffset, frameRest_eq]

/-- The received checksum of a frame's bytes (R52(c), R129). -/
theorem chkRx_frameHead (tid pid : U16) (uid fc : Byte) (w : Bytes) (v : U16) :
    chkRx (frameHead tid pid uid fc w ++ encLe16 v) = v := by
  have h := le16_encLe16 (frameHead tid pid uid fc w) [] v
  rw [List.append_nil] at h
  rw [chkRx, List.length_append, length_encLe16]
  simpa [chkLen] using h

/-- The bytes the checksum of a frame covers (R74). -/
theorem chkCalc_frameHead (c : Cfg) (tid pid : U16) (uid fc : Byte) (w : Bytes) (v : U16) :
    chkCalc c (frameHead tid pid uid fc w ++ encLe16 v) = chkOf c.chk (frameHead tid pid uid fc w) := by
  rw [chkCalc, List.length_append, length_encLe16]
  simp [chkLen]

/-- A frame as the builder makes it passes its own checksum test (R129, R132). -/
theorem chkOk_frameBuild (c : Cfg) (tid pid : U16) (uid fc : Byte) (w : Bytes) :
    chkOk c (frameBuild c tid pid uid fc w) = true := by
  rw [chkOk, frameBuild, chkCalc_frameHead, chkRx_frameHead]; simp

/-! ## Bytes that wait -/

/-- More bytes in the receive buffer, and nothing else. -/
def appendBytes (bs : Bytes) (s : State) : State := { s with rxBuf := s.rxBuf ++ bs }

theorem appendBytes_nil (s : State) : appendBytes [] s = s := by simp [appendBytes]

theorem appendBytes_appendByte (b : Byte) (bs : Bytes) (s : State) :
    appendBytes bs (appendByte b s) = appendBytes (b :: bs) s := by
  simp [appendBytes, appendByte]

/-- An enabled RX_PUSH (R120). -/
theorem execRxPush_next {b : Byte} {s : State} (hl : s.launched = true) (hc : s.rxBuf.length < s.cfg.bufCap) :
    execRxPush b s = .next (settle (appendByte b s)) := by
  simp [execRxPush, afterLaunch, hl, rxInReady, hc]

theorem pushAll_append (a b : Bytes) (s : State) :
    pushAll (a ++ b) s = match pushAll a s with
      | .next t => pushAll b t
      | .fault e => .fault e
      | .refused r => .refused r := by
  induction a generalizing s with
  | nil => rfl
  | cons x a ih =>
    rw [List.cons_append, pushAll, pushAll]
    cases execRxPush x s with
    | next t => exact ih t
    | fault e => rfl
    | refused r => rfl

/-- Bytes of a partial header are only buffered (R122). -/
theorem pushAll_waitHdr (bs : Bytes) {s : State} (hl : s.launched = true) (hp : s.rxPhase = .waitHdr)
    (h7 : s.rxBuf.length + bs.length < mbapLen) (hc : s.rxBuf.length + bs.length ≤ s.cfg.bufCap) :
    pushAll bs s = .next (appendBytes bs s) := by
  induction bs generalizing s with
  | nil => rw [pushAll, appendBytes_nil]
  | cons b bs ih =>
    simp only [List.length_cons] at h7 hc
    rw [pushAll, execRxPush_next hl (by omega), settle_waitHdr (s := appendByte b s) (by simpa using hp) (by simp; omega)]
    simp only
    rw [ih (by simpa using hl) (by simpa using hp) (by simp; omega) (by simp; omega), appendBytes_appendByte]

/-- Bytes of a partial candidate are only buffered (R122). -/
theorem pushAll_waitBody (bs : Bytes) {s : State} (hl : s.launched = true) (hp : s.rxPhase = .waitBody)
    (hn : s.rxBuf.length + bs.length < s.rxNeed) (hc : s.rxBuf.length + bs.length ≤ s.cfg.bufCap) :
    pushAll bs s = .next (appendBytes bs s) := by
  induction bs generalizing s with
  | nil => rw [pushAll, appendBytes_nil]
  | cons b bs ih =>
    simp only [List.length_cons] at hn hc
    rw [pushAll, execRxPush_next hl (by omega), settle_waitBody (s := appendByte b s) (by simpa using hp) (by simp; omega)]
    simp only
    rw [ih (by simpa using hl) (by simpa using hp) (by simp; omega) (by simp; omega), appendBytes_appendByte]

/-! ## A frame arrives on an idle receive path -/

/-- The state in which `bs`, the first bytes of a frame of which 7 and more are there, is buffered and awaited. -/
def awaiting (h : Hdr) (bs : Bytes) (s : State) : State :=
  { s with rxBuf := bs, hdr := h, rxNeed := h.len.toNat + frameOverhead, rxPhase := .waitBody }

theorem awaiting_cfg (h : Hdr) (bs : Bytes) (s : State) : (awaiting h bs s).cfg = s.cfg := rfl

/-- The first 7 bytes of a stream latch its header (R123), if it is not degenerate. -/
theorem pushAll_header {s : State} (hs : rxIdle s) (x0 x1 x2 x3 x4 x5 x6 : Byte)
    (hb : lenBias ≤ (headerOf [x0, x1, x2, x3, x4, x5, x6]).len.toNat) :
    pushAll [x0, x1, x2, x3, x4, x5, x6] s =
      .next (awaiting (headerOf [x0, x1, x2, x3, x4, x5, x6]) [x0, x1, x2, x3, x4, x5, x6] s) := by
  obtain ⟨hl, hp, hbuf, hc⟩ := hs
  rw [maxFrame_eq] at hc
  rw [show [x0, x1, x2, x3, x4, x5, x6] = [x0, x1, x2, x3, x4, x5] ++ [x6] from rfl, pushAll_append,
    pushAll_waitHdr _ hl hp (by simp [hbuf, mbapLen_eq]) (by simp [hbuf]; omega)]
  simp only [pushAll]
  rw [execRxPush_next (by simpa [appendBytes] using hl) (by simp [appendBytes, hbuf]; omega)]
  simp only
  have hstep : settleStep (appendByte x6 (appendBytes [x0, x1, x2, x3, x4, x5] s)) =
      some (latch (headerOf [x0, x1, x2, x3, x4, x5, x6]) (appendByte x6 (appendBytes [x0, x1, x2, x3, x4, x5] s))) := by
    have hbuf' : (appendByte x6 (appendBytes [x0, x1, x2, x3, x4, x5] s)).rxBuf = [x0, x1, x2, x3, x4, x5, x6] := by
      simp [appendBytes, hbuf]
    have hp' : (appendByte x6 (appendBytes [x0, x1, x2, x3, x4, x5] s)).rxPhase = .waitHdr := hp
    simp only [settleStep, hp', parseHeader, hbuf']
    rw [if_neg (by simp [mbapLen_eq]), if_neg (by omega)]
  rw [settle_of_some hstep, settle_waitBody (by simp) (by simp [appendBytes, hbuf, frameOverhead_eq])]
  simp [awaiting, latch, appendByte, appendBytes, hbuf]

/-- Every proper prefix of a frame's bytes from the 7th on only waits (R122, R133). -/
theorem pushAll_frame_prefix {s : State} (hs : rxIdle s) (fc : Byte) (f : RxFrame) (hp : f.payload.length ≤ maxPayload)
    (k : Nat) (hk7 : mbapLen ≤ k) (hk : k < f.payload.length + 10) :
    pushAll ((frameBytes fc f).take k) s =
      .next (awaiting (frameHdr f.tid f.pid f.uid f.payload.length) ((frameBytes fc f).take k) s) := by
  have hlen := length_frameBytes fc f
  have hhd : headerOf ((frameBytes fc f).take 7) = frameHdr f.tid f.pid f.uid f.payload.length := by
    have := headerOf_frameHead f.tid f.pid f.uid fc f.payload (encLe16 f.chk)
    rw [← this]
    simp [headerOf, be16, byteAt, frameBytes, frameHead, encBe16, tidOffset, pidOffset, lenOffset, uidOffset]
  obtain ⟨x0, x1, x2, x3, x4, x5, x6, h7⟩ : ∃ x0 x1 x2 x3 x4 x5 x6,
      (frameBytes fc f).take 7 = [x0, x1, x2, x3, x4, x5, x6] := by
    simp [frameBytes, frameHead, encBe16]
  have hL : (frameHdr f.tid f.pid f.uid f.payload.length).len.toNat = f.payload.length + lenBias := frameHdr_len hp
  have hsplit : (frameBytes fc f).take k = (frameBytes fc f).take 7 ++ ((frameBytes fc f).drop 7).take (k - 7) := by
    rw [mbapLen_eq] at hk7
    rw [← List.take_add]; congr 1; omega
  have hcap := hs.2.2.2
  simp only [mbapLen_eq, maxFrame_eq, maxPayload_eq, lenBias] at *
  rw [hsplit, pushAll_append, h7, pushAll_header hs _ _ _ _ _ _ _ (by rw [← h7, hhd, hL]; simp [lenBias])]
  simp only
  rw [← h7, hhd]
  rw [pushAll_waitBody _ (by simpa [awaiting] using hs.1) rfl
    (by simp only [awaiting, hL, frameOverhead_eq, List.length_take, List.length_drop, hlen]; omega)
    (by simp only [awaiting, List.length_take, List.length_drop, hlen]; omega)]
  simp [appendBytes, awaiting]

/-- R120 to R124: all of a frame's bytes arrive on an idle path, and the last one completes the candidate. -/
theorem pushAll_frame {s : State} (hs : rxIdle s) (fc : Byte) (f : RxFrame) (hp : f.payload.length ≤ maxPayload) :
    pushAll (frameBytes fc f) s =
      .next (completeCandidate (awaiting (frameHdr f.tid f.pid f.uid f.payload.length) (frameBytes fc f) s)) := by
  have hlen := length_frameBytes fc f
  have hL : (frameHdr f.tid f.pid f.uid f.payload.length).len.toNat = f.payload.length + lenBias := frameHdr_len hp
  have hcap := hs.2.2.2
  obtain ⟨x, hx⟩ : ∃ x, (frameBytes fc f).drop (f.payload.length + 9) = [x] := by
    apply List.length_eq_one_iff.mp; simp [hlen]
  have hsplit : frameBytes fc f = (frameBytes fc f).take (f.payload.length + 9) ++ [x] := by
    rw [← hx, List.take_append_drop]
  simp only [maxFrame_eq, maxPayload_eq, lenBias] at *
  rw [hsplit, pushAll_append, ← hsplit,
    pushAll_frame_prefix hs fc f hp _ (by simp [mbapLen_eq]) (by omega)]
  simp only [pushAll]
  rw [execRxPush_next (by simpa [awaiting] using hs.1) (by simp [awaiting, hlen]; omega)]
  have happ : appendByte x (awaiting (frameHdr f.tid f.pid f.uid f.payload.length)
      ((frameBytes fc f).take (f.payload.length + 9)) s) =
      awaiting (frameHdr f.tid f.pid f.uid f.payload.length) (frameBytes fc f) s := by
    simp only [appendByte, awaiting]; rw [← hsplit]
  rw [happ]
  generalize hg : awaiting (frameHdr f.tid f.pid f.uid f.payload.length) (frameBytes fc f) s = g
  have hgb : g.rxBuf = frameBytes fc f := by rw [← hg]; rfl
  have hgn : g.rxNeed = f.payload.length + 10 := by rw [← hg]; simp [awaiting, hL, frameOverhead_eq]
  have hgp : g.rxPhase = .waitBody := by rw [← hg]; rfl
  have hstep : settleStep g = some (completeCandidate g) := by simp [settleStep, hgp, hgb, hlen, hgn]
  rw [settle_of_some hstep]
  simp only
  congr 1
  apply settle_of_none
  unfold completeCandidate
  split
  · simp [settleStep]
  · simp [settleStep, hgb, hgn, ← hlen, mbapLen_eq]

/-- The arrival of a frame on an idle path, said once (R123, R124): a checksum that matches gives the demultiplexer's
result, one that does not gives CHK_FAIL and an empty buffer. -/
theorem receiveFrame_idle {s : State} (hs : rxIdle s) (fc : Byte) (f : RxFrame) (hp : f.payload.length ≤ maxPayload) :
    receiveFrame fc f s =
      .next (completeCandidate (awaiting (frameHdr f.tid f.pid f.uid f.payload.length) (frameBytes fc f) s)) := by
  rw [receiveFrame, if_pos hp, pushAll_frame hs fc f hp]

/-- The candidate of an arrived frame is the frame. -/
theorem candidate_awaiting_frame (s : State) (fc : Byte) (f : RxFrame) (hp : f.payload.length ≤ maxPayload) :
    candidate (awaiting (frameHdr f.tid f.pid f.uid f.payload.length) (frameBytes fc f) s) = frameBytes fc f := by
  have hL : (frameHdr f.tid f.pid f.uid f.payload.length).len.toNat = f.payload.length + lenBias := frameHdr_len hp
  apply List.take_of_length_le
  simp [awaiting, length_frameBytes, hL, frameOverhead_eq, lenBias]

/-- The checksum test of an arrived frame (R129). -/
theorem chkOk_frameBytes (c : Cfg) (fc : Byte) (f : RxFrame) :
    chkOk c (frameBytes fc f) = true ↔ chkOf c.chk (frameHead f.tid f.pid f.uid fc f.payload) = f.chk := by
  rw [chkOk, frameBytes, chkCalc_frameHead, chkRx_frameHead]; simp

/-- A frame whose checksum matches arrives on an idle path: the demultiplexer's result is delivered (R124). -/
theorem pushAll_frame_verified {s : State} (hs : rxIdle s) {fc : Byte} {f : RxFrame} (hf : verifiedFrame s.cfg fc f) :
    pushAll (frameBytes fc f) s = .next (holding fc f (demux s.cfg (hdrOf f) (frameBytes fc f)).1
      (demux s.cfg (hdrOf f) (frameBytes fc f)).2.toList s) := by
  have hL := frameHdr_len (tid := f.tid) (pid := f.pid) (uid := f.uid) hf.1
  rw [pushAll_frame hs fc f hf.1]
  unfold completeCandidate
  rw [candidate_awaiting_frame s fc f hf.1, awaiting_cfg, if_pos ((chkOk_frameBytes s.cfg fc f).mpr hf.2)]
  simp [deliver, emitOpt, awaiting, holding, hdrOf, hL, frameOverhead_eq, frameRest_eq, lenBias]

/-- A frame whose checksum does not match arrives on an idle path: CHK_FAIL, and an empty buffer (R124). -/
theorem pushAll_frame_failed {s : State} (hs : rxIdle s) {fc : Byte} {f : RxFrame} (hp : f.payload.length ≤ maxPayload)
    (hf : chkOf s.cfg.chk (frameHead f.tid f.pid f.uid fc f.payload) ≠ f.chk) :
    pushAll (frameBytes fc f) s = .next
      { s with
        rxBuf := [], rxPhase := .waitHdr, hdr := hdrOf f, rxNeed := f.payload.length + 10,
        ev := s.ev ++ [.chkFail f.tid f.pid (hdrOf f).len f.uid f.chk
          (chkOf s.cfg.chk (frameHead f.tid f.pid f.uid fc f.payload))] } := by
  have hL := frameHdr_len (tid := f.tid) (pid := f.pid) (uid := f.uid) hp
  have hc : chkCalc s.cfg (frameBytes fc f) = _ := chkCalc_frameHead s.cfg f.tid f.pid f.uid fc f.payload f.chk
  have hr : chkRx (frameBytes fc f) = _ := chkRx_frameHead f.tid f.pid f.uid fc f.payload f.chk
  rw [pushAll_frame hs fc f hp]
  unfold completeCandidate
  rw [candidate_awaiting_frame s fc f hp, awaiting_cfg, if_neg (fun h => hf ((chkOk_frameBytes s.cfg fc f).mp h))]
  simp [setPhase, dropFront, emit, awaiting, chkFailEvent, hdrOf, hL, hc, hr, frameOverhead_eq, lenBias, length_frameBytes]
  exact ⟨rfl, rfl, rfl⟩

end Sys2Proof.Machine
end

