-- ==== Sys2Proof/Laws/Exec.lean ====
section
/-!
SUPPORT. What an instruction that answers a next state has done, said once for each shared operation and once for
`exec`: the claims about all instructions cite `exec_cases` instead of unfolding the machine.
-/

namespace Sys2Proof.Machine

theorem complete_iff {s : State} : complete s = true ↔ s.script = [] := by simp [complete]

/-- A complete run has no further step (R254). -/
theorem step_of_complete {s : State} (h : complete s = true) : step s = .refused .scriptExhausted := by
  simp [step, decode, complete_iff.mp h]


theorem afterLaunch_next {s t : State} {k : Out} : afterLaunch s k = .next t ↔ s.launched = true ∧ k = .next t := by
  unfold afterLaunch; split <;> simp_all

theorem afterLaunch_launched {s : State} {k : Out} (h : s.launched = true) : afterLaunch s k = k := by
  simp [afterLaunch, h]

/-- RX_PUSH (R120). -/
theorem execRxPush_cases {b : Byte} {s t : State} (h : execRxPush b s = .next t) :
    s.launched = true ∧ s.rxBuf.length < s.cfg.bufCap ∧ t = settle (appendByte b s) := by
  obtain ⟨hl, h⟩ := afterLaunch_next.mp h
  split at h
  · rename_i hr; cases h; exact ⟨hl, by simpa [rxInReady] using hr, rfl⟩
  · cases h

/-- RX_POP (R128). -/
theorem execRxPop_cases {s t : State} (h : execRxPop s = .next t) :
    s.launched = true ∧ s.rxPhase = .frameReady ∧ t = settle (release (dropFront s.rxNeed s)) := by
  obtain ⟨hl, h⟩ := afterLaunch_next.mp h
  split at h
  · rename_i hr; cases h; exact ⟨hl, by simpa [rxOutValid] using hr, rfl⟩
  · cases h

/-- TX_ENC and the ENC rows (R190). -/
theorem transmitVariant_cases {v : Variant} {h : TxHead} {fields : Fields} {s t : State}
    (hx : transmitVariant v h fields s = .next t) :
    s.launched = true ∧ s.txQ = [] ∧ fieldsFit (commandFields s.cfg.layout v) fields = true ∧
      t = sendEncoded v h (encodePayload s.cfg v fields) s := by
  obtain ⟨hl, hx⟩ := afterLaunch_next.mp hx
  split at hx
  · rename_i hq
    split at hx
    · rename_i hf; cases hx; exact ⟨hl, by simpa [txCmdReady] using hq, hf, rfl⟩
    · cases hx
  · cases hx

/-- TX_RAW and RAW.ANY (R191). -/
theorem transmitRaw_cases {h : TxHead} {fc : Byte} {p : Bytes} {s t : State} (hx : transmitRaw h fc p s = .next t) :
    s.launched = true ∧ s.txQ = [] ∧ p.length ≤ maxPayload ∧ t = enqueue (frameBuild s.cfg h.tid h.pid h.uid fc p) s := by
  obtain ⟨hl, hx⟩ := afterLaunch_next.mp hx
  split at hx
  · rename_i hq
    split at hx
    · rename_i hf; cases hx; exact ⟨hl, by simpa [txCmdReady] using hq, hf, rfl⟩
    · cases hx
  · cases hx

/-- TX_TAKE (R192). -/
theorem execTxTake_cases {s t : State} (h : execTxTake s = .next t) :
    s.launched = true ∧ ∃ b rest, s.txQ = b :: rest ∧ t = takeByte b rest s := by
  obtain ⟨hl, h⟩ := afterLaunch_next.mp h
  split at h
  · rename_i b rest hq; cases h; exact ⟨hl, b, rest, hq, rfl⟩
  · cases h

/-- RESET (R240). -/
theorem execReset_cases {c : Cfg} {s t : State} (h : execReset c s = .next t) : legalCfg c = true ∧ t = resetTo c s := by
  unfold execReset at h
  split at h
  · cases h; exact ⟨‹_›, rfl⟩
  · cases h

/-- A frame's arrival is a sequence of pushes. -/
theorem receiveFrame_cases {fc : Byte} {f : RxFrame} {s t : State} (h : receiveFrame fc f s = .next t) :
    f.payload.length ≤ maxPayload ∧ pushAll (frameBytes fc f) s = .next t := by
  unfold receiveFrame at h
  split at h
  · exact ⟨‹_›, h⟩
  · cases h

/-- The twelve receive rows. -/
theorem receiveVariant_cases {v : Variant} {f : RxFrame} {s t : State} (h : receiveVariant v f s = .next t) :
    s.launched = true ∧ s.cfg.rxDir = v.dir ∧ f.payload.length ≤ maxPayload ∧
      pushAll (frameBytes (kindCode v.kind) f) s = .next t := by
  obtain ⟨hl, h⟩ := afterLaunch_next.mp h
  split at h
  · exact ⟨hl, ‹_›, receiveFrame_cases h⟩
  · cases h

/-- DEC.PASS (R152). -/
theorem execDecPass_cases {fc : Byte} {f : RxFrame} {s t : State} (h : execDecPass fc f s = .next t) :
    s.launched = true ∧ kindOf fc = none ∧ f.payload.length ≤ maxPayload ∧ pushAll (frameBytes fc f) s = .next t := by
  obtain ⟨hl, h⟩ := afterLaunch_next.mp h
  split at h
  · exact ⟨hl, ‹_›, receiveFrame_cases h⟩
  · cases h

/-- What every enabled push keeps, a sequence of pushes keeps. -/
theorem pushAll_induction (p : State → Prop)
    (hpush : ∀ b s, s.launched = true → s.rxBuf.length < s.cfg.bufCap → p s → p (settle (appendByte b s)))
    (bs : Bytes) {s t : State} (h : pushAll bs s = .next t) (hs : p s) : p t := by
  induction bs generalizing s with
  | nil => cases h; exact hs
  | cons b bs ih =>
    rw [pushAll] at h
    cases hb : execRxPush b s with
    | next u =>
      rw [hb] at h
      obtain ⟨hl, hc, rfl⟩ := execRxPush_cases hb
      exact ih h (hpush b s hl hc hs)
    | fault e => rw [hb] at h; cases h
    | refused r => rw [hb] at h; cases h

/-- What pushes never write: everything but the receive buffer, phase, latches, result and trace; and they only append
to the trace (R61, R120, R210). -/
theorem pushAll_frame_fields {bs : Bytes} {s t : State} (h : pushAll bs s = .next t) :
    t.launched = s.launched ∧ t.cfg = s.cfg ∧ t.txQ = s.txQ ∧ t.taken = s.taken ∧ t.script = s.script ∧
      t.results = s.results ∧ s.ev <+: t.ev := by
  refine pushAll_induction (fun t => t.launched = s.launched ∧ t.cfg = s.cfg ∧ t.txQ = s.txQ ∧ t.taken = s.taken ∧
    t.script = s.script ∧ t.results = s.results ∧ s.ev <+: t.ev) ?_ bs h ⟨rfl, rfl, rfl, rfl, rfl, rfl, List.prefix_refl _⟩
  intro b u _ _ ⟨h1, h2, h3, h4, h5, h6, h7⟩
  exact ⟨by simpa using h1, by simpa using h2, by simpa using h3, by simpa using h4, by simpa using h5,
    by simpa using h6, h7.trans (settle_ev_prefix (appendByte b u))⟩

/-- An instruction that answers a next state is a RESET, a sequence of pushes, a pop, a command that queues a frame or
emits TX_TOO_LONG, or a take: everything `exec` can do. -/
theorem exec_cases {i : Instr} {s t : State} (h : exec i s = .next t) :
    (∃ c, i = .reset c ∧ legalCfg c = true ∧ t = resetTo c s) ∨
    (s.launched = true ∧ isReceive i = true ∧ i ≠ .rxPop ∧ ∃ bs, bs.length = pushedBytes i ∧ pushAll bs s = .next t) ∨
    (s.launched = true ∧ i = .rxPop ∧ s.rxPhase = .frameReady ∧ t = settle (release (dropFront s.rxNeed s))) ∨
    (s.launched = true ∧ isTransmit i = true ∧ i ≠ .txTake ∧ s.txQ = [] ∧
      ((∃ (h : TxHead) (fc : Byte) (w : Bytes), w.length ≤ maxPayload ∧ t = enqueue (frameBuild s.cfg h.tid h.pid h.uid fc w) s) ∨
       (∃ (tid : U16) (fc : Byte) (n : Nat), maxPayload < n ∧ t = emit (.txTooLong tid fc n) s))) ∨
    (s.launched = true ∧ i = .txTake ∧ ∃ b rest, s.txQ = b :: rest ∧ t = takeByte b rest s) := by
  have hrow : ∀ (v : Variant) (f : RxFrame), receiveVariant v f s = .next t →
      s.launched = true ∧ ∃ bs, bs.length = f.payload.length + 10 ∧ pushAll bs s = .next t := fun v f hx =>
    have ⟨hl, _, _, hp⟩ := receiveVariant_cases hx
    ⟨hl, _, length_frameBytes _ f, hp⟩
  have hsend : ∀ (v : Variant) (hd : TxHead) (fields : Fields), transmitVariant v hd fields s = .next t →
      s.launched = true ∧ s.txQ = [] ∧
      ((∃ (h : TxHead) (fc : Byte) (w : Bytes), w.length ≤ maxPayload ∧ t = enqueue (frameBuild s.cfg h.tid h.pid h.uid fc w) s) ∨
       (∃ (tid : U16) (fc : Byte) (n : Nat), maxPayload < n ∧ t = emit (.txTooLong tid fc n) s)) := by
    intro v hd fields hx
    obtain ⟨hl, hq, -, rfl⟩ := transmitVariant_cases hx
    refine ⟨hl, hq, ?_⟩
    unfold sendEncoded
    split
    · exact .inr ⟨_, _, _, ‹_›, rfl⟩
    · rename_i hle
      refine .inl ⟨hd, kindCode v.kind, transform s.cfg hd.pid (kindCode v.kind) v.dir (encodePayload s.cfg v fields), ?_, rfl⟩
      rw [length_transform]
      omega
  cases i with
  | reset c => obtain ⟨hc, rfl⟩ := execReset_cases h; exact .inl ⟨c, rfl, hc, rfl⟩
  | rxPush b =>
    obtain ⟨hl, hc, rfl⟩ := execRxPush_cases h
    exact .inr (.inl ⟨hl, rfl, by simp, [b], rfl, by rw [pushAll, show execRxPush b s = _ from h]; rfl⟩)
  | rxPop => obtain ⟨hl, hp, rfl⟩ := execRxPop_cases h; exact .inr (.inr (.inl ⟨hl, rfl, hp, rfl⟩))
  | txTake =>
    obtain ⟨hl, b, rest, hq, rfl⟩ := execTxTake_cases h
    exact .inr (.inr (.inr (.inr ⟨hl, rfl, b, rest, hq, rfl⟩)))
  | reserved110 => cases h
  | reserved111 => cases h
  | decPass fc f =>
    obtain ⟨hl, -, -, hp⟩ := execDecPass_cases h
    exact .inr (.inl ⟨hl, rfl, by simp, _, length_frameBytes fc f, hp⟩)
  | txRaw hd fc p =>
    obtain ⟨hl, hq, hle, rfl⟩ := transmitRaw_cases h
    exact .inr (.inr (.inr (.inl ⟨hl, rfl, by simp, hq, .inl ⟨hd, fc, p, hle, rfl⟩⟩)))
  | rawAny hd fc p =>
    obtain ⟨hl, hq, hle, rfl⟩ := transmitRaw_cases h
    exact .inr (.inr (.inr (.inl ⟨hl, rfl, by simp, hq, .inl ⟨hd, fc, p, hle, rfl⟩⟩)))
  | decAnnounceUp f => obtain ⟨hl, bs, hb, hp⟩ := hrow _ f h; exact .inr (.inl ⟨hl, rfl, by simp, bs, hb, hp⟩)
  | decEnergyUp f => obtain ⟨hl, bs, hb, hp⟩ := hrow _ f h; exact .inr (.inl ⟨hl, rfl, by simp, bs, hb, hp⟩)
  | decBufferedUp f => obtain ⟨hl, bs, hb, hp⟩ := hrow _ f h; exact .inr (.inl ⟨hl, rfl, by simp, bs, hb, hp⟩)
  | decPingUp f => obtain ⟨hl, bs, hb, hp⟩ := hrow _ f h; exact .inr (.inl ⟨hl, rfl, by simp, bs, hb, hp⟩)
  | decConfigUp f => obtain ⟨hl, bs, hb, hp⟩ := hrow _ f h; exact .inr (.inl ⟨hl, rfl, by simp, bs, hb, hp⟩)
  | decQueryUp f => obtain ⟨hl, bs, hb, hp⟩ := hrow _ f h; exact .inr (.inl ⟨hl, rfl, by simp, bs, hb, hp⟩)
  | decAnnounceAck f => obtain ⟨hl, bs, hb, hp⟩ := hrow _ f h; exact .inr (.inl ⟨hl, rfl, by simp, bs, hb, hp⟩)
  | decEnergyAck f => obtain ⟨hl, bs, hb, hp⟩ := hrow _ f h; exact .inr (.inl ⟨hl, rfl, by simp, bs, hb, hp⟩)
  | decBufferedAck f => obtain ⟨hl, bs, hb, hp⟩ := hrow _ f h; exact .inr (.inl ⟨hl, rfl, by simp, bs, hb, hp⟩)
  | decPingDown f => obtain ⟨hl, bs, hb, hp⟩ := hrow _ f h; exact .inr (.inl ⟨hl, rfl, by simp, bs, hb, hp⟩)
  | decConfigDown f => obtain ⟨hl, bs, hb, hp⟩ := hrow _ f h; exact .inr (.inl ⟨hl, rfl, by simp, bs, hb, hp⟩)
  | decQueryDown f => obtain ⟨hl, bs, hb, hp⟩ := hrow _ f h; exact .inr (.inl ⟨hl, rfl, by simp, bs, hb, hp⟩)
  | txEnc hd k d fs => obtain ⟨hl, hq, hp⟩ := hsend _ hd _ h; exact .inr (.inr (.inr (.inl ⟨hl, rfl, by simp, hq, hp⟩)))
  | encAnnounceUp hd fs => obtain ⟨hl, hq, hp⟩ := hsend _ hd _ h; exact .inr (.inr (.inr (.inl ⟨hl, rfl, by simp, hq, hp⟩)))
  | encEnergyUp hd fs => obtain ⟨hl, hq, hp⟩ := hsend _ hd _ h; exact .inr (.inr (.inr (.inl ⟨hl, rfl, by simp, hq, hp⟩)))
  | encBufferedUp hd fs => obtain ⟨hl, hq, hp⟩ := hsend _ hd _ h; exact .inr (.inr (.inr (.inl ⟨hl, rfl, by simp, hq, hp⟩)))
  | encPingUp hd fs => obtain ⟨hl, hq, hp⟩ := hsend _ hd _ h; exact .inr (.inr (.inr (.inl ⟨hl, rfl, by simp, hq, hp⟩)))
  | encConfigUp hd fs => obtain ⟨hl, hq, hp⟩ := hsend _ hd _ h; exact .inr (.inr (.inr (.inl ⟨hl, rfl, by simp, hq, hp⟩)))
  | encQueryUp hd fs => obtain ⟨hl, hq, hp⟩ := hsend _ hd _ h; exact .inr (.inr (.inr (.inl ⟨hl, rfl, by simp, hq, hp⟩)))
  | encAnnounceAck hd => obtain ⟨hl, hq, hp⟩ := hsend _ hd _ h; exact .inr (.inr (.inr (.inl ⟨hl, rfl, by simp, hq, hp⟩)))
  | encEnergyAck hd => obtain ⟨hl, hq, hp⟩ := hsend _ hd _ h; exact .inr (.inr (.inr (.inl ⟨hl, rfl, by simp, hq, hp⟩)))
  | encBufferedAck hd => obtain ⟨hl, hq, hp⟩ := hsend _ hd _ h; exact .inr (.inr (.inr (.inl ⟨hl, rfl, by simp, hq, hp⟩)))
  | encPingDown hd fs => obtain ⟨hl, hq, hp⟩ := hsend _ hd _ h; exact .inr (.inr (.inr (.inl ⟨hl, rfl, by simp, hq, hp⟩)))
  | encConfigDown hd fs => obtain ⟨hl, hq, hp⟩ := hsend _ hd _ h; exact .inr (.inr (.inr (.inl ⟨hl, rfl, by simp, hq, hp⟩)))
  | encQueryDown hd fs => obtain ⟨hl, hq, hp⟩ := hsend _ hd _ h; exact .inr (.inr (.inr (.inl ⟨hl, rfl, by simp, hq, hp⟩)))

end Sys2Proof.Machine
end

