-- ==== Sys2Proof/Laws/Payload.lean ====
section
/-!
SUPPORT. What ENCODE builds and DECODE reads (spec/43_encode.md rules R180 to R185, spec/42_decode.md rule R154): the
payload as the fields one after another with zeros in the gaps, its length, and the fields read back from it.
-/

namespace Sys2Proof.Machine

/-! ## The layout of each variant -/

/-- The layout of a variant in the one table, by name (R80 to R88). -/
theorem layoutOf_layoutTable (v : Variant) :
    layoutOf layoutTable v =
      match v.kind, v.dir with
      | .announce, .up => announceLayout
      | .energy, .up => energyLayout
      | .bufferedEnergy, .up => energyLayout
      | .ping, _ => pingLayout
      | .announce, .down => ackLayout
      | .energy, .down => ackLayout
      | .bufferedEnergy, .down => ackLayout
      | .query, .down => rangeLayout
      | .config, _ => configLayout
      | .query, .up => configLayout := by
  rcases v with ⟨k, d⟩
  cases k <;> cases d <;> rfl

/-! ## The payload as a sequence -/

/-- The bytes a field takes in a command's payload. -/
def widthIn (all : Fields) : FieldType → Nat
  | .u8 => 1
  | .u16 => 2
  | .u32 => 4
  | .str w => w
  | .bytesOf n => declaredLength n all

/-- A value of the field's type takes the field's bytes (R182, R184). -/
theorem length_encodeValue {all : Fields} {t : FieldType} {v : FieldVal} (h : valueFits t v = true) :
    (encodeValue all t v).length = widthIn all t := by
  cases t <;> cases v <;> simp_all [valueFits, encodeValue, widthIn]

/-- The fields stand in the order of their offsets, from `pos` on, and end by `n`. -/
def inOrder (all : Fields) : List FieldSpec → Nat → Nat → Bool
  | [], pos, n => decide (pos ≤ n)
  | f :: fs, pos, n => decide (pos ≤ f.offset) && inOrder all fs (f.offset + widthIn all f.type) n

theorem inOrder_le {all : Fields} {fs : List FieldSpec} {pos n : Nat} (h : inOrder all fs pos n = true) : pos ≤ n := by
  induction fs generalizing pos with
  | nil => simpa [inOrder] using h
  | cons f fs ih =>
    simp only [inOrder, Bool.and_eq_true, decide_eq_true_eq] at h
    have := ih h.2
    omega

/-- The payload bytes from `pos` to `n`: each field's value at its offset, zeros elsewhere (R181). -/
def laid (all : Fields) : List FieldSpec → Fields → Nat → Nat → Bytes
  | f :: fs, (_, v) :: rest, pos, n =>
    zeros (f.offset - pos) ++ (encodeValue all f.type v ++ laid all fs rest (f.offset + widthIn all f.type) n)
  | _, _, pos, n => zeros (n - pos)

theorem length_laid {all : Fields} {fs : List FieldSpec} {vals : Fields} {pos n : Nat}
    (hf : fieldsFit fs vals = true) (ho : inOrder all fs pos n = true) : (laid all fs vals pos n).length = n - pos := by
  induction fs generalizing vals pos with
  | nil => cases vals <;> simp [laid]
  | cons f fs ih =>
    obtain - | ⟨⟨m, v⟩, rest⟩ := vals
    · simp [fieldsFit] at hf
    · simp only [fieldsFit, Bool.and_eq_true, inOrder, decide_eq_true_eq] at hf ho
      have hn := inOrder_le ho.2
      simp only [laid, List.length_append, length_zeros, length_encodeValue hf.1.2, ih hf.2 ho.2]
      omega

theorem zeros_add (a b : Nat) : zeros (a + b) = zeros a ++ zeros b := by simp [zeros, List.replicate_append_replicate]

/-- Writing fields into a payload that is zero from the end of `pre` on lays them out (R180, R181). -/
theorem writeFields_laid {all : Fields} {fs : List FieldSpec} {vals : Fields} {n : Nat} {pre : Bytes}
    (hf : fieldsFit fs vals = true) (ho : inOrder all fs pre.length n = true) :
    writeFields all fs vals (pre ++ zeros (n - pre.length)) = pre ++ laid all fs vals pre.length n := by
  induction fs generalizing vals pre with
  | nil => cases vals <;> rfl
  | cons f fs ih =>
    obtain - | ⟨⟨m, v⟩, rest⟩ := vals
    · simp [fieldsFit] at hf
    · simp only [fieldsFit, Bool.and_eq_true, inOrder, decide_eq_true_eq] at hf ho
      have hw := length_encodeValue (all := all) hf.1.2
      have hn := inOrder_le ho.2
      have hpre : (pre ++ zeros (f.offset - pre.length) ++ encodeValue all f.type v).length =
          f.offset + widthIn all f.type := by simp [hw]; omega
      have hmem : memWrite (pre ++ zeros (n - pre.length)) f.offset (encodeValue all f.type v) =
          (pre ++ zeros (f.offset - pre.length) ++ encodeValue all f.type v) ++
            zeros (n - (f.offset + widthIn all f.type)) := by
        have hz : zeros (n - pre.length) = zeros (f.offset - pre.length) ++
            (zeros (widthIn all f.type) ++ zeros (n - (f.offset + widthIn all f.type))) := by
          rw [← zeros_add, ← zeros_add]; congr 1; omega
        have hl : (pre ++ zeros (f.offset - pre.length)).length = f.offset := by simp; omega
        rw [hz, ← List.append_assoc, memWrite, List.take_left' hl, hw, ← List.append_assoc,
          List.drop_left' (by rw [List.length_append, hl, length_zeros])]
      rw [writeFields, hmem, ← hpre, ih hf.2 (by rw [hpre]; exact ho.2), hpre, laid]
      simp

/-- The payload an ENC command builds, as a sequence. -/
theorem encodeFields_laid {l : VariantLayout} {fields : Fields} (hf : fieldsFit l.fields fields = true)
    (ho : inOrder fields l.fields 0 (encodedLength l fields) = true) :
    encodeFields l fields = laid fields l.fields fields 0 (encodedLength l fields) := by
  have := writeFields_laid (pre := []) hf ho
  simpa [encodeFields] using this

/-- The payload an ENC command builds has its declared length (R89, R180). -/
theorem length_encodeFields {l : VariantLayout} {fields : Fields} (hf : fieldsFit l.fields fields = true)
    (ho : inOrder fields l.fields 0 (encodedLength l fields) = true) :
    (encodeFields l fields).length = encodedLength l fields := by
  rw [encodeFields_laid hf ho, length_laid hf ho]; simp

/-- The length of the payload of each variant (R89, R184). -/
theorem encodedLength_layoutTable (v : Variant) (fields : Fields) :
    encodedLength (layoutOf layoutTable v) fields =
      match v.kind, v.dir with
      | .announce, .up => 173
      | .energy, .up => 197
      | .bufferedEnergy, .up => 197
      | .ping, _ => 10
      | .announce, .down => 1
      | .energy, .down => 1
      | .bufferedEnergy, .down => 1
      | .query, .down => 34
      | .config, _ => 34 + declaredLength .configLength fields
      | .query, .up => 34 + declaredLength .configLength fields := by
  rcases v with ⟨k, d⟩
  cases k <;> cases d <;> rfl

/-- The fields of every variant stand in the order of their offsets, whatever the declared length (R92). -/
theorem inOrder_layoutTable (v : Variant) (fields : Fields) :
    inOrder fields (layoutOf layoutTable v).fields 0 (encodedLength (layoutOf layoutTable v) fields) = true := by
  rw [encodedLength_layoutTable, layoutOf_layoutTable]
  rcases v with ⟨k, d⟩
  cases k <;> cases d <;> simp [inOrder, widthIn, announceLayout, energyLayout, pingLayout, ackLayout, configLayout, rangeLayout]

/-! ## Reading the fields back -/

/-- DECODE reads back what ENCODE wrote, normalised (R205), where the length fields read as declared. -/
theorem readFields_laid {l : VariantLayout} {all : Fields} {fs : List FieldSpec} {vals : Fields} {n : Nat} {pre s : Bytes}
    (hf : fieldsFit fs vals = true) (ho : inOrder all fs pre.length n = true)
    (hs : s = pre ++ laid all fs vals pre.length n)
    (hlen : ∀ f ∈ fs, ∀ m, f.type = .bytesOf m → lengthIn l m s = declaredLength m all) :
    fs.map (fun f => (f.name, readField l s f)) = normaliseFields all fs vals := by
  induction fs generalizing vals pre with
  | nil => cases vals <;> simp_all [fieldsFit, normaliseFields]
  | cons f fs ih =>
    obtain - | ⟨⟨m, v⟩, rest⟩ := vals
    · simp [fieldsFit] at hf
    · simp only [fieldsFit, Bool.and_eq_true, inOrder, decide_eq_true_eq, beq_iff_eq] at hf ho
      obtain ⟨⟨hname, hv⟩, hrest⟩ := hf
      have hw := length_encodeValue (all := all) hv
      have hl : (pre ++ zeros (f.offset - pre.length)).length = f.offset := by simp; omega
      have hpre : (pre ++ zeros (f.offset - pre.length) ++ encodeValue all f.type v).length =
          f.offset + widthIn all f.type := by rw [List.length_append, hl, hw]
      have hs' : s = (pre ++ zeros (f.offset - pre.length) ++ encodeValue all f.type v) ++
          laid all fs rest (pre ++ zeros (f.offset - pre.length) ++ encodeValue all f.type v).length n := by
        rw [hs, laid, hpre]; simp
      have htail := ih (pre := pre ++ zeros (f.offset - pre.length) ++ encodeValue all f.type v) hrest
        (by rw [hpre]; exact ho.2) hs' (fun g hg => hlen g (List.mem_cons_of_mem _ hg))
      rw [List.map_cons, htail]
      have hhere : s = (pre ++ zeros (f.offset - pre.length)) ++ (encodeValue all f.type v ++
          laid all fs rest (f.offset + widthIn all f.type) n) := by rw [hs, laid]; simp
      have hslice := slice_append_mid (pre ++ zeros (f.offset - pre.length)) (encodeValue all f.type v)
        (laid all fs rest (f.offset + widthIn all f.type) n)
      rw [← hhere, hl, hw] at hslice
      have hbl := hlen f (List.mem_cons_self ..)
      cases ht : f.type <;> cases v <;> simp only [ht, valueFits, Bool.false_eq_true] at hv <;>
        simp only [normaliseFields, ht, hname, readField]
      · rename_i v
        have h := byteAt_append_length (pre ++ zeros (f.offset - pre.length))
          (v :: laid all fs rest (f.offset + widthIn all f.type) n)
        rw [hl] at h
        rw [hhere, ht]
        rw [ht] at h
        exact congrArg (fun b => (m, FieldVal.u8 b) :: normaliseFields all fs rest) h
      · rename_i v
        have h := be16_encBe16 (pre ++ zeros (f.offset - pre.length))
          (laid all fs rest (f.offset + widthIn all f.type) n) v
        rw [hl] at h
        rw [hhere, ht]
        rw [ht] at h
        exact congrArg (fun b => (m, FieldVal.u16 b) :: normaliseFields all fs rest) h
      · rename_i v
        have h := be32_encBe32 (pre ++ zeros (f.offset - pre.length))
          (laid all fs rest (f.offset + widthIn all f.type) n) v
        rw [hl] at h
        rw [hhere, ht]
        rw [ht] at h
        exact congrArg (fun b => (m, FieldVal.u32 b) :: normaliseFields all fs rest) h
      · rw [ht] at hslice; simp only [encodeValue, widthIn] at hslice; rw [hslice]
      · rw [ht] at hslice; simp only [encodeValue, widthIn] at hslice; rw [hbl _ ht, hslice]

end Sys2Proof.Machine
end

