-- ==== Sys2Proof/Laws/PerInstr.lean ====
section
/-!
SUPPORT. One law per instruction: its bytes begin with the code the opcode table gives its row, written here a second
time from spec/opcode_table.json (R77, R95), then with a form byte of the model's own (assumption 1).
-/

namespace Sys2Proof.Laws.RowCode

/-- The code of each row of spec/opcode_table.json. DEC.PASS and RAW.ANY take the function code from their operand. -/
def code : Instr → Byte
  | .reset _ => 0
  | .rxPush _ => 1
  | .rxPop => 2
  | .txEnc _ _ _ _ => 3
  | .txRaw _ _ _ => 4
  | .txTake => 5
  | .reserved110 => 6
  | .reserved111 => 7
  | .decAnnounceUp _ => 0x03
  | .encAnnounceUp _ _ => 0x03
  | .decEnergyUp _ => 0x04
  | .encEnergyUp _ _ => 0x04
  | .decBufferedUp _ => 0x50
  | .encBufferedUp _ _ => 0x50
  | .decPingUp _ => 0x16
  | .encPingUp _ _ => 0x16
  | .decConfigUp _ => 0x18
  | .encConfigUp _ _ => 0x18
  | .decQueryUp _ => 0x19
  | .encQueryUp _ _ => 0x19
  | .decAnnounceAck _ => 0x03
  | .encAnnounceAck _ => 0x03
  | .decEnergyAck _ => 0x04
  | .encEnergyAck _ => 0x04
  | .decBufferedAck _ => 0x50
  | .encBufferedAck _ => 0x50
  | .decPingDown _ => 0x16
  | .encPingDown _ _ => 0x16
  | .decConfigDown _ => 0x18
  | .encConfigDown _ _ => 0x18
  | .decQueryDown _ => 0x19
  | .encQueryDown _ _ => 0x19
  | .decPass fc _ => fc
  | .rawAny _ fc _ => fc

/-- The first byte of an instruction is its row's code. -/
def Statement (i : Instr) : Prop := ∃ form operands, encode i = code i :: form :: operands

theorem reset (c : Cfg) : Statement (.reset c) := ⟨_, _, rfl⟩

theorem rxPush (b : Byte) : Statement (.rxPush b) := ⟨_, _, rfl⟩

theorem rxPop : Statement .rxPop := ⟨_, _, rfl⟩

theorem txEnc (h : TxHead) (kind : Kind) (dir : Dir) (fields : Fields) : Statement (.txEnc h kind dir fields) := ⟨_, _, rfl⟩

theorem txRaw (h : TxHead) (fc : Byte) (payload : Bytes) : Statement (.txRaw h fc payload) := ⟨_, _, rfl⟩

theorem txTake : Statement .txTake := ⟨_, _, rfl⟩

theorem reserved110 : Statement .reserved110 := ⟨_, _, rfl⟩

theorem reserved111 : Statement .reserved111 := ⟨_, _, rfl⟩

theorem decAnnounceUp (f : RxFrame) : Statement (.decAnnounceUp f) := ⟨_, _, rfl⟩

theorem encAnnounceUp (h : TxHead) (fields : Fields) : Statement (.encAnnounceUp h fields) := ⟨_, _, rfl⟩

theorem decEnergyUp (f : RxFrame) : Statement (.decEnergyUp f) := ⟨_, _, rfl⟩

theorem encEnergyUp (h : TxHead) (fields : Fields) : Statement (.encEnergyUp h fields) := ⟨_, _, rfl⟩

theorem decBufferedUp (f : RxFrame) : Statement (.decBufferedUp f) := ⟨_, _, rfl⟩

theorem encBufferedUp (h : TxHead) (fields : Fields) : Statement (.encBufferedUp h fields) := ⟨_, _, rfl⟩

theorem decPingUp (f : RxFrame) : Statement (.decPingUp f) := ⟨_, _, rfl⟩

theorem encPingUp (h : TxHead) (fields : Fields) : Statement (.encPingUp h fields) := ⟨_, _, rfl⟩

theorem decConfigUp (f : RxFrame) : Statement (.decConfigUp f) := ⟨_, _, rfl⟩

theorem encConfigUp (h : TxHead) (fields : Fields) : Statement (.encConfigUp h fields) := ⟨_, _, rfl⟩

theorem decQueryUp (f : RxFrame) : Statement (.decQueryUp f) := ⟨_, _, rfl⟩

theorem encQueryUp (h : TxHead) (fields : Fields) : Statement (.encQueryUp h fields) := ⟨_, _, rfl⟩

theorem decAnnounceAck (f : RxFrame) : Statement (.decAnnounceAck f) := ⟨_, _, rfl⟩

theorem encAnnounceAck (h : TxHead) : Statement (.encAnnounceAck h) := ⟨_, _, rfl⟩

theorem decEnergyAck (f : RxFrame) : Statement (.decEnergyAck f) := ⟨_, _, rfl⟩

theorem encEnergyAck (h : TxHead) : Statement (.encEnergyAck h) := ⟨_, _, rfl⟩

theorem decBufferedAck (f : RxFrame) : Statement (.decBufferedAck f) := ⟨_, _, rfl⟩

theorem encBufferedAck (h : TxHead) : Statement (.encBufferedAck h) := ⟨_, _, rfl⟩

theorem decPingDown (f : RxFrame) : Statement (.decPingDown f) := ⟨_, _, rfl⟩

theorem encPingDown (h : TxHead) (fields : Fields) : Statement (.encPingDown h fields) := ⟨_, _, rfl⟩

theorem decConfigDown (f : RxFrame) : Statement (.decConfigDown f) := ⟨_, _, rfl⟩

theorem encConfigDown (h : TxHead) (fields : Fields) : Statement (.encConfigDown h fields) := ⟨_, _, rfl⟩

theorem decQueryDown (f : RxFrame) : Statement (.decQueryDown f) := ⟨_, _, rfl⟩

theorem encQueryDown (h : TxHead) (fields : Fields) : Statement (.encQueryDown h fields) := ⟨_, _, rfl⟩

theorem decPass (fc : Byte) (f : RxFrame) : Statement (.decPass fc f) := ⟨_, _, rfl⟩

theorem rawAny (h : TxHead) (fc : Byte) (payload : Bytes) : Statement (.rawAny h fc payload) := ⟨_, _, rfl⟩

end Sys2Proof.Laws.RowCode
end

