-- ==== Sys2Proof/Laws/Rows.lean ====
section
/-!
SUPPORT. What a receive row does on an idle receive path and what a transmit row does on an idle transmit side, said
once for all variants (spec/42_decode.md rules R150 to R154, spec/43_encode.md rule R190).
-/

namespace Sys2Proof.Machine

/-- The receive rows share one operation. -/
theorem exec_ofReceive (v : Variant) (f : RxFrame) (s : State) : exec (Instr.ofReceive v f) s = receiveVariant v f s := by
  rcases v with ⟨k, d⟩; cases k <;> cases d <;> rfl

/-- The transmit rows share one operation; an ack row passes no fields (R185). -/
theorem exec_ofTransmit (v : Variant) (h : TxHead) (fields : Fields) (s : State) :
    exec (Instr.ofTransmit v h fields) s = transmitVariant v h (if isAck v then [] else fields) s := by
  rcases v with ⟨k, d⟩; cases k <;> cases d <;> rfl

/-- The demultiplexer on a frame of one of the six codes (R150). -/
theorem demux_frameBytes (c : Cfg) {fc : Byte} {k : Kind} (f : RxFrame) (hk : kindOf fc = some k) :
    demux c (hdrOf f) (frameBytes fc f) = demuxKind c (hdrOf f) fc k (plaintext c fc f) := by
  have hf : frameFc (frameBytes fc f) = fc := frameFc_frameHead ..
  have hw : wirePayload (frameBytes fc f) = f.payload := wirePayload_frameHead _ _ _ _ _ _ rfl
  simp only [demux, hf, hk, hw]
  rfl

theorem length_plaintext (c : Cfg) (fc : Byte) (f : RxFrame) : (plaintext c fc f).length = f.payload.length :=
  length_transform ..

/-- A verified frame of the selected direction holds its decoded message, or its decode error (R153, R154). -/
theorem receiveVariant_verified {s : State} (hs : rxIdle s) {v : Variant} (hd : s.cfg.rxDir = v.dir) {f : RxFrame}
    (hv : verifiedFrame s.cfg (kindCode v.kind) f) :
    receiveVariant v f s = .next
      (holding (kindCode v.kind) f
        (demuxKind s.cfg (hdrOf f) (kindCode v.kind) v.kind (plaintext s.cfg (kindCode v.kind) f)).1
        (demuxKind s.cfg (hdrOf f) (kindCode v.kind) v.kind (plaintext s.cfg (kindCode v.kind) f)).2.toList s) := by
  rw [receiveVariant, afterLaunch_launched hs.1, if_pos hd, receiveFrame, if_pos hv.1, pushAll_frame_verified hs hv,
    demux_frameBytes _ _ (kindOf_kindCode _)]

/-- A command whose fields fit is accepted by an idle transmit side (R190). -/
theorem transmitVariant_idle {s : State} (hs : txIdle s) {v : Variant} (h : TxHead) {fields : Fields}
    (hf : fieldsFit (commandFields s.cfg.layout v) fields = true) :
    transmitVariant v h fields s = .next (sendEncoded v h (encodePayload s.cfg v fields) s) := by
  rw [transmitVariant, afterLaunch_launched hs.1, if_pos (by simp [txCmdReady, hs.2]), if_pos hf]

/-- The payload of a command under the one layout, as a sequence of its fields (R180, R185). -/
theorem encodePayload_laid {c : Cfg} (hl : c.layout = layoutTable) {v : Variant} {fields : Fields}
    (hf : fieldsFit (layoutOf layoutTable v).fields (if isAck v then [(.ack, .u8 c.ackByte)] else fields) = true) :
    encodePayload c v fields =
      laid (if isAck v then [(.ack, .u8 c.ackByte)] else fields) (layoutOf layoutTable v).fields
        (if isAck v then [(.ack, .u8 c.ackByte)] else fields) 0
        (encodedLength (layoutOf layoutTable v) (if isAck v then [(.ack, .u8 c.ackByte)] else fields)) := by
  rw [encodePayload, hl, encodeFields_laid hf (inOrder_layoutTable v _)]

end Sys2Proof.Machine
end

