-- ==== Sys2Proof/Tests/Slice0.lean ====
section
/-!
SUPPORT. The implementer's own tests. Expected values are the spec's vectors (spec/95_test_vectors.md, named beside each
test) or worked out by hand from the rule named; the configuration is that file's `T`.
-/

set_option Elab.async false

namespace Sys2Proof.Tests

open Machine

/-! ## WellFormed: an ill-formed term for each check -/

theorem test_wf_reset_other_layout : Instr.wellFormed (.reset { launchCfg with layout := [] }) = false := by decide
theorem test_wf_reset : Instr.wellFormed (.reset launchCfg) = true := by decide
theorem test_wf_enc_missing_field : Instr.wellFormed (.encPingUp ⟨1, 5, 1⟩ []) = false := by decide
theorem test_wf_enc_wrong_type : Instr.wellFormed (.encPingUp ⟨1, 5, 1⟩ [(.wifiSerial, .u16 3)]) = false := by decide
theorem test_wf_enc_extra_field :
    Instr.wellFormed (.encPingUp ⟨1, 5, 1⟩ [(.wifiSerial, .bytes []), (.ack, .u8 0)]) = false := by decide
theorem test_wf_enc : Instr.wellFormed (.encPingUp ⟨1, 5, 1⟩ [(.wifiSerial, .bytes [])]) = true := by decide
theorem test_wf_txEnc_ack_takes_no_fields :
    Instr.wellFormed (.txEnc ⟨1, 5, 1⟩ .announce .down [(.ack, .u8 0)]) = false := by decide
theorem test_wf_raw_too_long : Instr.wellFormed (.txRaw ⟨1, 5, 1⟩ 0x7f (zeros 65534)) = false := by
  rw [Instr.wellFormed, payloadFits, zeros, List.length_replicate]; decide
theorem test_wf_rawAny_too_long : Instr.wellFormed (.rawAny ⟨1, 5, 1⟩ 0x7f (zeros 65534)) = false := by
  rw [Instr.wellFormed, payloadFits, zeros, List.length_replicate]; decide
theorem test_wf_frame_too_long : Instr.wellFormed (.decPingUp ⟨1, 5, 1, zeros 65534, 0⟩) = false := by
  rw [Instr.wellFormed, payloadFits, zeros, List.length_replicate]; decide
theorem test_wf_pass_known_fc : Instr.wellFormed (.decPass 0x16 ⟨1, 5, 1, [], 0⟩) = false := by decide
theorem test_wf_pass : Instr.wellFormed (.decPass 0x7f ⟨1, 5, 1, [], 0⟩) = true := by decide

/-! ## Decoding: each row's word written out from its code (R95, R77) and the form of assumption 1 -/

/-- Decoded, with nothing left over. -/
def reads (s : Bytes) (i : Instr) : Bool :=
  match decode s with
  | .ok (j, rest) => decide (j = i) && rest.isEmpty
  | .error _ => false

theorem test_word_reset : reads [0x00, 0x00, 0x00] (.reset launchCfg) = true := by decide
theorem test_word_reset_named : reads
    [0x00, 0x00, 0x01, 0x01, 0x47, 0x00, 0x01, 0x01, 0x00, 0x02, 0x03, 0x01, 0x09, 0x00,
     0x01, 0x01, 0x00, 0x05, 0x00, 0x00, 0x02, 0x01, 0x00, 0x01, 0x06, 0x01, 0x07, 0x01, 0x00, 0x01, 0x01, 0x00]
    (.reset ⟨[0x47], 1, .swapped (.free 9), [⟨some 5, none, some .down, true⟩], .down, 6, 65543, layoutTable⟩) = true := by
  decide
theorem test_word_rxPush : reads [0x01, 0x00, 0x5a] (.rxPush 0x5a) = true := by decide
theorem test_word_rxPop : reads [0x02, 0x00] .rxPop = true := by decide
theorem test_word_txEnc : reads [0x03, 0x00, 0x00, 0x01, 0x00, 0x05, 0x01, 0x02, 0x01, 0x01, 0x41, 0x00]
    (.txEnc ⟨1, 5, 1⟩ .ping .down [(.wifiSerial, .bytes [0x41])]) = true := by decide
theorem test_word_txRaw : reads [0x04, 0x00, 0x00, 0x01, 0x00, 0x05, 0x01, 0x7f, 0x01, 0x02, 0x00]
    (.txRaw ⟨1, 5, 1⟩ 0x7f [0x02]) = true := by decide
theorem test_word_txTake : reads [0x05, 0x00] .txTake = true := by decide
theorem test_word_reserved110 : reads [0x06, 0x00] .reserved110 = true := by decide
theorem test_word_reserved111 : reads [0x07, 0x00] .reserved111 = true := by decide
theorem test_word_decAnnounceUp : reads [0x03, 0x01, 0x00, 0x01, 0x00, 0x05, 0x01, 0x01, 0xaa, 0x00, 0xbe, 0xef]
    (.decAnnounceUp ⟨1, 5, 1, [0xaa], 0xbeef⟩) = true := by decide
theorem test_word_decEnergyUp : reads [0x04, 0x01, 0x00, 0x01, 0x00, 0x05, 0x01, 0x01, 0xaa, 0x00, 0xbe, 0xef]
    (.decEnergyUp ⟨1, 5, 1, [0xaa], 0xbeef⟩) = true := by decide
theorem test_word_decBufferedUp : reads [0x50, 0x01, 0x00, 0x01, 0x00, 0x05, 0x01, 0x01, 0xaa, 0x00, 0xbe, 0xef]
    (.decBufferedUp ⟨1, 5, 1, [0xaa], 0xbeef⟩) = true := by decide
theorem test_word_decPingUp : reads [0x16, 0x01, 0x00, 0x01, 0x00, 0x05, 0x01, 0x01, 0xaa, 0x00, 0xbe, 0xef]
    (.decPingUp ⟨1, 5, 1, [0xaa], 0xbeef⟩) = true := by decide
theorem test_word_decConfigUp : reads [0x18, 0x01, 0x00, 0x01, 0x00, 0x05, 0x01, 0x01, 0xaa, 0x00, 0xbe, 0xef]
    (.decConfigUp ⟨1, 5, 1, [0xaa], 0xbeef⟩) = true := by decide
theorem test_word_decQueryUp : reads [0x19, 0x01, 0x00, 0x01, 0x00, 0x05, 0x01, 0x01, 0xaa, 0x00, 0xbe, 0xef]
    (.decQueryUp ⟨1, 5, 1, [0xaa], 0xbeef⟩) = true := by decide
theorem test_word_decAnnounceAck : reads [0x03, 0x02, 0x00, 0x01, 0x00, 0x05, 0x01, 0x01, 0xaa, 0x00, 0xbe, 0xef]
    (.decAnnounceAck ⟨1, 5, 1, [0xaa], 0xbeef⟩) = true := by decide
theorem test_word_decEnergyAck : reads [0x04, 0x02, 0x00, 0x01, 0x00, 0x05, 0x01, 0x01, 0xaa, 0x00, 0xbe, 0xef]
    (.decEnergyAck ⟨1, 5, 1, [0xaa], 0xbeef⟩) = true := by decide
theorem test_word_decBufferedAck : reads [0x50, 0x02, 0x00, 0x01, 0x00, 0x05, 0x01, 0x01, 0xaa, 0x00, 0xbe, 0xef]
    (.decBufferedAck ⟨1, 5, 1, [0xaa], 0xbeef⟩) = true := by decide
theorem test_word_decPingDown : reads [0x16, 0x02, 0x00, 0x01, 0x00, 0x05, 0x01, 0x01, 0xaa, 0x00, 0xbe, 0xef]
    (.decPingDown ⟨1, 5, 1, [0xaa], 0xbeef⟩) = true := by decide
theorem test_word_decConfigDown : reads [0x18, 0x02, 0x00, 0x01, 0x00, 0x05, 0x01, 0x01, 0xaa, 0x00, 0xbe, 0xef]
    (.decConfigDown ⟨1, 5, 1, [0xaa], 0xbeef⟩) = true := by decide
theorem test_word_decQueryDown : reads [0x19, 0x02, 0x00, 0x01, 0x00, 0x05, 0x01, 0x01, 0xaa, 0x00, 0xbe, 0xef]
    (.decQueryDown ⟨1, 5, 1, [0xaa], 0xbeef⟩) = true := by decide
theorem test_word_encAnnounceUp : reads
    ([0x03, 0x03, 0x00, 0x01, 0x00, 0x05, 0x01, 0x01, 0x41, 0x00, 0x00, 0x01, 0x42, 0x00, 0x07, 0xe5, 0x00, 0x01, 0x00, 0x09] ++
    [0x00, 0x05, 0x00, 0x0a, 0x00, 0x21])
    (.encAnnounceUp ⟨1, 5, 1⟩ [(.wifiSerial, .bytes [0x41]), (.deviceSerial, .bytes []), (.deviceType, .bytes [0x42]), (.year, .u16 0x07e5),
      (.month, .u16 1), (.day, .u16 9), (.hour, .u16 5), (.minute, .u16 10), (.second, .u16 33)]) = true := by decide
theorem test_word_encEnergyUp : reads
    ([0x04, 0x03, 0x00, 0x01, 0x00, 0x05, 0x01, 0x01, 0x41, 0x00, 0x01, 0x42, 0x00, 0x03, 0x04, 0x05, 0x06, 0x07, 0x08, 0x00] ++
    [0x09, 0x00, 0x00, 0x00, 0x0a, 0x00, 0x0b, 0x00, 0x0c, 0x00, 0x00, 0x00, 0x0d, 0x00, 0x0e, 0x00, 0x0f, 0x00, 0x00, 0x00] ++
    [0x10, 0x00, 0x00, 0x00, 0x11, 0x00, 0x12, 0x00, 0x13, 0x00, 0x14, 0x00, 0x00, 0x00, 0x15, 0x00, 0x00, 0x00, 0x16, 0x00] ++
    [0x00, 0x00, 0x17, 0x00, 0x00, 0x00, 0x18, 0x00, 0x00, 0x00, 0x19, 0x00, 0x00, 0x00, 0x1a, 0x00, 0x00, 0x00, 0x1b, 0x00] ++
    [0x00, 0x00, 0x1c])
    (.encEnergyUp ⟨1, 5, 1⟩ [(.wifiSerial, .bytes [0x41]), (.inverterSerial, .bytes [0x42]), (.year, .u8 3), (.month, .u8 4), (.day, .u8 5),
      (.hour, .u8 6), (.minute, .u8 7), (.second, .u8 8), (.inverterStatus, .u16 9), (.ppv, .u32 10),
      (.vpv1, .u16 11), (.ipv1, .u16 12), (.ppv1, .u32 13), (.vpv2, .u16 14), (.ipv2, .u16 15),
      (.ppv2, .u32 16), (.pac, .u32 17), (.fac, .u16 18), (.vac1, .u16 19), (.iac1, .u16 20),
      (.pac1, .u32 21), (.eacToday, .u32 22), (.eacTotal, .u32 23), (.epvTotal, .u32 24), (.epv1Today, .u32 25),
      (.epv1Total, .u32 26), (.epv2Today, .u32 27), (.epv2Total, .u32 28)]) = true := by decide
theorem test_word_encBufferedUp : reads
    ([0x50, 0x03, 0x00, 0x01, 0x00, 0x05, 0x01, 0x01, 0x41, 0x00, 0x01, 0x42, 0x00, 0x03, 0x04, 0x05, 0x06, 0x07, 0x08, 0x00] ++
    [0x09, 0x00, 0x00, 0x00, 0x0a, 0x00, 0x0b, 0x00, 0x0c, 0x00, 0x00, 0x00, 0x0d, 0x00, 0x0e, 0x00, 0x0f, 0x00, 0x00, 0x00] ++
    [0x10, 0x00, 0x00, 0x00, 0x11, 0x00, 0x12, 0x00, 0x13, 0x00, 0x14, 0x00, 0x00, 0x00, 0x15, 0x00, 0x00, 0x00, 0x16, 0x00] ++
    [0x00, 0x00, 0x17, 0x00, 0x00, 0x00, 0x18, 0x00, 0x00, 0x00, 0x19, 0x00, 0x00, 0x00, 0x1a, 0x00, 0x00, 0x00, 0x1b, 0x00] ++
    [0x00, 0x00, 0x1c])
    (.encBufferedUp ⟨1, 5, 1⟩ [(.wifiSerial, .bytes [0x41]), (.inverterSerial, .bytes [0x42]), (.year, .u8 3), (.month, .u8 4), (.day, .u8 5),
      (.hour, .u8 6), (.minute, .u8 7), (.second, .u8 8), (.inverterStatus, .u16 9), (.ppv, .u32 10),
      (.vpv1, .u16 11), (.ipv1, .u16 12), (.ppv1, .u32 13), (.vpv2, .u16 14), (.ipv2, .u16 15),
      (.ppv2, .u32 16), (.pac, .u32 17), (.fac, .u16 18), (.vac1, .u16 19), (.iac1, .u16 20),
      (.pac1, .u32 21), (.eacToday, .u32 22), (.eacTotal, .u32 23), (.epvTotal, .u32 24), (.epv1Today, .u32 25),
      (.epv1Total, .u32 26), (.epv2Today, .u32 27), (.epv2Total, .u32 28)]) = true := by decide
theorem test_word_encPingUp : reads
    ([0x16, 0x03, 0x00, 0x01, 0x00, 0x05, 0x01, 0x01, 0x41, 0x00])
    (.encPingUp ⟨1, 5, 1⟩ [(.wifiSerial, .bytes [0x41])]) = true := by decide
theorem test_word_encConfigUp : reads
    ([0x18, 0x03, 0x00, 0x01, 0x00, 0x05, 0x01, 0x01, 0x41, 0x00, 0x00, 0x1f, 0x00, 0x02, 0x01, 0x35, 0x00])
    (.encConfigUp ⟨1, 5, 1⟩ [(.wifiSerial, .bytes [0x41]), (.configId, .u16 0x1f), (.configLength, .u16 2), (.configValue, .bytes [0x35])]) = true := by decide
theorem test_word_encQueryUp : reads
    ([0x19, 0x03, 0x00, 0x01, 0x00, 0x05, 0x01, 0x01, 0x41, 0x00, 0x00, 0x1f, 0x00, 0x02, 0x01, 0x35, 0x00])
    (.encQueryUp ⟨1, 5, 1⟩ [(.wifiSerial, .bytes [0x41]), (.configId, .u16 0x1f), (.configLength, .u16 2), (.configValue, .bytes [0x35])]) = true := by decide
theorem test_word_encAnnounceAck : reads
    ([0x03, 0x04, 0x00, 0x01, 0x00, 0x05, 0x01])
    (.encAnnounceAck ⟨1, 5, 1⟩) = true := by decide
theorem test_word_encEnergyAck : reads
    ([0x04, 0x04, 0x00, 0x01, 0x00, 0x05, 0x01])
    (.encEnergyAck ⟨1, 5, 1⟩) = true := by decide
theorem test_word_encBufferedAck : reads
    ([0x50, 0x04, 0x00, 0x01, 0x00, 0x05, 0x01])
    (.encBufferedAck ⟨1, 5, 1⟩) = true := by decide
theorem test_word_encPingDown : reads
    ([0x16, 0x04, 0x00, 0x01, 0x00, 0x05, 0x01, 0x01, 0x41, 0x00])
    (.encPingDown ⟨1, 5, 1⟩ [(.wifiSerial, .bytes [0x41])]) = true := by decide
theorem test_word_encConfigDown : reads
    ([0x18, 0x04, 0x00, 0x01, 0x00, 0x05, 0x01, 0x01, 0x41, 0x00, 0x00, 0x1f, 0x00, 0x02, 0x01, 0x35, 0x00])
    (.encConfigDown ⟨1, 5, 1⟩ [(.wifiSerial, .bytes [0x41]), (.configId, .u16 0x1f), (.configLength, .u16 2), (.configValue, .bytes [0x35])]) = true := by decide
theorem test_word_encQueryDown : reads
    ([0x19, 0x04, 0x00, 0x01, 0x00, 0x05, 0x01, 0x01, 0x41, 0x00, 0x00, 0x01, 0x00, 0x1f])
    (.encQueryDown ⟨1, 5, 1⟩ [(.wifiSerial, .bytes [0x41]), (.firstConfig, .u16 1), (.lastConfig, .u16 0x1f)]) = true := by decide
theorem test_word_decPass : reads [0x7f, 0x01, 0x00, 0x01, 0x00, 0x05, 0x01, 0x01, 0xaa, 0x00, 0xbe, 0xef] (.decPass 0x7f ⟨1, 5, 1, [0xaa], 0xbeef⟩) = true := by decide
theorem test_word_rawAny : reads [0x16, 0x05, 0x00, 0x01, 0x00, 0x05, 0x01, 0x01, 0x02, 0x00] (.rawAny ⟨1, 5, 1⟩ 0x16 [0x02]) = true := by decide
theorem test_word_empty : decode [] = .error .noInstruction := by rfl
theorem test_word_no_form : decode [0x01] = .error .noForm := by rfl
theorem test_word_reserved_form : decode [0x16, 0x06, 0x00] = .error (.reservedForm 6) := by rfl
theorem test_word_not_a_variant : decode [0x7f, 0x03, 0x00] = .error (.notAVariant 0x7f) := by rfl
theorem test_word_short_operands : decode [0x01, 0x00] = .error (.badOperands 1 0) := by rfl

/-- The table's eight operation codes and the four function codes that are no operation code. -/
theorem test_table_words :
    decodeTableWord 8 0 = some (.reset launchCfg) ∧ decodeTableWord 8 1 = some (.rxPush 0) ∧
    decodeTableWord 8 2 = some .rxPop ∧ decodeTableWord 8 5 = some .txTake ∧
    decodeTableWord 8 6 = some .reserved110 ∧ decodeTableWord 8 7 = some .reserved111 ∧
    decodeTableWord 8 4 = some (.txRaw ⟨0, 0, 0⟩ 0 []) ∧
    decodeTableWord 8 0x50 = some (.decBufferedUp ⟨0, 0, 0, [], 0⟩) ∧
    decodeTableWord 16 0x16 = some (.decPingUp ⟨0, 0, 0, [], 0⟩) ∧
    decodeTableWord 8 0x18 = some (.decConfigUp ⟨0, 0, 0, [], 0⟩) ∧
    decodeTableWord 8 0x19 = some (.decQueryUp ⟨0, 0, 0, [], 0⟩) ∧
    decodeTableWord 8 0x7f = some (.decPass 0x7f ⟨0, 0, 0, [], 0⟩) := by decide

/-! ## The configuration `T` of 95_test_vectors.md section 0 -/

/-- `KEY_T`. -/
def keyT : Bytes := [0x47, 0x72, 0x6f, 0x77, 0x61, 0x74, 0x74]

/-- `T` with a direction. -/
def cfgT (d : Dir) : Cfg := { launchCfg with key := keyT, rxDir := d }

/-- A block just reset with `T`. -/
def start (d : Dir) : State := resetTo (cfgT d) State.reset

/-- A block holding the first bytes of a stream, settled. -/
def buffered (d : Dir) (bs : Bytes) : State := settle { start d with rxBuf := bs }

/-- A property of the next state. -/
def nextIs (o : Out) (p : State → Bool) : Bool :=
  match o with
  | .next t => p t
  | .fault _ => false
  | .refused _ => false

/-- The refusal. -/
def refusedAs (o : Out) (r : Refusal) : Bool :=
  match o with
  | .refused q => decide (q = r)
  | .next _ => false
  | .fault _ => false

/-- "ABC1D2345E". -/
def wifi : Bytes := [0x41, 0x42, 0x43, 0x31, 0x44, 0x32, 0x33, 0x34, 0x35, 0x45]

/-- "WXY9Z87654". -/
def device : Bytes := [0x57, 0x58, 0x59, 0x39, 0x5a, 0x38, 0x37, 0x36, 0x35, 0x34]

/-- "2020-12-20 00:33:57". -/
def date : Bytes := [0x32, 0x30, 0x32, 0x30, 0x2d, 0x31, 0x32, 0x2d, 0x32, 0x30, 0x20, 0x30, 0x30, 0x3a, 0x33, 0x33, 0x3a, 0x35, 0x37]

/-- V-PING. -/
def vPing : Bytes := [0x00, 0x01, 0x00, 0x05, 0x00, 0x0c, 0x01, 0x16, 0x06, 0x30, 0x2c, 0x46, 0x25, 0x46, 0x47, 0x73, 0x47, 0x2a, 0x0b, 0x1d]

/-! ## Cipher and checksum -/

/-- R116, and V-XOR-16. -/
theorem test_xor_vectors :
    xorKey [] keyT = [] ∧ xorKey [0x41, 0x42, 0x43] keyT = [0x06, 0x30, 0x2c] ∧
    xorKey wifi keyT = [0x06, 0x30, 0x2c, 0x46, 0x25, 0x46, 0x47, 0x73, 0x47, 0x2a] ∧ xorKey keyT keyT = zeros 7 ∧
    xorKey [0, 1, 2, 3, 4, 5, 6, 7, 8, 9, 10, 11, 12, 13, 14, 15] keyT =
      [0x47, 0x73, 0x6d, 0x74, 0x65, 0x71, 0x72, 0x40, 0x7a, 0x66, 0x7d, 0x6a, 0x78, 0x79, 0x49, 0x7d] := by decide

/-- V-CRC-CHECK, V-CRC-EMPTY, V-CRC-00, V-CRC-FF, V-CRC-ACK. -/
theorem test_crc_vectors :
    crc16Modbus [0x31, 0x32, 0x33, 0x34, 0x35, 0x36, 0x37, 0x38, 0x39] = 0x4B37 ∧ crc16Modbus [] = 0xFFFF ∧
    crc16Modbus [0x00] = 0x40BF ∧ crc16Modbus [0xff] = 0x00FF ∧
    crc16Modbus [0x00, 0x01, 0x00, 0x05, 0x00, 0x03, 0x01, 0x03, 0x47] = 0x2FDA := by decide +kernel

/-- V-FRM-BUILD. -/
theorem test_frame_build : frameBuild (cfgT .up) 1 5 1 3 [0x47] =
    [0x00, 0x01, 0x00, 0x05, 0x00, 0x03, 0x01, 0x03, 0x47, 0xda, 0x2f] := by decide +kernel

/-- R89 and R153: the literals, and R92: the table passes its check. -/
theorem test_layout_table : layoutOk layoutTable = true ∧ legalCfg launchCfg = true := by decide +kernel

/-! ## The operations -/

/-- V-RST-1. -/
theorem test_reset : nextIs (exec (.reset (cfgT .down)) { start .up with rxBuf := [1], txQ := [2], rxPhase := .waitBody, rxNeed := 9 })
    (fun t => decide (t = start .down)) = true := by decide +kernel
/-- R9: an empty key. -/
theorem test_reset_illegal : refusedAs (exec (.reset { launchCfg with key := [], keyLen := 0 }) State.reset) .illegalConfig = true := by
  decide +kernel

/-- V-FRM-ROUND, the 20th byte. -/
theorem test_rxPush_ready : nextIs (exec (.rxPush 0x1d) (buffered .up (vPing.take 19)))
    (fun t => decide (t.rxPhase = .frameReady ∧ t.rxNeed = 20 ∧ t.hdr = ⟨1, 5, 12, 1⟩ ∧
      t.rxOut = some (.msg ⟨1, 5, 12, 1⟩ 0x16 .up .ping [(.wifiSerial, .bytes wifi)]) ∧ t.ev = [])) = true := by decide +kernel
/-- V-FRM-DEG1. -/
theorem test_rxPush_degenerate : nextIs (exec (.rxPush 0x01) (buffered .up [0x00, 0x09, 0x00, 0x05, 0x00, 0x01]))
    (fun t => decide (t.rxPhase = .waitHdr ∧ t.rxBuf = [] ∧ t.ev = [.degenerateLen 9 5 1 1])) = true := by decide +kernel

/-- V-FRM-HOLD: the pop parses the next header. -/
theorem test_rxPop_next_header :
    nextIs (exec .rxPop (buffered .up (vPing ++ [0x00, 0x02, 0x00, 0x05, 0x00, 0x0c, 0x01, 0x16, 0x06])))
    (fun t => decide (t.rxPhase = .waitBody ∧ t.hdr = ⟨2, 5, 12, 1⟩ ∧ t.rxNeed = 20 ∧ t.rxBuf.length = 9 ∧
      t.results = [.msg ⟨1, 5, 12, 1⟩ 0x16 .up .ping [(.wifiSerial, .bytes wifi)]] ∧ t.rxOut = none)) = true := by decide +kernel
theorem test_rxPop_nothing : refusedAs (exec .rxPop (start .up)) .rxOutNotValid = true := by decide +kernel

/-- V-QRY-ACK, through R187(a)'s command. -/
theorem test_txEnc_query_ack : nextIs (exec (queryAckCommand ⟨4, 5, 1⟩ wifi 4) (start .up))
    (fun t => decide (t.txQ = [0x00, 0x04, 0x00, 0x05, 0x00, 0x24, 0x01, 0x19, 0x06, 0x30, 0x2c, 0x46, 0x25, 0x46, 0x47, 0x73, 0x47, 0x2a, 0x77, 0x61] ++
    [0x74, 0x74, 0x47, 0x72, 0x6f, 0x77, 0x61, 0x74, 0x74, 0x47, 0x72, 0x6f, 0x77, 0x61, 0x74, 0x74, 0x47, 0x72, 0x6f, 0x73] ++
    [0x61, 0x70, 0xb6, 0x90])) = true := by decide +kernel
/-- V-TX-TOOLONG: the declared length 65500 makes a payload of 65534 bytes. -/
theorem test_txEnc_too_long_length : encodedLength configLayout [(.configLength, .u16 0xffdc)] = 65534 := by
  simp [encodedLength, configLayout, isVariable, declaredLength, List.lookup]
/-- V-TX-TOOLONG: nothing of such a payload is queued. -/
theorem test_txEnc_too_long (p : Bytes) (hp : maxPayload < p.length) :
    sendEncoded ⟨.config, .down⟩ ⟨0x10, 5, 1⟩ p (start .up) = emit (.txTooLong 0x10 0x18 p.length) (start .up) :=
  if_pos hp

/-- V-RAW-UNK. -/
theorem test_txRaw : nextIs (exec (.txRaw ⟨7, 5, 1⟩ 0x7f [1, 2, 3]) (start .up))
    (fun t => decide (t.txQ = [0x00, 0x07, 0x00, 0x05, 0x00, 0x05, 0x01, 0x7f, 0x01, 0x02, 0x03, 0x43, 0xe1])) = true := by
  decide +kernel
theorem test_txRaw_busy : refusedAs (exec (.txRaw ⟨7, 5, 1⟩ 0x7f []) { start .up with txQ := [1] }) .txCmdNotReady = true := by
  decide +kernel

/-- R192: the front byte leaves. -/
theorem test_txTake : nextIs (exec .txTake { start .up with txQ := [7, 8] })
    (fun t => decide (t.txQ = [8] ∧ t.taken = [7])) = true := by decide +kernel
theorem test_txTake_nothing : refusedAs (exec .txTake (start .up)) .txOutNotValid = true := by decide +kernel

/-- R97(e). -/
theorem test_reserved : refusedAs (exec .reserved110 (start .up)) (.reservedOperation 6) = true ∧
    refusedAs (exec .reserved111 (start .up)) (.reservedOperation 7) = true := by decide +kernel
/-- R242. -/
theorem test_before_reset : refusedAs (exec (.rxPush 0) State.powerOn) .beforeReset = true := by decide +kernel

/-! ## The receive rows (section 2.4) -/

/-- A frame arriving on an idle block leaves this result and these events. -/
def receives (i : Instr) (d : Dir) (r : Result) (ev : List Event) : Bool :=
  nextIs (exec i (start d)) (fun t => decide (t.rxPhase = .frameReady ∧ t.rxOut = some r ∧ t.ev = ev))

/-- V-ANN-UP, its plaintext payload decoded. -/
theorem test_decAnnounceUp : decodeFields announceLayout
    ([0x41, 0x42, 0x43, 0x31, 0x44, 0x32, 0x33, 0x34, 0x35, 0x45, 0x00, 0x00, 0x00, 0x00, 0x00, 0x00, 0x00, 0x00, 0x00, 0x00] ++
    [0x00, 0x00, 0x00, 0x00, 0x00, 0x00, 0x00, 0x00, 0x00, 0x00, 0x57, 0x58, 0x59, 0x39, 0x5a, 0x38, 0x37, 0x36, 0x35, 0x34] ++
    [0x00, 0x00, 0x00, 0x00, 0x00, 0x00, 0x00, 0x00, 0x00, 0x00, 0x00, 0x00, 0x00, 0x00, 0x00, 0x00, 0x00, 0x00, 0x00, 0x00] ++
    [0x00, 0x00, 0x00, 0x00, 0x00, 0x00, 0x00, 0x00, 0x00, 0x00, 0x00, 0x00, 0x00, 0x00, 0x00, 0x00, 0x00, 0x00, 0x00, 0x00] ++
    [0x00, 0x00, 0x00, 0x00, 0x00, 0x00, 0x00, 0x00, 0x00, 0x00, 0x00, 0x00, 0x00, 0x00, 0x00, 0x00, 0x00, 0x00, 0x00, 0x00] ++
    [0x00, 0x00, 0x00, 0x00, 0x00, 0x00, 0x00, 0x00, 0x00, 0x00, 0x00, 0x00, 0x00, 0x00, 0x00, 0x00, 0x00, 0x00, 0x00, 0x00] ++
    [0x00, 0x00, 0x00, 0x00, 0x00, 0x00, 0x00, 0x00, 0x00, 0x00, 0x00, 0x00, 0x00, 0x00, 0x00, 0x00, 0x00, 0x00, 0x00, 0x20] ++
    [0x20, 0x20, 0x50, 0x56, 0x20, 0x49, 0x6e, 0x76, 0x65, 0x72, 0x74, 0x65, 0x72, 0x20, 0x20, 0x00, 0x00, 0x00, 0x00, 0x00] ++
    [0x00, 0x07, 0xe5, 0x00, 0x01, 0x00, 0x09, 0x00, 0x05, 0x00, 0x0a, 0x00, 0x21]) =
    [(.wifiSerial, .bytes wifi), (.deviceSerial, .bytes device),
     (.deviceType, .bytes [0x20, 0x20, 0x20, 0x50, 0x56, 0x20, 0x49, 0x6e, 0x76, 0x65, 0x72, 0x74, 0x65, 0x72, 0x20, 0x20]),
     (.year, .u16 2021), (.month, .u16 1), (.day, .u16 9), (.hour, .u16 5), (.minute, .u16 10), (.second, .u16 33)] := by decide +kernel
/-- V-DEC-SHORTANN. -/
theorem test_decAnnounceUp_short : receives (.decAnnounceUp ⟨8, 5, 1, [0x06, 0x30, 0x2c, 0x46, 0x25, 0x46, 0x47, 0x73, 0x47, 0x2a], 0x4398⟩)
    .up (.derr ⟨8, 5, 12, 1⟩ 0x03 .up .announce 10 173) [.decodeShort 8 0x03 10 173] = true := by decide +kernel
/-- V-EN-UP, its plaintext payload decoded. -/
theorem test_decEnergyUp : decodeFields energyLayout
    ([0x41, 0x42, 0x43, 0x31, 0x44, 0x32, 0x33, 0x34, 0x35, 0x45, 0x00, 0x00, 0x00, 0x00, 0x00, 0x00, 0x00, 0x00, 0x00, 0x00] ++
    [0x00, 0x00, 0x00, 0x00, 0x00, 0x00, 0x00, 0x00, 0x00, 0x00, 0x57, 0x58, 0x59, 0x39, 0x5a, 0x38, 0x37, 0x36, 0x35, 0x34] ++
    [0x00, 0x00, 0x00, 0x00, 0x00, 0x00, 0x00, 0x00, 0x00, 0x00, 0x00, 0x00, 0x00, 0x00, 0x00, 0x00, 0x00, 0x00, 0x00, 0x00] ++
    [0x15, 0x01, 0x09, 0x05, 0x0a, 0x21, 0x00, 0x00, 0x00, 0x00, 0x00, 0x00, 0x01, 0x00, 0x00, 0x04, 0xd2, 0x08, 0xfd, 0x00] ++
    [0x1b, 0x00, 0x00, 0x02, 0x6d, 0x08, 0xe8, 0x00, 0x19, 0x00, 0x00, 0x02, 0x3a, 0x00, 0x00, 0x00, 0x00, 0x00, 0x00, 0x00] ++
    [0x00, 0x00, 0x00, 0x00, 0x00, 0x00, 0x00, 0x00, 0x00, 0x00, 0x00, 0x00, 0x00, 0x00, 0x00, 0x00, 0x00, 0x00, 0x00, 0x04] ++
    [0x9c, 0x13, 0x89, 0x09, 0x65, 0x00, 0x31, 0x00, 0x00, 0x04, 0x9c, 0x00, 0x00, 0x00, 0x00, 0x00, 0x00, 0x00, 0x00, 0x00] ++
    [0x00, 0x00, 0x00, 0x00, 0x00, 0x00, 0x00, 0x00, 0x00, 0x00, 0x00, 0x00, 0x00, 0x00, 0x00, 0x00, 0x00, 0x00, 0x00, 0x00] ++
    [0x00, 0x00, 0x00, 0x00, 0x00, 0x00, 0x00, 0x00, 0x00, 0x00, 0x00, 0x00, 0x0c, 0x00, 0x00, 0x87, 0x07, 0x00, 0x00, 0x88] ++
    [0xb8, 0x00, 0x00, 0x00, 0x06, 0x00, 0x00, 0x42, 0x68, 0x00, 0x00, 0x00, 0x06, 0x00, 0x00, 0x46, 0x50]) =
    [(.wifiSerial, .bytes wifi), (.inverterSerial, .bytes device), (.year, .u8 21), (.month, .u8 1), (.day, .u8 9),
      (.hour, .u8 5), (.minute, .u8 10), (.second, .u8 33), (.inverterStatus, .u16 1), (.ppv, .u32 1234),
      (.vpv1, .u16 2301), (.ipv1, .u16 27), (.ppv1, .u32 621), (.vpv2, .u16 2280), (.ipv2, .u16 25),
      (.ppv2, .u32 570), (.pac, .u32 1180), (.fac, .u16 5001), (.vac1, .u16 2405), (.iac1, .u16 49),
      (.pac1, .u32 1180), (.eacToday, .u32 12), (.eacTotal, .u32 34567), (.epvTotal, .u32 35000), (.epv1Today, .u32 6),
      (.epv1Total, .u32 17000), (.epv2Today, .u32 6), (.epv2Total, .u32 18000)] := by decide +kernel
/-- V-BUF-UP, its plaintext payload decoded. -/
theorem test_decBufferedUp : decodeFields (layoutOf layoutTable ⟨.bufferedEnergy, .up⟩)
    ([0x41, 0x42, 0x43, 0x31, 0x44, 0x32, 0x33, 0x34, 0x35, 0x45, 0x00, 0x00, 0x00, 0x00, 0x00, 0x00, 0x00, 0x00, 0x00, 0x00] ++
    [0x00, 0x00, 0x00, 0x00, 0x00, 0x00, 0x00, 0x00, 0x00, 0x00, 0x57, 0x58, 0x59, 0x39, 0x5a, 0x38, 0x37, 0x36, 0x35, 0x34] ++
    [0x00, 0x00, 0x00, 0x00, 0x00, 0x00, 0x00, 0x00, 0x00, 0x00, 0x00, 0x00, 0x00, 0x00, 0x00, 0x00, 0x00, 0x00, 0x00, 0x00] ++
    [0x00, 0x00, 0x00, 0x00, 0x00, 0x00, 0x00, 0x00, 0x00, 0x00, 0x00, 0x00, 0x00, 0x00, 0x00, 0x3a, 0x5f, 0x07, 0xcc, 0x00] ++
    [0x1a, 0x00, 0x00, 0x15, 0x43, 0x00, 0x00, 0x00, 0x00, 0x00, 0x00, 0x00, 0x00, 0x00, 0x00, 0x00, 0x00, 0x00, 0x00, 0x00] ++
    [0x00, 0x00, 0x00, 0x00, 0x00, 0x00, 0x00, 0x00, 0x00, 0x00, 0x00, 0x00, 0x00, 0x00, 0x00, 0x00, 0x00, 0x00, 0x00, 0x00] ++
    [0x00, 0x00, 0x00, 0x00, 0x00, 0x00, 0x00, 0x00, 0x00, 0x00, 0x00, 0x00, 0x00, 0x00, 0x00, 0x00, 0x00, 0x00, 0x00, 0x00] ++
    [0x00, 0x00, 0x00, 0x00, 0x00, 0x00, 0x00, 0x00, 0x00, 0x00, 0x00, 0x00, 0x00, 0x00, 0x00, 0x00, 0x00, 0x00, 0x00, 0x00] ++
    [0x00, 0x00, 0x00, 0x00, 0x00, 0x00, 0x00, 0x00, 0x00, 0x00, 0x00, 0x00, 0x2b, 0x00, 0x00, 0x71, 0x6e, 0x00, 0x00, 0x00] ++
    [0x00, 0x00, 0x00, 0x00, 0x00, 0x00, 0x00, 0x28, 0xb2, 0x00, 0x00, 0x00, 0x00, 0x00, 0x00, 0x48, 0xbc]) =
    [(.wifiSerial, .bytes wifi), (.inverterSerial, .bytes device), (.year, .u8 0), (.month, .u8 0), (.day, .u8 0),
      (.hour, .u8 0), (.minute, .u8 0), (.second, .u8 0), (.inverterStatus, .u16 0), (.ppv, .u32 14943),
      (.vpv1, .u16 1996), (.ipv1, .u16 26), (.ppv1, .u32 5443), (.vpv2, .u16 0), (.ipv2, .u16 0),
      (.ppv2, .u32 0), (.pac, .u32 0), (.fac, .u16 0), (.vac1, .u16 0), (.iac1, .u16 0),
      (.pac1, .u32 0), (.eacToday, .u32 43), (.eacTotal, .u32 29038), (.epvTotal, .u32 0), (.epv1Today, .u32 0),
      (.epv1Total, .u32 10418), (.epv2Today, .u32 0), (.epv2Total, .u32 18620)] := by decide +kernel
/-- V-DEC-PING. -/
theorem test_decPingUp : receives (.decPingUp ⟨1, 5, 1, [0x06, 0x30, 0x2c, 0x46, 0x25, 0x46, 0x47, 0x73, 0x47, 0x2a], 0x1d0b⟩)
    .up (.msg ⟨1, 5, 12, 1⟩ 0x16 .up .ping
    [(.wifiSerial, .bytes wifi)]) [] = true := by decide +kernel
/-- V-FRM-EMPTY16. -/
theorem test_decPingUp_empty : receives (.decPingUp ⟨9, 5, 1, [], 0x9534⟩)
    .up (.derr ⟨9, 5, 2, 1⟩ 0x16 .up .ping 0 10) [.decodeShort 9 0x16 0 10] = true := by decide +kernel
/-- V-DEC-PINGD. -/
theorem test_decPingDown : receives (.decPingDown ⟨1, 5, 1, [0x06, 0x30, 0x2c, 0x46, 0x25, 0x46, 0x47, 0x73, 0x47, 0x2a], 0x1d0b⟩)
    .down (.msg ⟨1, 5, 12, 1⟩ 0x16 .down .ping
    [(.wifiSerial, .bytes wifi)]) [] = true := by decide +kernel
/-- V-DEC-CFGD. -/
theorem test_decConfigDown : receives (.decConfigDown ⟨1, 5, 1, [0x06, 0x30, 0x2c, 0x46, 0x25, 0x46, 0x47, 0x73, 0x47, 0x2a, 0x77, 0x61, 0x74, 0x74, 0x47, 0x72, 0x6f, 0x77, 0x61, 0x74] ++
    [0x74, 0x47, 0x72, 0x6f, 0x77, 0x61, 0x74, 0x74, 0x47, 0x72, 0x6f, 0x68, 0x61, 0x67, 0x46, 0x77, 0x40, 0x5f, 0x5a, 0x50] ++
    [0x46, 0x59, 0x75, 0x42, 0x4f, 0x47, 0x51, 0x4e, 0x47, 0x74, 0x48, 0x5a, 0x40], 0x9ce1⟩)
    .down (.msg ⟨1, 5, 55, 1⟩ 0x18 .down .config
    [(.wifiSerial, .bytes wifi), (.configId, .u16 31), (.configLength, .u16 19), (.configValue, .bytes date)]) [] = true := by decide +kernel
/-- V-DEC-CFGU. -/
theorem test_decConfigUp : receives (.decConfigUp ⟨1, 5, 1, [0x06, 0x30, 0x2c, 0x46, 0x25, 0x46, 0x47, 0x73, 0x47, 0x2a, 0x77, 0x61, 0x74, 0x74, 0x47, 0x72, 0x6f, 0x77, 0x61, 0x74] ++
    [0x74, 0x47, 0x72, 0x6f, 0x77, 0x61, 0x74, 0x74, 0x47, 0x72, 0x6f, 0x68, 0x61, 0x67, 0x46, 0x77, 0x40, 0x5f, 0x5a, 0x50] ++
    [0x46, 0x59, 0x75, 0x42, 0x4f, 0x47, 0x51, 0x4e, 0x47, 0x74, 0x48, 0x5a, 0x40], 0x9ce1⟩)
    .up (.msg ⟨1, 5, 55, 1⟩ 0x18 .up .config
    [(.wifiSerial, .bytes wifi), (.configId, .u16 31), (.configLength, .u16 19), (.configValue, .bytes date)]) [] = true := by decide +kernel
/-- V-DEC-CFGSHORT. -/
theorem test_decConfigUp_short : receives (.decConfigUp ⟨1, 5, 1, [0x06, 0x30, 0x2c, 0x46, 0x25, 0x46, 0x47, 0x73, 0x47, 0x2a, 0x77, 0x61, 0x74, 0x74, 0x47, 0x72, 0x6f, 0x77, 0x61, 0x74] ++
    [0x74, 0x47, 0x72, 0x6f, 0x77, 0x61, 0x74, 0x74, 0x47, 0x72, 0x6f, 0x73, 0x61, 0x71, 0x45, 0x75], 0x3512⟩)
    .up (.derr ⟨1, 5, 38, 1⟩ 0x18 .up .config 36 39) [.decodeShort 1 0x18 36 39] = true := by decide +kernel
/-- V-DEC-QD. -/
theorem test_decQueryDown : receives (.decQueryDown ⟨1, 5, 1, [0x06, 0x30, 0x2c, 0x46, 0x25, 0x46, 0x47, 0x73, 0x47, 0x2a, 0x77, 0x61, 0x74, 0x74, 0x47, 0x72, 0x6f, 0x77, 0x61, 0x74] ++
    [0x74, 0x47, 0x72, 0x6f, 0x77, 0x61, 0x74, 0x74, 0x47, 0x72, 0x6f, 0x76, 0x61, 0x6b], 0x53fb⟩)
    .down (.msg ⟨1, 5, 36, 1⟩ 0x19 .down .query
    [(.wifiSerial, .bytes wifi), (.firstConfig, .u16 1), (.lastConfig, .u16 31)]) [] = true := by decide +kernel
/-- V-DEC-QU. -/
theorem test_decQueryUp : receives (.decQueryUp ⟨4, 5, 1, [0x06, 0x30, 0x2c, 0x46, 0x25, 0x46, 0x47, 0x73, 0x47, 0x2a, 0x77, 0x61, 0x74, 0x74, 0x47, 0x72, 0x6f, 0x77, 0x61, 0x74] ++
    [0x74, 0x47, 0x72, 0x6f, 0x77, 0x61, 0x74, 0x74, 0x47, 0x72, 0x6f, 0x73, 0x61, 0x75, 0x41], 0x1f43⟩)
    .up (.msg ⟨4, 5, 37, 1⟩ 0x19 .up .query
    [(.wifiSerial, .bytes wifi), (.configId, .u16 4), (.configLength, .u16 1), (.configValue, .bytes [0x35])]) [] = true := by decide +kernel
/-- V-DEC-QDASUP. -/
theorem test_decQueryUp_short : receives (.decQueryUp ⟨1, 5, 1, [0x06, 0x30, 0x2c, 0x46, 0x25, 0x46, 0x47, 0x73, 0x47, 0x2a, 0x77, 0x61, 0x74, 0x74, 0x47, 0x72, 0x6f, 0x77, 0x61, 0x74] ++
    [0x74, 0x47, 0x72, 0x6f, 0x77, 0x61, 0x74, 0x74, 0x47, 0x72, 0x6f, 0x76, 0x61, 0x6b], 0x53fb⟩)
    .up (.derr ⟨1, 5, 36, 1⟩ 0x19 .up .query 34 65) [.decodeShort 1 0x19 34 65] = true := by decide +kernel
/-- V-DEC-ACK. -/
theorem test_decAnnounceAck : receives (.decAnnounceAck ⟨1, 5, 1, [0x47], 0x2fda⟩)
    .down (.msg ⟨1, 5, 3, 1⟩ 0x03 .down .announce
    [(.ack, .u8 0)]) [] = true := by decide +kernel
/-- V-DEC-ANNASACK. -/
theorem test_decAnnounceAck_long : receives (.decAnnounceAck ⟨8, 5, 1, [0x06, 0x30, 0x2c, 0x46, 0x25, 0x46, 0x47, 0x73, 0x47, 0x2a], 0x4398⟩)
    .down (.msg ⟨8, 5, 12, 1⟩ 0x03 .down .announce
    [(.ack, .u8 0x41)]) [] = true := by decide +kernel
/-- V-DEC-ACK4. -/
theorem test_decEnergyAck : receives (.decEnergyAck ⟨1, 5, 1, [0x47], 0x1fd8⟩)
    .down (.msg ⟨1, 5, 3, 1⟩ 0x04 .down .energy
    [(.ack, .u8 0)]) [] = true := by decide +kernel
/-- V-DEC-ACK50. -/
theorem test_decBufferedAck : receives (.decBufferedAck ⟨1, 5, 1, [0x47], 0xdfe6⟩)
    .down (.msg ⟨1, 5, 3, 1⟩ 0x50 .down .bufferedEnergy
    [(.ack, .u8 0)]) [] = true := by decide +kernel
/-- V-DEC-UNK. -/
theorem test_decPass : receives (.decPass 0x7f ⟨7, 5, 1, [0x01, 0x02, 0x03], 0xe143⟩) .up
    (.pass ⟨7, 5, 5, 1⟩ 0x7f [0x00, 0x07, 0x00, 0x05, 0x00, 0x05, 0x01, 0x7f, 0x01, 0x02, 0x03, 0x43, 0xe1]) [.unknownFc 7 0x7f] = true := by decide +kernel
/-- V-FRM-CHK. -/
theorem test_decPingUp_corrupt : nextIs (exec (.decPingUp ⟨1, 5, 1, [0x07, 0x30, 0x2c, 0x46, 0x25, 0x46, 0x47, 0x73, 0x47, 0x2a], 0x1d0b⟩) (start .up))
    (fun t => decide (t.rxPhase = .waitHdr ∧ t.rxBuf = [] ∧ t.rxOut = none ∧ t.ev = [.chkFail 1 5 12 1 0x1D0B 0xD85A])) = true := by
  decide +kernel
/-- R151: the configured direction selects the variant. -/
theorem test_decPingUp_not_selected : refusedAs (exec (.decPingUp ⟨1, 5, 1, [], 0⟩) (start .down)) .variantNotSelected = true := by
  decide +kernel

/-! ## The transmit rows (section 2.5) -/

/-- From an empty queue the instruction queues these bytes. -/
def queues (i : Instr) (bs : Bytes) : Bool := nextIs (exec i (start .up)) (fun t => decide (t.txQ = bs ∧ t.ev = []))

/-- V-ANN-UP, its plaintext payload. -/
theorem test_encAnnounceUp : encodePayload (cfgT .up) ⟨.announce, .up⟩
    [(.wifiSerial, .bytes wifi), (.deviceSerial, .bytes device),
     (.deviceType, .bytes [0x20, 0x20, 0x20, 0x50, 0x56, 0x20, 0x49, 0x6e, 0x76, 0x65, 0x72, 0x74, 0x65, 0x72, 0x20, 0x20]),
     (.year, .u16 2021), (.month, .u16 1), (.day, .u16 9), (.hour, .u16 5), (.minute, .u16 10), (.second, .u16 33)] =
    ([0x41, 0x42, 0x43, 0x31, 0x44, 0x32, 0x33, 0x34, 0x35, 0x45, 0x00, 0x00, 0x00, 0x00, 0x00, 0x00, 0x00, 0x00, 0x00, 0x00] ++
    [0x00, 0x00, 0x00, 0x00, 0x00, 0x00, 0x00, 0x00, 0x00, 0x00, 0x57, 0x58, 0x59, 0x39, 0x5a, 0x38, 0x37, 0x36, 0x35, 0x34] ++
    [0x00, 0x00, 0x00, 0x00, 0x00, 0x00, 0x00, 0x00, 0x00, 0x00, 0x00, 0x00, 0x00, 0x00, 0x00, 0x00, 0x00, 0x00, 0x00, 0x00] ++
    [0x00, 0x00, 0x00, 0x00, 0x00, 0x00, 0x00, 0x00, 0x00, 0x00, 0x00, 0x00, 0x00, 0x00, 0x00, 0x00, 0x00, 0x00, 0x00, 0x00] ++
    [0x00, 0x00, 0x00, 0x00, 0x00, 0x00, 0x00, 0x00, 0x00, 0x00, 0x00, 0x00, 0x00, 0x00, 0x00, 0x00, 0x00, 0x00, 0x00, 0x00] ++
    [0x00, 0x00, 0x00, 0x00, 0x00, 0x00, 0x00, 0x00, 0x00, 0x00, 0x00, 0x00, 0x00, 0x00, 0x00, 0x00, 0x00, 0x00, 0x00, 0x00] ++
    [0x00, 0x00, 0x00, 0x00, 0x00, 0x00, 0x00, 0x00, 0x00, 0x00, 0x00, 0x00, 0x00, 0x00, 0x00, 0x00, 0x00, 0x00, 0x00, 0x20] ++
    [0x20, 0x20, 0x50, 0x56, 0x20, 0x49, 0x6e, 0x76, 0x65, 0x72, 0x74, 0x65, 0x72, 0x20, 0x20, 0x00, 0x00, 0x00, 0x00, 0x00] ++
    [0x00, 0x07, 0xe5, 0x00, 0x01, 0x00, 0x09, 0x00, 0x05, 0x00, 0x0a, 0x00, 0x21]) := by decide +kernel
/-- V-EN-UP, its plaintext payload. -/
theorem test_encEnergyUp : encodePayload (cfgT .up) ⟨.energy, .up⟩
    [(.wifiSerial, .bytes wifi), (.inverterSerial, .bytes device), (.year, .u8 21), (.month, .u8 1), (.day, .u8 9),
      (.hour, .u8 5), (.minute, .u8 10), (.second, .u8 33), (.inverterStatus, .u16 1), (.ppv, .u32 1234),
      (.vpv1, .u16 2301), (.ipv1, .u16 27), (.ppv1, .u32 621), (.vpv2, .u16 2280), (.ipv2, .u16 25),
      (.ppv2, .u32 570), (.pac, .u32 1180), (.fac, .u16 5001), (.vac1, .u16 2405), (.iac1, .u16 49),
      (.pac1, .u32 1180), (.eacToday, .u32 12), (.eacTotal, .u32 34567), (.epvTotal, .u32 35000), (.epv1Today, .u32 6),
      (.epv1Total, .u32 17000), (.epv2Today, .u32 6), (.epv2Total, .u32 18000)] =
    [0x41, 0x42, 0x43, 0x31, 0x44, 0x32, 0x33, 0x34, 0x35, 0x45, 0x00, 0x00, 0x00, 0x00, 0x00, 0x00, 0x00, 0x00, 0x00, 0x00] ++
    [0x00, 0x00, 0x00, 0x00, 0x00, 0x00, 0x00, 0x00, 0x00, 0x00, 0x57, 0x58, 0x59, 0x39, 0x5a, 0x38, 0x37, 0x36, 0x35, 0x34] ++
    [0x00, 0x00, 0x00, 0x00, 0x00, 0x00, 0x00, 0x00, 0x00, 0x00, 0x00, 0x00, 0x00, 0x00, 0x00, 0x00, 0x00, 0x00, 0x00, 0x00] ++
    [0x15, 0x01, 0x09, 0x05, 0x0a, 0x21, 0x00, 0x00, 0x00, 0x00, 0x00, 0x00, 0x01, 0x00, 0x00, 0x04, 0xd2, 0x08, 0xfd, 0x00] ++
    [0x1b, 0x00, 0x00, 0x02, 0x6d, 0x08, 0xe8, 0x00, 0x19, 0x00, 0x00, 0x02, 0x3a, 0x00, 0x00, 0x00, 0x00, 0x00, 0x00, 0x00] ++
    [0x00, 0x00, 0x00, 0x00, 0x00, 0x00, 0x00, 0x00, 0x00, 0x00, 0x00, 0x00, 0x00, 0x00, 0x00, 0x00, 0x00, 0x00, 0x00, 0x04] ++
    [0x9c, 0x13, 0x89, 0x09, 0x65, 0x00, 0x31, 0x00, 0x00, 0x04, 0x9c, 0x00, 0x00, 0x00, 0x00, 0x00, 0x00, 0x00, 0x00, 0x00] ++
    [0x00, 0x00, 0x00, 0x00, 0x00, 0x00, 0x00, 0x00, 0x00, 0x00, 0x00, 0x00, 0x00, 0x00, 0x00, 0x00, 0x00, 0x00, 0x00, 0x00] ++
    [0x00, 0x00, 0x00, 0x00, 0x00, 0x00, 0x00, 0x00, 0x00, 0x00, 0x00, 0x00, 0x0c, 0x00, 0x00, 0x87, 0x07, 0x00, 0x00, 0x88] ++
    [0xb8, 0x00, 0x00, 0x00, 0x06, 0x00, 0x00, 0x42, 0x68, 0x00, 0x00, 0x00, 0x06, 0x00, 0x00, 0x46, 0x50] := by decide +kernel
/-- V-BUF-UP, its plaintext payload. -/
theorem test_encBufferedUp : encodePayload (cfgT .up) ⟨.bufferedEnergy, .up⟩
    [(.wifiSerial, .bytes wifi), (.inverterSerial, .bytes device), (.year, .u8 0), (.month, .u8 0), (.day, .u8 0),
      (.hour, .u8 0), (.minute, .u8 0), (.second, .u8 0), (.inverterStatus, .u16 0), (.ppv, .u32 14943),
      (.vpv1, .u16 1996), (.ipv1, .u16 26), (.ppv1, .u32 5443), (.vpv2, .u16 0), (.ipv2, .u16 0),
      (.ppv2, .u32 0), (.pac, .u32 0), (.fac, .u16 0), (.vac1, .u16 0), (.iac1, .u16 0),
      (.pac1, .u32 0), (.eacToday, .u32 43), (.eacTotal, .u32 29038), (.epvTotal, .u32 0), (.epv1Today, .u32 0),
      (.epv1Total, .u32 10418), (.epv2Today, .u32 0), (.epv2Total, .u32 18620)] =
    [0x41, 0x42, 0x43, 0x31, 0x44, 0x32, 0x33, 0x34, 0x35, 0x45, 0x00, 0x00, 0x00, 0x00, 0x00, 0x00, 0x00, 0x00, 0x00, 0x00] ++
    [0x00, 0x00, 0x00, 0x00, 0x00, 0x00, 0x00, 0x00, 0x00, 0x00, 0x57, 0x58, 0x59, 0x39, 0x5a, 0x38, 0x37, 0x36, 0x35, 0x34] ++
    [0x00, 0x00, 0x00, 0x00, 0x00, 0x00, 0x00, 0x00, 0x00, 0x00, 0x00, 0x00, 0x00, 0x00, 0x00, 0x00, 0x00, 0x00, 0x00, 0x00] ++
    [0x00, 0x00, 0x00, 0x00, 0x00, 0x00, 0x00, 0x00, 0x00, 0x00, 0x00, 0x00, 0x00, 0x00, 0x00, 0x3a, 0x5f, 0x07, 0xcc, 0x00] ++
    [0x1a, 0x00, 0x00, 0x15, 0x43, 0x00, 0x00, 0x00, 0x00, 0x00, 0x00, 0x00, 0x00, 0x00, 0x00, 0x00, 0x00, 0x00, 0x00, 0x00] ++
    [0x00, 0x00, 0x00, 0x00, 0x00, 0x00, 0x00, 0x00, 0x00, 0x00, 0x00, 0x00, 0x00, 0x00, 0x00, 0x00, 0x00, 0x00, 0x00, 0x00] ++
    [0x00, 0x00, 0x00, 0x00, 0x00, 0x00, 0x00, 0x00, 0x00, 0x00, 0x00, 0x00, 0x00, 0x00, 0x00, 0x00, 0x00, 0x00, 0x00, 0x00] ++
    [0x00, 0x00, 0x00, 0x00, 0x00, 0x00, 0x00, 0x00, 0x00, 0x00, 0x00, 0x00, 0x00, 0x00, 0x00, 0x00, 0x00, 0x00, 0x00, 0x00] ++
    [0x00, 0x00, 0x00, 0x00, 0x00, 0x00, 0x00, 0x00, 0x00, 0x00, 0x00, 0x00, 0x2b, 0x00, 0x00, 0x71, 0x6e, 0x00, 0x00, 0x00] ++
    [0x00, 0x00, 0x00, 0x00, 0x00, 0x00, 0x00, 0x28, 0xb2, 0x00, 0x00, 0x00, 0x00, 0x00, 0x00, 0x48, 0xbc] := by decide +kernel
/-- V-PING. -/
theorem test_encPingUp : queues (.encPingUp ⟨1, 5, 1⟩ [(.wifiSerial, .bytes wifi)])
    ([0x00, 0x01, 0x00, 0x05, 0x00, 0x0c, 0x01, 0x16, 0x06, 0x30, 0x2c, 0x46, 0x25, 0x46, 0x47, 0x73, 0x47, 0x2a, 0x0b, 0x1d]) = true := by decide +kernel
/-- V-PING-DOWN. -/
theorem test_encPingDown : queues (.encPingDown ⟨1, 5, 1⟩ [(.wifiSerial, .bytes wifi)])
    ([0x00, 0x01, 0x00, 0x05, 0x00, 0x0c, 0x01, 0x16, 0x06, 0x30, 0x2c, 0x46, 0x25, 0x46, 0x47, 0x73, 0x47, 0x2a, 0x0b, 0x1d]) = true := by decide +kernel
/-- V-ACK-03. -/
theorem test_encAnnounceAck : queues (.encAnnounceAck ⟨1, 5, 1⟩)
    ([0x00, 0x01, 0x00, 0x05, 0x00, 0x03, 0x01, 0x03, 0x47, 0xda, 0x2f]) = true := by decide +kernel
/-- V-ACK-04. -/
theorem test_encEnergyAck : queues (.encEnergyAck ⟨1, 5, 1⟩)
    ([0x00, 0x01, 0x00, 0x05, 0x00, 0x03, 0x01, 0x04, 0x47, 0xd8, 0x1f]) = true := by decide +kernel
/-- V-ACK-50. -/
theorem test_encBufferedAck : queues (.encBufferedAck ⟨1, 5, 1⟩)
    ([0x00, 0x01, 0x00, 0x05, 0x00, 0x03, 0x01, 0x50, 0x47, 0xe6, 0xdf]) = true := by decide +kernel
/-- V-CFG-DOWN. -/
theorem test_encConfigDown : queues (.encConfigDown ⟨1, 5, 1⟩ [(.wifiSerial, .bytes wifi), (.configId, .u16 31), (.configLength, .u16 19), (.configValue, .bytes date)])
    ([0x00, 0x01, 0x00, 0x05, 0x00, 0x37, 0x01, 0x18, 0x06, 0x30, 0x2c, 0x46, 0x25, 0x46, 0x47, 0x73, 0x47, 0x2a, 0x77, 0x61] ++
    [0x74, 0x74, 0x47, 0x72, 0x6f, 0x77, 0x61, 0x74, 0x74, 0x47, 0x72, 0x6f, 0x77, 0x61, 0x74, 0x74, 0x47, 0x72, 0x6f, 0x68] ++
    [0x61, 0x67, 0x46, 0x77, 0x40, 0x5f, 0x5a, 0x50, 0x46, 0x59, 0x75, 0x42, 0x4f, 0x47, 0x51, 0x4e, 0x47, 0x74, 0x48, 0x5a] ++
    [0x40, 0xe1, 0x9c]) = true := by decide +kernel
/-- V-CFG-TRUNC. -/
theorem test_encConfigDown_truncates : queues (.encConfigDown ⟨1, 5, 1⟩ [(.wifiSerial, .bytes wifi), (.configId, .u16 4), (.configLength, .u16 2),
     (.configValue, .bytes [0x31, 0x32, 0x33, 0x34, 0x35])])
    ([0x00, 0x01, 0x00, 0x05, 0x00, 0x26, 0x01, 0x18, 0x06, 0x30, 0x2c, 0x46, 0x25, 0x46, 0x47, 0x73, 0x47, 0x2a, 0x77, 0x61] ++
    [0x74, 0x74, 0x47, 0x72, 0x6f, 0x77, 0x61, 0x74, 0x74, 0x47, 0x72, 0x6f, 0x77, 0x61, 0x74, 0x74, 0x47, 0x72, 0x6f, 0x73] ++
    [0x61, 0x76, 0x45, 0x75, 0xa3, 0xf4]) = true := by decide +kernel
/-- V-CFG-UP. -/
theorem test_encConfigUp : queues (.encConfigUp ⟨1, 5, 1⟩ [(.wifiSerial, .bytes wifi), (.configId, .u16 31), (.configLength, .u16 19), (.configValue, .bytes date)])
    ([0x00, 0x01, 0x00, 0x05, 0x00, 0x37, 0x01, 0x18, 0x06, 0x30, 0x2c, 0x46, 0x25, 0x46, 0x47, 0x73, 0x47, 0x2a, 0x77, 0x61] ++
    [0x74, 0x74, 0x47, 0x72, 0x6f, 0x77, 0x61, 0x74, 0x74, 0x47, 0x72, 0x6f, 0x77, 0x61, 0x74, 0x74, 0x47, 0x72, 0x6f, 0x68] ++
    [0x61, 0x67, 0x46, 0x77, 0x40, 0x5f, 0x5a, 0x50, 0x46, 0x59, 0x75, 0x42, 0x4f, 0x47, 0x51, 0x4e, 0x47, 0x74, 0x48, 0x5a] ++
    [0x40, 0xe1, 0x9c]) = true := by decide +kernel
/-- V-CFG-PAD. -/
theorem test_encConfigUp_pads : queues (.encConfigUp ⟨1, 5, 1⟩ [(.wifiSerial, .bytes wifi), (.configId, .u16 4), (.configLength, .u16 3), (.configValue, .bytes [0x31])])
    ([0x00, 0x01, 0x00, 0x05, 0x00, 0x27, 0x01, 0x18, 0x06, 0x30, 0x2c, 0x46, 0x25, 0x46, 0x47, 0x73, 0x47, 0x2a, 0x77, 0x61] ++
    [0x74, 0x74, 0x47, 0x72, 0x6f, 0x77, 0x61, 0x74, 0x74, 0x47, 0x72, 0x6f, 0x77, 0x61, 0x74, 0x74, 0x47, 0x72, 0x6f, 0x73] ++
    [0x61, 0x77, 0x45, 0x47, 0x72, 0x8d, 0x06]) = true := by decide +kernel
/-- V-QRY-DOWN. -/
theorem test_encQueryDown : queues (.encQueryDown ⟨1, 5, 1⟩ [(.wifiSerial, .bytes wifi), (.firstConfig, .u16 1), (.lastConfig, .u16 31)])
    ([0x00, 0x01, 0x00, 0x05, 0x00, 0x24, 0x01, 0x19, 0x06, 0x30, 0x2c, 0x46, 0x25, 0x46, 0x47, 0x73, 0x47, 0x2a, 0x77, 0x61] ++
    [0x74, 0x74, 0x47, 0x72, 0x6f, 0x77, 0x61, 0x74, 0x74, 0x47, 0x72, 0x6f, 0x77, 0x61, 0x74, 0x74, 0x47, 0x72, 0x6f, 0x76] ++
    [0x61, 0x6b, 0xfb, 0x53]) = true := by decide +kernel
/-- V-QRY-UP. -/
theorem test_encQueryUp : queues (.encQueryUp ⟨4, 5, 1⟩ [(.wifiSerial, .bytes wifi), (.configId, .u16 4), (.configLength, .u16 1), (.configValue, .bytes [0x35])])
    ([0x00, 0x04, 0x00, 0x05, 0x00, 0x25, 0x01, 0x19, 0x06, 0x30, 0x2c, 0x46, 0x25, 0x46, 0x47, 0x73, 0x47, 0x2a, 0x77, 0x61] ++
    [0x74, 0x74, 0x47, 0x72, 0x6f, 0x77, 0x61, 0x74, 0x74, 0x47, 0x72, 0x6f, 0x77, 0x61, 0x74, 0x74, 0x47, 0x72, 0x6f, 0x73] ++
    [0x61, 0x75, 0x41, 0x43, 0x1f]) = true := by decide +kernel
/-- V-RAW-EMPTY. -/
theorem test_rawAny : queues (.rawAny ⟨9, 5, 1⟩ 0x16 [])
    ([0x00, 0x09, 0x00, 0x05, 0x00, 0x02, 0x01, 0x16, 0x34, 0x95]) = true := by decide +kernel

/-! ## The step -/

/-- The step takes the instruction off the script and runs it. -/
theorem test_step_push : nextIs (step { start .up with script := [0x01, 0x00, 0x5a, 0x02, 0x00] })
    (fun t => decide (t.rxBuf = [0x5a] ∧ t.script = [0x02, 0x00])) = true := by decide +kernel
theorem test_step_exhausted : refusedAs (step State.reset) .scriptExhausted = true := by decide +kernel
theorem test_step_undecodable : refusedAs (step { State.reset with script := [0x16, 0x06] }) (.undecodable (.reservedForm 6)) = true := by
  decide +kernel
/-- A table word placed by withFetchWord is what the next step runs. -/
theorem test_withFetchWord : nextIs (step (State.reset.withFetchWord 8 1)) (fun t => decide (t.rxBuf = [0])) = true := by
  decide +kernel
/-- R99: `take all`. -/
theorem test_line_takeAll : nextIs (execLine launchCfg .takeAll { start .up with txQ := [1, 2, 3] })
    (fun t => decide (t.txQ = [] ∧ t.taken = [1, 2, 3])) = true := by decide +kernel
/-- R254. -/
theorem test_reset_quiescent : quiescent State.reset = true := by decide
/-- R254: with operations still to perform the run is not complete, so not quiescent, though both flags are false. -/
theorem test_incomplete_not_quiescent : rxOutValid { State.reset with script := [0x05, 0x00] } = false ∧
    txOutValid { State.reset with script := [0x05, 0x00] } = false ∧
    complete { State.reset with script := [0x05, 0x00] } = false ∧
    quiescent { State.reset with script := [0x05, 0x00] } = false := by decide
/-- R254: a complete run with a byte still to take is not quiescent. -/
theorem test_untaken_not_quiescent : complete { State.reset with txQ := [7] } = true ∧
    quiescent { State.reset with txQ := [7] } = false := by decide
/-- R136, on the corrupt frame of V-FRM-CHK: its 20 bytes are accounted for. -/
theorem test_accounting : nextIs (exec (.decPingUp ⟨1, 5, 1, zeros 10, 0⟩) (start .up)) (fun t => decide (accountedBytes t = 20)) = true := by
  decide +kernel

/-! ## Witnesses: a state and operands that meet the hypotheses of each obligation, clause by clause -/

/-- An instruction has a next state. -/
def runs (i : Instr) (s : State) : Bool := nextIs (exec i s) (fun _ => true)

/-- A frame that the checksum of `T` verifies. -/
def sealed (fc : Byte) (p : Bytes) : RxFrame := ⟨1, 5, 1, p, crc16Modbus (frameHead 1 5 1 fc p)⟩

/-- A frame of the largest payload, all 0x00. -/
def largest : Bytes := zeros 65533

theorem length_largest : largest.length = 65533 := List.length_replicate

/-- A wire payload of CONFIG shape under `KEY_T` that declares two value bytes and has them. -/
def configWire : Bytes := xorKey (zeros 33 ++ [2, 9, 9]) keyT

/-- A block in FRAME_READY: the frame of V-PING, and 6 bytes behind it. -/
def held : State := buffered .up (vPing ++ [1, 2, 3, 4, 5, 6])

theorem witness_DecodeInvertsEncode :
    Instr.wellFormed (.txEnc ⟨1, 5, 1⟩ .ping .down [(.wifiSerial, .bytes [0x41])]) = true := by decide
theorem witness_DecodedIsWellFormed : decode [0x01, 0x00, 0x5a] = .ok (.rxPush 0x5a, []) := by rfl
theorem witness_StepRunsNextInstruction :
    decode { start .up with script := [0x02, 0x00] }.script = .ok (.rxPop, []) ∧ State.reset.script = [] := by
  exact ⟨rfl, rfl⟩
theorem witness_ResetWritesEveryField :
    legalCfg (cfgT .down) = true ∧ legalCfg { launchCfg with bufCap := 65542 } = false := by decide +kernel
theorem witness_LegalConfigurations : legalCfg { launchCfg with key := [0], keyLen := 1, bufCap := 65543 } = true ∧
    1 ≤ (cfgT .up).keyLen ∧ (cfgT .up).key.length = (cfgT .up).keyLen ∧ 65543 ≤ (cfgT .up).bufCap ∧
    (cfgT .up).layout = layoutTable := by decide +kernel
theorem witness_FlagsOfTheState : runs (.reset (cfgT .down)) { start .up with txQ := [1] } = true := by decide +kernel
theorem witness_NothingBeforeFirstReset : State.powerOn.launched = false ∧ ∀ c, Instr.rxPop ≠ .reset c := by
  exact ⟨rfl, fun _ h => nomatch h⟩
theorem witness_ConfigChangesOnlyByReset : runs (.rxPush 1) (start .up) = true ∧ runs (.reset (cfgT .down)) (start .up) = true := by
  decide +kernel

/-- A block just reset with `T` that holds the first bytes of a header has the invariants. -/
theorem witness_good : Good { start .up with rxBuf := [1, 2], script := [0x01, 0x00, 0x5a] } := by
  refine ⟨by decide +kernel, ?_, ?_, ?_, by decide +kernel, ?_, ?_, ?_, by decide +kernel⟩ <;> simp [start, resetTo, mbapLen_eq]
theorem witness_StepKeepsInvariants :
    Invariant { start .up with rxBuf := [1, 2], script := [0x01, 0x00, 0x5a] } ∧
    nextIs (step { start .up with rxBuf := [1, 2], script := [0x01, 0x00, 0x5a] }) (fun _ => true) = true := by
  exact ⟨fun _ => witness_good, by decide +kernel⟩
theorem witness_TraceAndPortsOnlyGrow : runs .rxPop held = true ∧ runs .txTake { start .up with txQ := [1] } = true := by
  decide +kernel
theorem witness_EveryReceivedByteIsAccounted :
    Invariant { start .up with rxBuf := [1, 2], script := [0x01, 0x00, 0x5a] } ∧
    runs (.rxPush 3) { start .up with rxBuf := [1, 2], script := [0x01, 0x00, 0x5a] } = true ∧
    runs (.reset (cfgT .down)) { start .up with rxBuf := [1, 2], script := [0x01, 0x00, 0x5a] } = true := by
  exact ⟨fun _ => witness_good, by decide +kernel⟩
theorem witness_ReceiveLeavesTransmitSide : isReceive (.decPingUp (sealed 0x16 [])) = true ∧
    runs (.decPingUp (sealed 0x16 [])) (start .up) = true ∧ isReceive .rxPop = true ∧ runs .rxPop held = true := by
  decide +kernel
theorem witness_TransmitLeavesReceiveSide : isTransmit (.rawAny ⟨1, 5, 1⟩ 0x16 []) = true ∧
    runs (.rawAny ⟨1, 5, 1⟩ 0x16 []) (start .up) = true ∧ isTransmit .txTake = true ∧
    runs .txTake { start .up with txQ := [1] } = true := by decide +kernel
theorem witness_XorIsItsOwnInverse : ([0x47] : Bytes) ≠ [] := by decide
theorem witness_XorCyclesTheKey : 1 ≤ ([0x47] : Bytes).length ∧ 1 < ([1, 2] : Bytes).length := by decide
theorem witness_BuiltFrameLayout : ([] : Bytes).length ≤ 65533 ∧ largest.length ≤ 65533 := by
  rw [length_largest]; decide
theorem witness_PushWhileReadyOnlyAppends :
    held.launched = true ∧ held.rxPhase = .frameReady ∧ held.rxBuf.length < held.cfg.bufCap := by decide +kernel

/-- A full buffer: the largest frame a length field can give, held with its result. -/
def full : State :=
  { start .up with
    rxBuf := frameBuild (cfgT .up) 1 5 1 0x7f largest, rxPhase := .frameReady, hdr := frameHdr 1 5 1 largest.length,
    rxNeed := 65543,
    rxOut := some (demux (cfgT .up) (frameHdr 1 5 1 largest.length) (frameBuild (cfgT .up) 1 5 1 0x7f largest)).1 }

theorem length_full : full.rxBuf.length = 65543 := by
  rw [show full.rxBuf = frameBuild (cfgT .up) 1 5 1 0x7f largest from rfl, length_frameBuild, length_largest]
theorem candidate_full : candidate full = frameBuild (cfgT .up) 1 5 1 0x7f largest :=
  List.take_of_length_le (Nat.le_of_eq length_full)
theorem hdr_full : full.hdr.len.toNat = 65535 := by
  have := frameHdr_len (tid := 1) (pid := 5) (uid := 1) (p := largest.length) (Nat.le_of_eq length_largest)
  rw [length_largest] at this
  rw [show full.hdr = frameHdr 1 5 1 largest.length from rfl, length_largest, this]; rfl
theorem chkOk_full : chkOk full.cfg (frameBuild (cfgT .up) 1 5 1 0x7f largest) = true := chkOk_frameBuild _ _ _ _ _ _
theorem latched_full : full.hdr = headerOf full.rxBuf := (headerOf_frameHead ..).symm
theorem rxOut_full :
    full.rxOut = some (demux full.cfg full.hdr (frameBuild (cfgT .up) 1 5 1 0x7f largest)).1 := rfl
theorem witness_full : Good full := by
  refine ⟨show legalCfg (cfgT .up) = true by decide +kernel, by simp [full], by simp [full], fun _ => ?_,
    ?_, fun _ => ⟨?_, latched_full⟩, by simp [full], fun r hr => ?_, by decide +kernel⟩
  · rw [candidate_full, hdr_full, length_full]
    exact ⟨rfl, by decide, Nat.le_refl _, chkOk_full⟩
  · rw [length_full]; exact Nat.le_refl _
  · rw [length_full]; decide
  · rw [rxOut_full] at hr
    rw [candidate_full]; exact (Option.some.inj hr).symm
theorem witness_FullBufferHoldsTheByte :
    Invariant full ∧ full.launched = true ∧ full.cfg.bufCap ≤ full.rxBuf.length := by
  exact ⟨fun _ => witness_full, rfl, Nat.le_of_eq length_full.symm⟩
theorem witness_PartialInputWaits_header : (buffered .up (vPing.take 5)).launched = true ∧
    (buffered .up (vPing.take 5)).rxBuf.length < (buffered .up (vPing.take 5)).cfg.bufCap ∧
    (buffered .up (vPing.take 5)).rxPhase = .waitHdr ∧ (buffered .up (vPing.take 5)).rxBuf.length + 1 < 7 := by
  decide +kernel
theorem witness_PartialInputWaits_body : (buffered .up (vPing.take 18)).launched = true ∧
    (buffered .up (vPing.take 18)).rxBuf.length < (buffered .up (vPing.take 18)).cfg.bufCap ∧
    (buffered .up (vPing.take 18)).rxPhase = .waitBody ∧
    (buffered .up (vPing.take 18)).rxBuf.length + 1 < (buffered .up (vPing.take 18)).rxNeed := by decide +kernel

/-- Six bytes of a header with the length `n`. -/
def sixBytes (n : Byte) : State := { start .up with rxBuf := [0, 9, 0, 5, 0, n] }

theorem witness_HeaderIsLatched : (sixBytes 2).launched = true ∧
    (sixBytes 2).rxBuf.length < (sixBytes 2).cfg.bufCap ∧ (sixBytes 2).rxPhase = .waitHdr ∧
    (sixBytes 2).rxBuf.length = 6 ∧ 2 ≤ (be16 ((sixBytes 2).rxBuf ++ [1]) 4).toNat ∧
    (appendByte 1 (sixBytes 2)).rxPhase = .waitHdr ∧ 7 ≤ (appendByte 1 (sixBytes 2)).rxBuf.length ∧
    2 ≤ (be16 (appendByte 1 (sixBytes 2)).rxBuf 4).toNat := by decide +kernel
theorem witness_DegenerateHeaderIsDiscarded : (sixBytes 1).launched = true ∧
    (sixBytes 1).rxBuf.length < (sixBytes 1).cfg.bufCap ∧ (sixBytes 1).rxPhase = .waitHdr ∧
    (sixBytes 1).rxBuf.length = 6 ∧ (be16 ((sixBytes 1).rxBuf ++ [1]) 4).toNat < 2 ∧
    (appendByte 1 (sixBytes 1)).rxPhase = .waitHdr ∧ 7 ≤ (appendByte 1 (sixBytes 1)).rxBuf.length ∧
    (be16 (appendByte 1 (sixBytes 1)).rxBuf 4).toNat < 2 := by decide +kernel

/-- V-PING without its last byte. -/
def lacksOne : State := buffered .up (vPing.take 19)

/-- A candidate stands whole in the buffer, its checksum not yet tested: its last byte is `b`, and one byte follows it. -/
def complete (b : Byte) : State := { lacksOne with rxBuf := lacksOne.rxBuf ++ [b, 0x00] }

theorem witness_CandidateIsSettled_push : lacksOne.launched = true ∧
    lacksOne.rxBuf.length < lacksOne.cfg.bufCap ∧ lacksOne.rxPhase = .waitBody ∧
    lacksOne.rxBuf.length + 1 = lacksOne.rxNeed ∧
    chkOf lacksOne.cfg.chk ((lacksOne.rxBuf ++ [0x1d]).take (lacksOne.rxNeed - 2)) =
      le16 (lacksOne.rxBuf ++ [0x1d]) (lacksOne.rxNeed - 2) ∧
    chkOf lacksOne.cfg.chk ((lacksOne.rxBuf ++ [0x1e]).take (lacksOne.rxNeed - 2)) ≠
      le16 (lacksOne.rxBuf ++ [0x1e]) (lacksOne.rxNeed - 2) := by decide +kernel
theorem witness_CandidateIsSettled_settle :
    (complete 0x1d).rxPhase = .waitBody ∧ (complete 0x1d).rxNeed ≤ (complete 0x1d).rxBuf.length ∧
    chkOk (complete 0x1d).cfg ((complete 0x1d).rxBuf.take (complete 0x1d).rxNeed) = true ∧
    (complete 0x1e).rxPhase = .waitBody ∧ (complete 0x1e).rxNeed ≤ (complete 0x1e).rxBuf.length ∧
    chkOk (complete 0x1e).cfg ((complete 0x1e).rxBuf.take (complete 0x1e).rxNeed) = false := by decide +kernel
theorem witness_PopConsumesOneFrame : held.launched = true ∧ held.rxPhase = .frameReady ∧
    held.rxBuf.length < held.rxNeed + 7 ∧ (start .up).launched = true ∧ (start .up).rxPhase ≠ .frameReady := by
  decide +kernel
theorem witness_DemultiplexerOutcomes : kindOf 0x7f = none ∧ kindOf 0x16 = some .ping ∧
    (transform (cfgT .up) 5 0x16 .up (zeros 9)).length <
      need (layoutOf layoutTable ⟨.ping, .up⟩) (transform (cfgT .up) 5 0x16 .up (zeros 9)) ∧
    need (layoutOf layoutTable ⟨.ping, .up⟩) (transform (cfgT .up) 5 0x16 .up (zeros 10)) ≤
      (transform (cfgT .up) 5 0x16 .up (zeros 10)).length := by decide +kernel
theorem witness_UncoveredBytesAreNotRead :
    need (layoutOf layoutTable ⟨.energy, .down⟩) [6] ≤ ([6] : Bytes).length ∧
    need (layoutOf layoutTable ⟨.energy, .down⟩) [6] ≤ ([6, 9] : Bytes).length ∧
    ∀ i, covered (layoutOf layoutTable ⟨.energy, .down⟩) [6] i → byteAt [6, 9] i = byteAt [6] i := by
  refine ⟨by decide, by decide, fun i hi => ?_⟩
  obtain ⟨f, hf, -, hi⟩ := hi
  rw [layoutOf_layoutTable] at hf
  simp only [ackLayout, List.mem_singleton] at hf
  subst hf
  have : i = 0 := by simp [fixedWidth] at hi; omega
  subst this; rfl
theorem witness_BuiltFrameIsAssembled : rxIdle (start .up) ∧ largest.length ≤ 65533 ∧ 65542 < largest.length + 10 := by
  rw [length_largest]; decide +kernel

/-- The byte sum with its bytes exchanged detects one byte (R130): a selector that meets the hypothesis. -/
theorem swapped_sum16_detects : ChkDetects1Byte (chkOf (.swapped .sum16)) := by
  have hswap : ∀ v : U16, swap16 (swap16 v) = v := fun v => by
    have hlo : (swap16 v).extractLsb' 0 8 = v.extractLsb' 8 8 := by
      ext i hi
      have h := BitVec.getLsbD_append (x := v.extractLsb' 0 8) (y := v.extractLsb' 8 8) (i := 0 + i)
      simpa [swap16, hi] using h
    have hhi : (swap16 v).extractLsb' 8 8 = v.extractLsb' 0 8 := by
      ext i hi
      have h := BitVec.getLsbD_append (x := v.extractLsb' 0 8) (y := v.extractLsb' 8 8) (i := 8 + i)
      simpa [swap16, hi] using h
    rw [swap16, hlo, hhi, bytes16_append]
  have hinj : ∀ a b : U16, swap16 a = swap16 b → a = b := fun a b h => by rw [← hswap a, h, hswap]
  have hz : ∀ a b : Byte, a.setWidth 16 = b.setWidth 16 → a = b := fun a b h => by
    simpa using congrArg (BitVec.setWidth 8) h
  have hfold : ∀ (s : Bytes) (c : U16),
      s.foldl (fun c x => c + x.setWidth 16) c = c + s.foldl (fun c x => c + x.setWidth 16) 0 := by
    intro s
    induction s with
    | nil => intro c; simp
    | cons x xs ih =>
      intro c
      simp only [List.foldl_cons]
      rw [ih (c + _), ih (0 + _)]
      simp [BitVec.add_assoc]
  intro s i x hi hx h0
  refine hx (hz _ _ ?_)
  have h : sum16 (s.set i x) = sum16 s := hinj _ _ h0
  clear hinj hz hx h0
  induction s generalizing i with
  | nil => simp at hi
  | cons y ys ih =>
    cases i with
    | zero =>
      simp only [sum16, List.set_cons_zero, List.foldl_cons] at h
      rw [hfold ys (0 + _), hfold ys (0 + _)] at h
      simpa [byteAt] using h
    | succ i =>
      refine (ih i (by simpa using hi) ?_).trans (by simp [byteAt])
      simp only [sum16, List.set_cons_succ, List.foldl_cons] at h ⊢
      rw [hfold _ (0 + _), hfold ys (0 + _)] at h
      simpa using h
theorem witness_CorruptPayloadIsDropped :
    ChkDetects1Byte (chkOf { start .up with cfg := { cfgT .up with chk := .swapped .sum16 } }.cfg.chk) ∧
    rxIdle { start .up with cfg := { cfgT .up with chk := .swapped .sum16 } } ∧
    (start .up).rxOut = none ∧ ([7, 8] : Bytes).length ≤ 65533 ∧ 1 < ([7, 8] : Bytes).length ∧
    (9 : Byte) ≠ byteAt [7, 8] 1 := by
  exact ⟨swapped_sum16_detects, by decide +kernel⟩
theorem witness_EncodedMessageIsDecoded : txIdle (start .up) ∧ rxIdle (start .down) ∧
    (start .up).cfg.layout = layoutTable ∧ (start .down).cfg.layout = layoutTable ∧
    (start .down).cfg.key = (start .up).cfg.key ∧ (start .down).cfg.chk = (start .up).cfg.chk ∧
    (start .down).cfg.obfSel = (start .up).cfg.obfSel ∧ (start .down).cfg.rxDir = Variant.dir ⟨.config, .down⟩ ∧
    commandFits ⟨.config, .down⟩ [(.wifiSerial, .bytes wifi), (.configId, .u16 4), (.configLength, .u16 1),
      (.configValue, .bytes [0x35, 0x36])] = true ∧
    (encodePayload (cfgT .up) ⟨.config, .down⟩ [(.wifiSerial, .bytes wifi), (.configId, .u16 4), (.configLength, .u16 1),
      (.configValue, .bytes [0x35, 0x36])]).length ≤ 65533 := by decide +kernel
theorem witness_EncodedMessageIsDecoded_ack : (start .down).cfg.rxDir = Variant.dir ⟨.energy, .down⟩ ∧
    commandFits ⟨.energy, .down⟩ [] = true ∧ (encodePayload (cfgT .up) ⟨.energy, .down⟩ []).length ≤ 65533 := by decide +kernel

/-- The hypotheses the receive rows share: an idle path, the one layout, the direction, and a verified frame. -/
def RowReady (d : Dir) (fc : Byte) (f : RxFrame) (n : Nat) : Prop :=
  rxIdle (start d) ∧ (start d).cfg.layout = layoutTable ∧ (start d).cfg.rxDir = d ∧
    verifiedFrame (start d).cfg fc f ∧ n ≤ f.payload.length

theorem rowReady_sealed (d : Dir) (fc : Byte) (p : Bytes) {n : Nat} (hn : n ≤ p.length) (h : p.length ≤ 65533) :
    RowReady d fc (sealed fc p) n :=
  ⟨⟨rfl, rfl, rfl, Nat.le_refl _⟩, rfl, rfl, ⟨h, by simp [sealed, start, resetTo, cfgT, launchCfg, chkOf]⟩, hn⟩

theorem witness_DecAnnounceUpResult : RowReady .up 0x03 (sealed 0x03 (zeros 173)) 173 := by
  exact rowReady_sealed _ _ _ (by decide +kernel) (by decide +kernel)
theorem witness_DecEnergyAndBufferedUpResult :
    RowReady .up 0x04 (sealed 0x04 (zeros 197)) 197 ∧ RowReady .up 0x50 (sealed 0x50 (zeros 197)) 197 := by
  exact ⟨rowReady_sealed _ _ _ (by decide +kernel) (by decide +kernel),
    rowReady_sealed _ _ _ (by decide +kernel) (by decide +kernel)⟩
theorem witness_DecPingResult :
    RowReady .up 0x16 (sealed 0x16 (zeros 10)) 10 ∧ RowReady .down 0x16 (sealed 0x16 (zeros 10)) 10 := by
  exact ⟨rowReady_sealed _ _ _ (by decide) (by decide), rowReady_sealed _ _ _ (by decide) (by decide)⟩
theorem witness_DecConfigShapedResult : RowReady .up 0x18 (sealed 0x18 configWire) 36 ∧
    RowReady .up 0x19 (sealed 0x19 configWire) 36 ∧ RowReady .down 0x18 (sealed 0x18 configWire) 36 ∧
    34 + (be16 (plaintext (cfgT .up) 0x18 (sealed 0x18 configWire)) 32).toNat = configWire.length ∧
    34 + (be16 (plaintext (cfgT .up) 0x19 (sealed 0x19 configWire)) 32).toNat = configWire.length ∧
    34 + (be16 (plaintext (cfgT .down) 0x18 (sealed 0x18 configWire)) 32).toNat = configWire.length := by
  exact ⟨rowReady_sealed _ _ _ (by decide +kernel) (by decide +kernel),
    rowReady_sealed _ _ _ (by decide +kernel) (by decide +kernel),
    rowReady_sealed _ _ _ (by decide +kernel) (by decide +kernel), by decide +kernel⟩
theorem witness_DecAckResult : RowReady .down 0x03 (sealed 0x03 [6]) 1 ∧ RowReady .down 0x04 (sealed 0x04 [6]) 1 ∧
    RowReady .down 0x50 (sealed 0x50 [6]) 1 := by
  exact ⟨rowReady_sealed _ _ _ (by decide) (by decide), rowReady_sealed _ _ _ (by decide) (by decide),
    rowReady_sealed _ _ _ (by decide) (by decide)⟩
theorem witness_DecQueryDownResult : RowReady .down 0x19 (sealed 0x19 (zeros 34)) 34 := by
  exact rowReady_sealed _ _ _ (by decide) (by decide)
theorem witness_DecPassResult :
    kindOf 0x7f = none ∧ RowReady .up 0x7f (sealed 0x7f []) 0 ∧ RowReady .down 0x7f (sealed 0x7f []) 0 := by
  exact ⟨rfl, rowReady_sealed _ _ _ (by decide) (by decide), rowReady_sealed _ _ _ (by decide) (by decide)⟩
theorem witness_ShortPayloadIsReported : RowReady .up 0x16 (sealed 0x16 (zeros 9)) 0 ∧
    (sealed 0x16 (zeros 9)).payload.length <
      need (layoutOf (start .up).cfg.layout ⟨.ping, .up⟩) (plaintext (start .up).cfg 0x16 (sealed 0x16 (zeros 9))) := by
  exact ⟨rowReady_sealed _ _ _ (by decide) (by decide), by decide +kernel⟩
theorem witness_ShortPayloadIsReported_value : RowReady .down 0x18 (sealed 0x18 (configWire.take 35)) 35 ∧
    (sealed 0x18 (configWire.take 35)).payload.length < need (layoutOf (start .down).cfg.layout ⟨.config, .down⟩)
      (plaintext (start .down).cfg 0x18 (sealed 0x18 (configWire.take 35))) := by
  exact ⟨rowReady_sealed _ _ _ (by decide +kernel) (by decide +kernel), by decide +kernel⟩
theorem witness_FailedChecksumIsReported : rxIdle (start .up) ∧ ([] : Bytes).length ≤ 65533 ∧
    (start .up).cfg.rxDir = Variant.dir ⟨.ping, .up⟩ ∧ kindOf 0x7f = none ∧
    chkOf (start .up).cfg.chk (frameHead 1 5 1 0x16 []) ≠ 0 ∧ chkOf (start .up).cfg.chk (frameHead 1 5 1 0x7f []) ≠ 0 := by
  decide +kernel
theorem witness_OtherDirectionIsNotSelected :
    (start .up).launched = true ∧ (start .up).cfg.rxDir ≠ Variant.dir ⟨.query, .down⟩ := by decide +kernel
theorem witness_ReceiveRowIsItsPushes : held.launched = true ∧ held.cfg.rxDir = Variant.dir ⟨.ping, .up⟩ ∧
    (sealed 0x16 []).payload.length ≤ 65533 ∧ kindOf 0x7f = none ∧ runs (.rxPush 1) held = true ∧
    refusedAs (exec (.rxPush 1) State.powerOn) .beforeReset = true := by decide +kernel
theorem witness_IllFormedInstructionsHaveNoStep :
    (start .up).cfg.layout = layoutTable ∧ Instr.wellFormed (.encPingUp ⟨1, 5, 1⟩ []) = false := by decide +kernel

/-- A CONFIG.DOWN command that declares `n` value bytes and gives none. -/
def configOf (n : U16) : Fields :=
  [(.wifiSerial, .bytes wifi), (.configId, .u16 4), (.configLength, .u16 n), (.configValue, .bytes [])]

theorem length_configOf (n : U16) : (encodePayload (cfgT .up) ⟨.config, .down⟩ (configOf n)).length = 34 + n.toNat := by
  exact length_encodeFields (l := configLayout) rfl (inOrder_layoutTable ⟨.config, .down⟩ (configOf n))
theorem witness_TxEncQueuesOrReports : txIdle (start .up) ∧ (start .up).cfg.layout = layoutTable ∧
    commandFits ⟨.config, .down⟩ (configOf 65499) = true ∧ commandFits ⟨.config, .down⟩ (configOf 65500) = true ∧
    (encodePayload (cfgT .up) ⟨.config, .down⟩ (configOf 65499)).length ≤ 65533 ∧
    65533 < (encodePayload (cfgT .up) ⟨.config, .down⟩ (configOf 65500)).length := by
  rw [length_configOf, length_configOf]; decide +kernel
theorem witness_txIdle : txIdle (start .up) ∧ (start .up).cfg.layout = layoutTable := by decide +kernel
theorem witness_EncAnnounceUpQueues : txIdle (start .up) ∧ (start .up).cfg.layout = layoutTable := witness_txIdle
theorem witness_EncEnergyAndBufferedUpQueue : txIdle (start .up) ∧ (start .up).cfg.layout = layoutTable := witness_txIdle
theorem witness_EncPingQueues : txIdle (start .up) ∧ (start .up).cfg.layout = layoutTable := witness_txIdle
theorem witness_EncAckQueues : txIdle (start .up) ∧ (start .up).cfg.layout = layoutTable := witness_txIdle
theorem witness_EncQueryDownQueues : txIdle (start .up) ∧ (start .up).cfg.layout = layoutTable := witness_txIdle
theorem witness_EncConfigShapedQueues : txIdle (start .up) ∧ (start .up).cfg.layout = layoutTable ∧
    (65499 : U16).toNat ≤ 65499 ∧ 65499 < (65500 : U16).toNat := by decide +kernel
theorem witness_NegotiationMessagesAreQueued : txIdle (start .up) ∧ (start .up).cfg.layout = layoutTable ∧
    (65499 : U16).toNat ≤ 65499 ∧ 65499 < (65500 : U16).toNat :=
  ⟨witness_txIdle.1, witness_txIdle.2, by decide, by decide⟩
theorem witness_RawPayloadIsFramedAsGiven : txIdle (start .up) ∧ largest.length ≤ 65533 := by
  rw [length_largest]; decide +kernel
theorem witness_TakeDeliversTheFrontByte : { start .up with txQ := [7] }.launched = true ∧
    { start .up with txQ := [7] }.txQ = 7 :: [] ∧ (start .up).launched = true ∧ (start .up).txQ = [] := by decide +kernel
theorem witness_CommandsWaitForTheQueue : { start .up with txQ := [7] }.launched = true ∧
    { start .up with txQ := [7] }.txQ ≠ [] ∧ isTransmit (.encEnergyAck ⟨1, 5, 1⟩) = true ∧
    Instr.encEnergyAck ⟨1, 5, 1⟩ ≠ .txTake := by decide +kernel

end Sys2Proof.Tests
end

