-- ==== Sys2Proof/Proofs/Scope.lean ====
section
/-! What a configuration must satisfy (R9, R23, R92). -/

namespace Sys2Proof.Machine

/-- R92: the one legal table passes the layout check, so the check excludes no configuration that holds it. -/
theorem layoutOk_layoutTable : layoutOk layoutTable = true := by decide

/-- R9 with R23: the conjuncts of the check as propositions. The layout check of R92 is not among them, because it
follows from the equation of the layout. -/
theorem legalCfg_iff {c : Cfg} :
    legalCfg c = true ↔
      1 ≤ c.keyLen ∧ c.key.length = c.keyLen ∧ maxFrame ≤ c.bufCap ∧ c.layout = layoutTable := by
  simp only [legalCfg, Bool.and_eq_true, decide_eq_true_eq]
  constructor
  · rintro ⟨⟨⟨⟨hlen, hkey⟩, hcap⟩, -⟩, htable⟩
    exact ⟨hlen, hkey, hcap, htable⟩
  · rintro ⟨hlen, hkey, hcap, htable⟩
    have hcheck : layoutOk c.layout = true := htable ▸ layoutOk_layoutTable
    exact ⟨⟨⟨⟨hlen, hkey⟩, hcap⟩, hcheck⟩, htable⟩

/-- Settles O6: both directions are the characterisation of a legal configuration, with the largest frame's size. -/
theorem legalConfigurations : Obligations.LegalConfigurations := by
  intro c
  rw [← maxFrame_eq]
  exact ⟨legalCfg_iff.mp, legalCfg_iff.mpr⟩

end Sys2Proof.Machine
end

/-! The state and what every step keeps of it (spec/10_state.md): RESET's values, the flags, the step, the configuration,
the invariants of R28, the reach of the obfuscation selection, and instructions that could not be written. -/

namespace Sys2Proof.Machine

/-! ## The configuration and RESET -/

/-- R8: the configuration of `State.reset` is legal. -/
theorem legalCfg_launchCfg : legalCfg launchCfg = true :=
  legalCfg_iff.mpr ⟨by decide, rfl, le_rfl, rfl⟩

/-- `State.reset` is what RESET makes of the machine before its first RESET. -/
theorem reset_eq_resetTo : State.reset = resetTo launchCfg State.powerOn := rfl

theorem exec_reset_of_legal {c : Cfg} (h : legalCfg c = true) (s : State) : exec (.reset c) s = .next (resetTo c s) :=
  if_pos h

theorem exec_reset_of_illegal {c : Cfg} (h : legalCfg c = false) (s : State) :
    exec (.reset c) s = .refused .illegalConfig :=
  if_neg (Bool.eq_false_iff.mp h)

/-- Settles O5: both branches of RESET, the next state field by field. -/
theorem resetWritesEveryField : Obligations.ResetWritesEveryField :=
  fun _ s => ⟨fun h => exec_reset_of_legal h s, fun h => exec_reset_of_illegal h s⟩

/-! ## The flags of R30 -/

theorem rxInReady_iff {s : State} : rxInReady s = true ↔ s.rxBuf.length < s.cfg.bufCap := by simp [rxInReady]

theorem rxOutValid_iff {s : State} : rxOutValid s = true ↔ s.rxPhase = .frameReady := by simp [rxOutValid]

theorem txCmdReady_iff {s : State} : txCmdReady s = true ↔ s.txQ = [] := by simp [txCmdReady]

theorem txOutValid_iff {s : State} : txOutValid s = true ↔ s.txQ ≠ [] := by simp [txOutValid]

/-- R30: the flags after a RESET. A legal capacity holds a frame (R9), so the empty buffer takes a byte. -/
theorem flags_resetTo {c : Cfg} (h : legalCfg c = true) (s : State) :
    rxInReady (resetTo c s) = true ∧ rxOutValid (resetTo c s) = false ∧ txCmdReady (resetTo c s) = true ∧
      txOutValid (resetTo c s) = false := by
  obtain ⟨-, -, hcap, -⟩ := legalCfg_iff.mp h
  rw [maxFrame_eq] at hcap
  exact ⟨rxInReady_iff.mpr (by simp; omega), rfl, rfl, rfl⟩

/-- Settles O8: the flags' conditions, and their values in the one state that RESET can answer. -/
theorem flagsOfTheState : Obligations.FlagsOfTheState := by
  refine ⟨fun s => ⟨rxInReady_iff, rxOutValid_iff, txCmdReady_iff, txOutValid_iff⟩, fun c s t h => ?_⟩
  obtain ⟨hc, rfl⟩ := execReset_cases h
  exact flags_resetTo hc s

/-- Settles O7: the values are those `State.reset` is written with; its flags are those of a RESET. -/
theorem resetStateValues : Obligations.ResetStateValues :=
  ⟨rfl, rfl, rfl, rfl, rfl, rfl, rfl, legalCfg_launchCfg,
    reset_eq_resetTo ▸ flags_resetTo legalCfg_launchCfg State.powerOn⟩

/-! ## The step -/

theorem step_of_decode {s : State} {i : Instr} {rest : Bytes} (h : decode s.script = .ok (i, rest)) :
    step s = exec i { s with script := rest } := by
  rw [step, h]

/-- A step that answers a next state is `exec` of the instruction at the front of the script. -/
theorem step_cases {s t : State} (h : step s = .next t) :
    ∃ i rest, decode s.script = .ok (i, rest) ∧ exec i { s with script := rest } = .next t := by
  unfold step at h
  split at h
  next i rest hd => exact ⟨i, rest, hd, h⟩
  next => cases h
  next => cases h

/-- Settles O4: the step's equation on a script that decodes, and R254 on an empty one. -/
theorem stepRunsNextInstruction : Obligations.StepRunsNextInstruction :=
  ⟨fun _ _ _ => step_of_decode, fun _ h => step_of_complete (complete_iff.mpr h)⟩

/-- Settles O10: of all that `exec` can do, only RESET writes the configuration (R22, R245). -/
theorem configChangesOnlyByReset : Obligations.ConfigChangesOnlyByReset := by
  intro i s t h
  rcases exec_cases h with ⟨c, hi, -, rfl⟩ | ⟨-, -, -, bs, -, hpush⟩ | ⟨-, -, -, rfl⟩ |
    ⟨-, -, -, -, ⟨hd, fc, w, -, rfl⟩ | ⟨tid, fc, n, -, rfl⟩⟩ | ⟨-, -, b, rest, -, rfl⟩
  · exact .inr hi
  · obtain ⟨-, hcfg, -⟩ := pushAll_frame_fields hpush
    exact .inl hcfg
  · exact .inl (settle_cfg _)
  · exact .inl rfl
  · exact .inl rfl
  · exact .inl rfl

/-! ## The invariants of R28 -/

/-- What holds between two rounds of settle (R126): the invariants but for the bounds on the bytes that wait, which hold
only where settle ends. -/
structure Coherent (s : State) : Prop where
  legal : legalCfg s.cfg = true
  cap : s.rxBuf.length ≤ s.cfg.bufCap
  txQ : s.txQ.length ≤ maxFrame
  /-- R26: the candidate's size is its header's. -/
  size : s.rxPhase ≠ .waitHdr → s.rxNeed = s.hdr.len.toNat + frameOverhead ∧ lenBias ≤ s.hdr.len.toNat
  latched : s.rxPhase ≠ .waitHdr → mbapLen ≤ s.rxBuf.length ∧ s.hdr = headerOf s.rxBuf
  /-- R28(iii): a frame that is held is whole and verified. -/
  held : s.rxPhase = .frameReady → s.rxNeed ≤ s.rxBuf.length ∧ chkOk s.cfg (candidate s) = true
  result : s.rxOut.isSome = true ↔ s.rxPhase = .frameReady
  demuxed : ∀ r, s.rxOut = some r → r = (demux s.cfg s.hdr (candidate s)).1

/-- Settle has nothing to do: the bounds R28(i) and (ii) put on the bytes that wait. -/
theorem settleStep_eq_none {s : State} :
    settleStep s = none ↔
      (s.rxPhase = .waitHdr → s.rxBuf.length < mbapLen) ∧ (s.rxPhase = .waitBody → s.rxBuf.length < s.rxNeed) := by
  cases hp : s.rxPhase <;> simp [settleStep, hp]

/-- A good state is coherent, whatever settle would make of it. -/
theorem Good.coherent {s : State} (h : Good s) : Coherent s where
  legal := h.legal
  cap := h.cap
  txQ := h.txQ
  size hp := by
    cases hq : s.rxPhase with
    | waitHdr => exact absurd hq hp
    | waitBody => obtain ⟨hneed, hlen, -⟩ := h.waitBody hq; exact ⟨hneed, hlen⟩
    | frameReady => obtain ⟨hneed, hlen, -⟩ := h.frameReady hq; exact ⟨hneed, hlen⟩
  latched := h.latched
  held hp := (h.frameReady hp).2.2
  result := h.result
  demuxed := h.demuxed

/-- A coherent state in which settle has nothing to do is good. -/
theorem Coherent.good {s : State} (h : Coherent s) (hs : settleStep s = none) : Good s := by
  obtain ⟨hhdr, hbody⟩ := settleStep_eq_none.mp hs
  exact {
    legal := h.legal
    waitHdr := hhdr
    waitBody := fun hp =>
      have ⟨hneed, hlen⟩ := h.size (by simp [hp])
      ⟨hneed, hlen, hbody hp⟩
    frameReady := fun hp =>
      have ⟨hneed, hlen⟩ := h.size (by simp [hp])
      ⟨hneed, hlen, h.held hp⟩
    cap := h.cap
    latched := h.latched
    result := h.result
    demuxed := h.demuxed
    txQ := h.txQ }

/-- There is no result while a header or a candidate is awaited (R27). -/
theorem Coherent.rxOut_eq_none {s : State} (h : Coherent s) (hp : s.rxPhase ≠ .frameReady) : s.rxOut = none := by
  rwa [← Option.not_isSome_iff_eq_none, h.result]

/-- An awaited header asks for nothing but a legal configuration, the two bounds and no result. -/
theorem coherent_of_waitHdr {s : State} (legal : legalCfg s.cfg = true) (cap : s.rxBuf.length ≤ s.cfg.bufCap)
    (txQ : s.txQ.length ≤ maxFrame) (hp : s.rxPhase = .waitHdr) (hout : s.rxOut = none) : Coherent s where
  legal := legal
  cap := cap
  txQ := txQ
  size h := absurd hp h
  latched h := absurd hp h
  held h := by simp [hp] at h
  result := by simp [hp, hout]
  demuxed r h := by simp [hout] at h

/-- Each of the four rounds of settle keeps coherence (R123 to R125). -/
theorem Coherent.of_settleStep {s t : State} (h : Coherent s) (hst : settleStep s = some t) : Coherent t := by
  have hcap := h.cap
  rcases settleStep_cases hst with ⟨hp, -, -, rfl⟩ | ⟨hp, hlen, hbias, rfl⟩ | ⟨hp, hneed, hchk, rfl⟩ | ⟨hp, -, -, rfl⟩
  · exact coherent_of_waitHdr h.legal (by simp; omega) h.txQ hp (h.rxOut_eq_none (by simp [hp]))
  · exact {
      legal := h.legal
      cap := hcap
      txQ := h.txQ
      size := fun _ => ⟨rfl, hbias⟩
      latched := fun _ => ⟨hlen, rfl⟩
      held := by simp
      result := by simp [h.rxOut_eq_none (by simp [hp])]
      demuxed := by simp [h.rxOut_eq_none (by simp [hp])] }
  · have hw : s.rxPhase ≠ .waitHdr := by simp [hp]
    exact {
      legal := h.legal
      cap := hcap
      txQ := h.txQ
      size := fun _ => h.size hw
      latched := fun _ => h.latched hw
      held := fun _ => ⟨hneed, hchk⟩
      result := by simp
      demuxed := fun r hr => (Option.some.inj hr).symm }
  · exact coherent_of_waitHdr h.legal (by simp; omega) h.txQ rfl (h.rxOut_eq_none (by simp [hp]))

/-- R28: settle makes a coherent state good. -/
theorem Coherent.good_settle {s : State} (h : Coherent s) : Good (settle s) :=
  (settle_induction Coherent (fun _ _ hst ha => ha.of_settleStep hst) s h).good (settleStep_settle s)

/-- A header is read from the first 7 bytes (R71). -/
theorem headerOf_append {a : Bytes} (h : mbapLen ≤ a.length) (b : Bytes) : headerOf (a ++ b) = headerOf a := by
  rw [mbapLen_eq] at h
  have hbyte : ∀ o < 7, byteAt (a ++ b) o = byteAt a o := fun o ho => byteAt_append_left (by omega)
  simp [headerOf_eq, be16, hbyte]

/-- A candidate that is whole does not change with the bytes behind it (R127). -/
theorem candidate_appendByte {s : State} (h : s.rxNeed ≤ s.rxBuf.length) (b : Byte) :
    candidate (appendByte b s) = candidate s :=
  List.take_append_of_le_length h

/-- R120: the byte of an enabled RX_PUSH leaves the state coherent. -/
theorem Coherent.of_appendByte {s : State} (h : Coherent s) (hc : s.rxBuf.length < s.cfg.bufCap) (b : Byte) :
    Coherent (appendByte b s) where
  legal := h.legal
  cap := by simp; omega
  txQ := h.txQ
  size := h.size
  latched hp := by
    obtain ⟨hlen, hhdr⟩ := h.latched hp
    exact ⟨by simp; omega, by simp [headerOf_append hlen, hhdr]⟩
  held hp := by
    obtain ⟨hneed, hchk⟩ := h.held hp
    exact ⟨by simp; omega, by rwa [candidate_appendByte hneed]⟩
  result := h.result
  demuxed r hr := by
    obtain ⟨hneed, -⟩ := h.held (h.result.mp (by simpa using Option.isSome_of_eq_some hr))
    rw [candidate_appendByte hneed]
    exact h.demuxed r hr

/-- R128: what RX_POP hands to settle is coherent. -/
theorem Coherent.of_release {s : State} (h : Coherent s) : Coherent (release (dropFront s.rxNeed s)) :=
  coherent_of_waitHdr h.legal (by have := h.cap; simp; omega) h.txQ rfl rfl

/-- R34: a RESET with a legal configuration makes any state good. -/
theorem good_resetTo {c : Cfg} (h : legalCfg c = true) (s : State) : Good (resetTo c s) :=
  (coherent_of_waitHdr h (Nat.zero_le _) (Nat.zero_le _) rfl rfl).good rfl

/-- R61: the invariants read of the transmit side only that the queue holds at most one frame, and neither the trace nor
the transmit port nor the script. -/
theorem Good.of_transmitSide {s : State} (h : Good s) {q : Bytes} (hq : q.length ≤ maxFrame) (ev : List Event)
    (taken script : Bytes) : Good { s with txQ := q, ev := ev, taken := taken, script := script } :=
  { h with txQ := hq }

/-- R28: every instruction keeps the invariants. -/
theorem exec_keeps_good {i : Instr} {s t : State} (hs : s.launched = true → Good s) (h : exec i s = .next t) : Good t := by
  rcases exec_cases h with ⟨c, -, hc, rfl⟩ | ⟨hl, -, -, bs, -, hpush⟩ | ⟨hl, -, -, rfl⟩ |
    ⟨hl, -, -, -, ⟨hd, fc, w, hw, rfl⟩ | ⟨tid, fc, n, -, rfl⟩⟩ | ⟨hl, -, b, rest, hq, rfl⟩
  · exact good_resetTo hc s
  · exact pushAll_induction Good (fun b u _ hcap hu => (hu.coherent.of_appendByte hcap b).good_settle) bs hpush (hs hl)
  · exact (hs hl).coherent.of_release.good_settle
  · have hframe : (frameBuild s.cfg hd.tid hd.pid hd.uid fc w).length ≤ maxFrame := by
      rw [length_frameBuild, maxFrame_eq]
      rw [maxPayload_eq] at hw
      omega
    exact (hs hl).of_transmitSide hframe s.ev s.taken s.script
  · exact (hs hl).of_transmitSide (hs hl).txQ _ s.taken s.script
  · have hrest : rest.length ≤ maxFrame := by
      have := (hs hl).txQ
      rw [hq, List.length_cons] at this
      omega
    exact (hs hl).of_transmitSide hrest s.ev _ s.script

/-- Settles O12: a step is `exec` of an instruction on a state that differs in the script alone, and `exec` keeps the
invariants. -/
theorem stepKeepsInvariants : Obligations.StepKeepsInvariants := by
  intro s t hs h _
  obtain ⟨i, rest, -, hexec⟩ := step_cases h
  refine exec_keeps_good ?_ hexec
  exact fun hl => (hs hl).of_transmitSide (hs hl).txQ s.ev s.taken rest

/-- Settles O11: `State.reset` is the state of a RESET with a legal configuration. -/
theorem invariantsHoldAfterReset : Obligations.InvariantsHoldAfterReset := by
  intro _
  rw [reset_eq_resetTo]
  exact good_resetTo legalCfg_launchCfg State.powerOn

/-! ## The obfuscation selection as a rule list -/

/-- The rule for exactly the frames of one protocol id, function code and direction, with what `g` says of them. -/
def pointRule (g : U16 → Byte → Dir → Bool) (x : U16 × Byte × Dir) : ObfRule :=
  ⟨some x.1, some x.2.1, some x.2.2, g x.1 x.2.1 x.2.2⟩

theorem ruleApplies_pointRule {g : U16 → Byte → Dir → Bool} {x : U16 × Byte × Dir} {pid : U16} {fc : Byte} {dir : Dir} :
    ruleApplies (pointRule g x) pid fc dir = true ↔ x = (pid, fc, dir) := by
  simp [ruleApplies, pointRule, partAgrees, Prod.ext_iff, and_assoc]

/-- Point by point: a list of such rules selects as `g` does wherever it has a rule. -/
theorem obfuscated_map_pointRule (g : U16 → Byte → Dir → Bool) {pid : U16} {fc : Byte} {dir : Dir}
    {xs : List (U16 × Byte × Dir)} (h : (pid, fc, dir) ∈ xs) :
    obfuscated (xs.map (pointRule g)) pid fc dir = g pid fc dir := by
  induction xs with
  | nil => cases h
  | cons x xs ih =>
    rw [List.map_cons, obfuscated]
    by_cases hx : x = (pid, fc, dir)
    · rw [if_pos (ruleApplies_pointRule.mpr hx), hx]
      rfl
    · rw [if_neg (mt ruleApplies_pointRule.mp hx)]
      exact ih ((List.mem_cons.mp h).resolve_left (Ne.symm hx))

/-- Every word of a width. -/
def allWords (n : Nat) : List (BitVec n) := (List.finRange (2 ^ n)).map BitVec.ofFin

theorem mem_allWords {n : Nat} (v : BitVec n) : v ∈ allWords n :=
  List.mem_map.mpr ⟨v.toFin, List.mem_finRange _, rfl⟩

theorem mem_dirs (d : Dir) : d ∈ [Dir.up, Dir.down] := by cases d <;> simp

/-- Settles O20: the type of R23 has finitely many arguments, and the list has one rule for each. -/
theorem everySelectionIsARuleList : Obligations.EverySelectionIsARuleList := by
  intro g
  refine ⟨(allWords 16 ×ˢ allWords 8 ×ˢ [Dir.up, Dir.down]).map (pointRule g), fun pid fc dir => ?_⟩
  apply obfuscated_map_pointRule
  exact List.mem_product.mpr ⟨mem_allWords pid, List.mem_product.mpr ⟨mem_allWords fc, mem_dirs dir⟩⟩

/-! ## Instructions that could not be written -/

/-- R72: a receive row that has a step carries a payload that fits a frame. -/
theorem payloadFits_of_receiveVariant {v : Variant} {f : RxFrame} {s t : State} (h : receiveVariant v f s = .next t) :
    payloadFits f.payload = true := by
  obtain ⟨-, -, hle, -⟩ := receiveVariant_cases h
  exact decide_eq_true hle

/-- R72: a raw command that has a step carries a payload that fits a frame. -/
theorem payloadFits_of_transmitRaw {h : TxHead} {fc : Byte} {p : Bytes} {s t : State}
    (hx : transmitRaw h fc p s = .next t) : payloadFits p = true := by
  obtain ⟨-, -, hle, -⟩ := transmitRaw_cases hx
  exact decide_eq_true hle

/-- R96: under the one layout, an ENC command that has a step gives the fields of its variant. -/
theorem commandFits_of_transmitVariant {v : Variant} {h : TxHead} {fields : Fields} {s t : State}
    (hl : s.cfg.layout = layoutTable) (hx : transmitVariant v h fields s = .next t) : commandFits v fields = true := by
  obtain ⟨-, -, hfit, -⟩ := transmitVariant_cases hx
  rwa [hl] at hfit

/-- Under the one layout, what has a step could be written (R72, R96, R97). -/
theorem wellFormed_of_exec {i : Instr} {s t : State} (hl : s.cfg.layout = layoutTable) (h : exec i s = .next t) :
    i.wellFormed = true := by
  cases i with
  | reset c =>
    obtain ⟨hc, -⟩ := execReset_cases h
    obtain ⟨-, -, -, hlayout⟩ := legalCfg_iff.mp hc
    exact decide_eq_true hlayout
  | decPass fc f =>
    obtain ⟨-, hk, hle, -⟩ := execDecPass_cases h
    simp [Instr.wellFormed, payloadFits, hk, hle]
  | rxPush | rxPop | txTake | reserved110 | reserved111 | encAnnounceAck | encEnergyAck | encBufferedAck => rfl
  | txRaw | rawAny => exact payloadFits_of_transmitRaw h
  | txEnc | encAnnounceUp | encEnergyUp | encBufferedUp | encPingUp | encConfigUp | encQueryUp | encPingDown
  | encConfigDown | encQueryDown => exact commandFits_of_transmitVariant hl h
  | decAnnounceUp | decEnergyUp | decBufferedUp | decPingUp | decConfigUp | decQueryUp | decAnnounceAck | decEnergyAck
  | decBufferedAck | decPingDown | decConfigDown | decQueryDown => exact payloadFits_of_receiveVariant h

/-- R214: nothing faults, so what has no next state is refused. -/
theorem exec_refused_of_not_next {i : Instr} {s : State} (h : ∀ t, exec i s ≠ .next t) : ∃ r, exec i s = .refused r := by
  cases hx : exec i s with
  | next t => exact absurd hx (h t)
  | fault e => cases e
  | refused r => exact ⟨r, rfl⟩

/-- Settles O48: an instruction with a step is well-formed, so an ill-formed one is refused. -/
theorem illFormedInstructionsHaveNoStep : Obligations.IllFormedInstructionsHaveNoStep := by
  intro i s hl hi
  refine exec_refused_of_not_next fun t h => ?_
  rw [wellFormed_of_exec hl h] at hi
  cases hi

end Sys2Proof.Machine

/-! The two sides of the machine (R61): what a receive instruction and a transmit instruction leave unchanged. -/

namespace Sys2Proof.Machine

/-- R61: no instruction is of both sides. -/
theorem isTransmit_of_isReceive {i : Instr} (h : isReceive i = true) : isTransmit i = false := by
  cases i with
  | rxPush | rxPop | decAnnounceUp | decEnergyUp | decBufferedUp | decPingUp | decConfigUp | decQueryUp | decAnnounceAck
  | decEnergyAck | decBufferedAck | decPingDown | decConfigDown | decQueryDown | decPass => rfl
  | reset | txEnc | txRaw | txTake | reserved110 | reserved111 | encAnnounceUp | encEnergyUp | encBufferedUp | encPingUp
  | encConfigUp | encQueryUp | encAnnounceAck | encEnergyAck | encBufferedAck | encPingDown | encConfigDown
  | encQueryDown | rawAny => cases h

/-- Of all that `exec` can do, a receive instruction does one of two things: a sequence of pushes, or a pop (R120, R128). -/
theorem exec_receive_cases {i : Instr} {s t : State} (hi : isReceive i = true) (h : exec i s = .next t) :
    (i ≠ .rxPop ∧ ∃ bs, bs.length = pushedBytes i ∧ pushAll bs s = .next t) ∨
    (i = .rxPop ∧ s.rxPhase = .frameReady ∧ t = settle (release (dropFront s.rxNeed s))) := by
  rcases exec_cases h with ⟨c, rfl, -⟩ | ⟨-, -, hpop, hpush⟩ | ⟨-, hpop⟩ | ⟨-, htx, -⟩ | ⟨-, rfl, -⟩
  · cases hi
  · exact .inl ⟨hpop, hpush⟩
  · exact .inr hpop
  · rw [isTransmit_of_isReceive hi] at htx
    cases htx
  · cases hi

/-- Of all that `exec` can do, a transmit instruction does one of three things: it queues a frame, it emits TX_TOO_LONG,
or it takes a byte (R190, R192). -/
theorem exec_transmit_cases {i : Instr} {s t : State} (hi : isTransmit i = true) (h : exec i s = .next t) :
    (i ≠ .txTake ∧ ∃ (h : TxHead) (fc : Byte) (w : Bytes), w.length ≤ maxPayload ∧
      t = enqueue (frameBuild s.cfg h.tid h.pid h.uid fc w) s) ∨
    (i ≠ .txTake ∧ ∃ (tid : U16) (fc : Byte) (n : Nat), maxPayload < n ∧ t = emit (.txTooLong tid fc n) s) ∨
    (i = .txTake ∧ ∃ b rest, s.txQ = b :: rest ∧ t = takeByte b rest s) := by
  rcases exec_cases h with ⟨c, rfl, -⟩ | ⟨-, hrx, -⟩ | ⟨-, rfl, -⟩ | ⟨-, -, htake, -, hqueue | hlong⟩ | ⟨-, htake⟩
  · cases hi
  · rw [isTransmit_of_isReceive hrx] at hi
    cases hi
  · cases hi
  · exact .inl ⟨htake, hqueue⟩
  · exact .inr (.inl ⟨htake, hlong⟩)
  · exact .inr (.inr htake)

/-- Settles O15: pushes keep the results and the whole transmit side; a pop is settle, which keeps them too, after a
release, which appends the waiting result. -/
theorem receiveLeavesTransmitSide : Obligations.ReceiveLeavesTransmitSide := by
  intro i s t hi h
  rcases exec_receive_cases hi h with ⟨hpop, bs, -, hpush⟩ | ⟨hpop, -, rfl⟩
  · obtain ⟨hlaunched, hcfg, htxQ, htaken, hscript, hresults, -⟩ := pushAll_frame_fields hpush
    exact ⟨hlaunched, hcfg, htxQ, htaken, hscript, fun _ => hresults, fun h => absurd h hpop⟩
  · exact ⟨settle_launched _, settle_cfg _, settle_txQ _, settle_taken _, settle_script _, fun h => absurd hpop h,
      fun _ => settle_results _⟩

/-- Settles O16: a queued frame changes the queue alone, TX_TOO_LONG the trace alone, and a take the queue and the bytes
delivered. -/
theorem transmitLeavesReceiveSide : Obligations.TransmitLeavesReceiveSide := by
  intro i s t hi h
  rcases exec_transmit_cases hi h with ⟨-, hd, fc, w, -, rfl⟩ | ⟨-, tid, fc, n, hn, rfl⟩ | ⟨htake, b, rest, -, rfl⟩
  · exact ⟨rfl, rfl, rfl, rfl, rfl, rfl, rfl, rfl, rfl, fun _ => rfl, .inl rfl⟩
  · exact ⟨rfl, rfl, rfl, rfl, rfl, rfl, rfl, rfl, rfl, fun _ => rfl, .inr ⟨rfl, tid, fc, n, hn, rfl⟩⟩
  · exact ⟨rfl, rfl, rfl, rfl, rfl, rfl, rfl, rfl, rfl, fun h => absurd htake h, .inl rfl⟩

end Sys2Proof.Machine

/-! Decode after encode (spec/30_encoding.md rules R77, R95 and R96; the byte format is assumption 1): the row that a code
and a form byte select, and each row's operands read back. -/

namespace Sys2Proof

open Machine

/-! ## The operands of the operations -/

theorem readReset_writeCfg {c : Cfg} (h : c.wellFormed = true) (r : Bytes) :
    readReset (writeCfg c ++ r) = some (.reset c, r) := by
  rw [readReset, readCfg_writeCfg h]

theorem readEnc_writeValues (h : TxHead) {k : Kind} {d : Dir} {fields : Fields} (hf : commandFits ⟨k, d⟩ fields = true)
    (r : Bytes) :
    readEnc (writeHead h ++ [byteOfKind k, byteOfDir d] ++ writeValues fields ++ r) = some (.txEnc h k d fields, r) := by
  simp [readEnc, readHead_writeHead, kindOfByte_byteOfKind, dirOfByte_byteOfDir, readFields, readValues_writeValues hf]

theorem readRaw_writeBytes (h : TxHead) (fc : Byte) {p : Bytes} (hp : payloadFits p = true) (r : Bytes) :
    readRaw (writeHead h ++ [fc] ++ writeBytes p ++ r) = some (.txRaw h fc p, r) := by
  simp [readRaw, readHead_writeHead, readPayload_writeBytes hp]

theorem readRawAny_writeBytes (h : TxHead) (fc : Byte) {p : Bytes} (hp : payloadFits p = true) (r : Bytes) :
    readRawAny fc (writeHead h ++ writeBytes p ++ r) = some (.rawAny h fc p, r) := by
  simp [readRawAny, readHead_writeHead, readPayload_writeBytes hp]

theorem readPass_writeFrame (fc : Byte) {f : RxFrame} (h : payloadFits f.payload = true) (r : Bytes) :
    readPass fc (writeFrame f ++ r) = some (.decPass fc f, r) := by
  rw [readPass, readFrame_writeFrame h]

/-! ## The rows of the function codes -/

theorem variantOf_kindCode (k : Kind) (d : Dir) : variantOf (kindCode k) d = some ⟨k, d⟩ := by
  rw [variantOf, kindOf_kindCode, Option.map_some]

theorem variantOf_eq_none {fc : Byte} {d : Dir} : variantOf fc d = none ↔ kindOf fc = none := Option.map_eq_none_iff

theorem readVariant_kindCode (k : Kind) (d : Dir) (read : Variant → Option (Instr × Bytes)) (form : Byte) :
    readVariant (kindCode k) d read form = orBadOperands (kindCode k) form (read ⟨k, d⟩) := by
  simp only [readVariant, variantOf_kindCode]
  cases read ⟨k, d⟩ <;> rfl

/-- The form byte of a receive row (assumption 1). -/
def receiveForm : Dir → Byte
  | .up => 1
  | .down => 2

/-- The form byte of a transmit row (assumption 1). -/
def transmitForm : Dir → Byte
  | .up => 3
  | .down => 4

theorem encode_ofReceive (v : Variant) (f : RxFrame) :
    encode (Instr.ofReceive v f) = kindCode v.kind :: receiveForm v.dir :: writeFrame f := by
  rcases v with ⟨k, d⟩
  cases k <;> cases d <;> rfl

/-- An ack row writes no fields (R185). -/
theorem encode_ofTransmit (v : Variant) (h : TxHead) (fields : Fields) :
    encode (Instr.ofTransmit v h fields) =
      kindCode v.kind :: transmitForm v.dir :: (writeHead h ++ writeValues (if isAck v then [] else fields)) := by
  rcases v with ⟨k, d⟩
  cases k <;> cases d <;> rfl

/-- A function code of the six with the form byte of a direction is read as that variant's receive row. -/
theorem decode_receiveForm (v : Variant) (s : Bytes) :
    decode (kindCode v.kind :: receiveForm v.dir :: s) =
      orBadOperands (kindCode v.kind) (receiveForm v.dir) (readReceive v s) := by
  rcases v with ⟨k, d⟩
  cases d with
  | up =>
    change decodeReceiveUp (kindCode k) 1 s = _
    rw [decodeReceiveUp, variantOf_kindCode]
    rfl
  | down => exact readVariant_kindCode k .down _ 2

/-- A function code of the six with the form byte of a direction is read as that variant's transmit row. -/
theorem decode_transmitForm (v : Variant) (s : Bytes) :
    decode (kindCode v.kind :: transmitForm v.dir :: s) =
      orBadOperands (kindCode v.kind) (transmitForm v.dir) (readTransmit v s) := by
  rcases v with ⟨k, d⟩
  cases d with
  | up => exact readVariant_kindCode k .up _ 3
  | down => exact readVariant_kindCode k .down _ 4

/-- Any other function code with the UP receive form is read as DEC.PASS (R152). -/
theorem decode_passForm {fc : Byte} (h : kindOf fc = none) (s : Bytes) :
    decode (fc :: 1 :: s) = orBadOperands fc 1 (readPass fc s) := by
  change decodeReceiveUp fc 1 s = _
  rw [decodeReceiveUp, variantOf_eq_none.mpr h]

/-- A command that fits an ack variant has no fields (R96, R185). -/
theorem ackFields_of_commandFits {v : Variant} {fields : Fields} (h : commandFits v fields = true) :
    (if isAck v then [] else fields) = fields := by
  unfold commandFits commandFields at h
  split at h
  next hack =>
    cases fields with
    | nil => exact ite_self []
    | cons => cases h
  next hack => exact if_neg hack

theorem decode_encode_ofReceive (v : Variant) {f : RxFrame} (h : payloadFits f.payload = true) (rest : Bytes) :
    decode (encode (Instr.ofReceive v f) ++ rest) = .ok (Instr.ofReceive v f, rest) := by
  rw [encode_ofReceive]
  exact (decode_receiveForm v _).trans (congrArg (orBadOperands _ _) (readReceive_writeFrame v h rest))

theorem decode_encode_ofTransmit (v : Variant) (h : TxHead) {fields : Fields} (hf : commandFits v fields = true)
    (rest : Bytes) : decode (encode (Instr.ofTransmit v h fields) ++ rest) = .ok (Instr.ofTransmit v h fields, rest) := by
  rw [encode_ofTransmit, ackFields_of_commandFits hf]
  exact (decode_transmitForm v _).trans (congrArg (orBadOperands _ _) (readTransmit_writeValues h hf rest))

theorem decode_encode_decPass {fc : Byte} {f : RxFrame} (hfc : kindOf fc = none) (hp : payloadFits f.payload = true)
    (rest : Bytes) : decode (encode (.decPass fc f) ++ rest) = .ok (.decPass fc f, rest) :=
  (decode_passForm hfc _).trans (congrArg (orBadOperands _ _) (readPass_writeFrame fc hp rest))

/-- Settles O2: an operation's code selects its reader outright, a variant's row is selected by its function code and
form byte, and each reader reads back what was written. -/
theorem decodeInvertsEncode : Obligations.DecodeInvertsEncode := by
  intro i rest h
  cases i with
  | rxPush | rxPop | txTake | reserved110 | reserved111 => rfl
  | reset c => exact congrArg (orBadOperands 0 0) (readReset_writeCfg h rest)
  | txEnc hd k d fields => exact congrArg (orBadOperands 3 0) (readEnc_writeValues hd h rest)
  | txRaw hd fc p => exact congrArg (orBadOperands 4 0) (readRaw_writeBytes hd fc h rest)
  | rawAny hd fc p => exact congrArg (orBadOperands fc 5) (readRawAny_writeBytes hd fc h rest)
  | decPass fc f =>
    obtain ⟨hfc, hp⟩ := Bool.and_eq_true_iff.mp h
    exact decode_encode_decPass (of_decide_eq_true hfc) hp rest
  | decAnnounceUp f => exact decode_encode_ofReceive ⟨.announce, .up⟩ h rest
  | decEnergyUp f => exact decode_encode_ofReceive ⟨.energy, .up⟩ h rest
  | decBufferedUp f => exact decode_encode_ofReceive ⟨.bufferedEnergy, .up⟩ h rest
  | decPingUp f => exact decode_encode_ofReceive ⟨.ping, .up⟩ h rest
  | decConfigUp f => exact decode_encode_ofReceive ⟨.config, .up⟩ h rest
  | decQueryUp f => exact decode_encode_ofReceive ⟨.query, .up⟩ h rest
  | decAnnounceAck f => exact decode_encode_ofReceive ⟨.announce, .down⟩ h rest
  | decEnergyAck f => exact decode_encode_ofReceive ⟨.energy, .down⟩ h rest
  | decBufferedAck f => exact decode_encode_ofReceive ⟨.bufferedEnergy, .down⟩ h rest
  | decPingDown f => exact decode_encode_ofReceive ⟨.ping, .down⟩ h rest
  | decConfigDown f => exact decode_encode_ofReceive ⟨.config, .down⟩ h rest
  | decQueryDown f => exact decode_encode_ofReceive ⟨.query, .down⟩ h rest
  | encAnnounceUp hd fields => exact decode_encode_ofTransmit ⟨.announce, .up⟩ hd h rest
  | encEnergyUp hd fields => exact decode_encode_ofTransmit ⟨.energy, .up⟩ hd h rest
  | encBufferedUp hd fields => exact decode_encode_ofTransmit ⟨.bufferedEnergy, .up⟩ hd h rest
  | encPingUp hd fields => exact decode_encode_ofTransmit ⟨.ping, .up⟩ hd h rest
  | encConfigUp hd fields => exact decode_encode_ofTransmit ⟨.config, .up⟩ hd h rest
  | encQueryUp hd fields => exact decode_encode_ofTransmit ⟨.query, .up⟩ hd h rest
  | encAnnounceAck hd => exact decode_encode_ofTransmit ⟨.announce, .down⟩ hd (fields := []) rfl rest
  | encEnergyAck hd => exact decode_encode_ofTransmit ⟨.energy, .down⟩ hd (fields := []) rfl rest
  | encBufferedAck hd => exact decode_encode_ofTransmit ⟨.bufferedEnergy, .down⟩ hd (fields := []) rfl rest
  | encPingDown hd fields => exact decode_encode_ofTransmit ⟨.ping, .down⟩ hd h rest
  | encConfigDown hd fields => exact decode_encode_ofTransmit ⟨.config, .down⟩ hd h rest
  | encQueryDown hd fields => exact decode_encode_ofTransmit ⟨.query, .down⟩ hd h rest

/-- Settles O1: the decoder evaluated on each word. -/
theorem codesDecodeToTheirRows : Obligations.CodesDecodeToTheirRows :=
  ⟨rfl, rfl, rfl, rfl, rfl, rfl, rfl, rfl, rfl, rfl, rfl, rfl, rfl⟩

end Sys2Proof

/-! What the decoder answers could be written (R72, R96, R97): each reader checks what the types of its operands do not
carry. -/

namespace Sys2Proof

open Machine

/-! ## The checks of the operand readers -/

/-- R8, R23: a configuration read from bytes has the one layout. -/
theorem wellFormed_of_readCfg {s r : Bytes} {c : Cfg} (h : readCfg s = some (c, r)) : c.wellFormed = true := by
  unfold readCfg at h
  split at h
  next => cases h
  next m rest =>
    split at h
    next => cases h; exact decide_eq_true rfl
    next =>
      -- Every branch but the one in which each part is read answers none.
      repeat' split at h
      all_goals cases h
      exact decide_eq_true rfl

/-- R72: a frame read from bytes carries a payload that fits. -/
theorem payloadFits_of_readFrame {s r : Bytes} {f : RxFrame} (h : readFrame s = some (f, r)) :
    payloadFits f.payload = true := by
  unfold readFrame at h
  split at h
  next => cases h
  next =>
    split at h
    next p c1 c0 r2 _ =>
      split at h
      next hp => cases h; exact hp
      next => cases h
    next => cases h

/-- R72: a raw payload read from bytes fits a frame. -/
theorem payloadFits_of_readPayload {s r p : Bytes} (h : readPayload s = some (p, r)) : payloadFits p = true := by
  unfold readPayload at h
  split at h
  next =>
    split at h
    next hp => cases h; exact hp
    next => cases h
  next => cases h

/-- R96, R183: a value read for a field type is of that type. -/
theorem valueFits_of_readValue {t : FieldType} {s r : Bytes} {v : FieldVal} (h : readValue t s = some (v, r)) :
    valueFits t v = true := by
  unfold readValue at h
  split at h
  next => cases h; rfl
  next => cases h; rfl
  next => cases h; rfl
  next =>
    split at h
    next => cases h; rfl
    next => cases h
  next =>
    split at h
    next => cases h; rfl
    next => cases h
  next => cases h

/-- R96: the values read for a list of fields fit it. -/
theorem fieldsFit_of_readValues {fs : List FieldSpec} {s r : Bytes} {fields : Fields}
    (h : readValues fs s = some (fields, r)) : fieldsFit fs fields = true := by
  induction fs generalizing s fields r with
  | nil => cases h; rfl
  | cons f fs ih =>
    rw [readValues] at h
    split at h
    next => cases h
    next v r1 hv =>
      split at h
      next vs r2 hvs =>
        cases h
        simp [fieldsFit, valueFits_of_readValue hv, ih hvs]
      next => cases h

/-- R96: the fields read for a variant are a command's. -/
theorem commandFits_of_readFields {v : Variant} {s r : Bytes} {fields : Fields} (h : readFields v s = some (fields, r)) :
    commandFits v fields = true :=
  fieldsFit_of_readValues h

/-! ## The instruction readers -/

theorem wellFormed_ofReceive (v : Variant) (f : RxFrame) :
    (Instr.ofReceive v f).wellFormed = payloadFits f.payload := by
  rcases v with ⟨k, d⟩
  cases k <;> cases d <;> rfl

/-- An ack row takes no fields, so it asks nothing of them (R185). -/
theorem wellFormed_ofTransmit (v : Variant) (h : TxHead) (fields : Fields) :
    (Instr.ofTransmit v h fields).wellFormed = (isAck v || commandFits v fields) := by
  rcases v with ⟨k, d⟩
  cases k <;> cases d <;> rfl

theorem wellFormed_of_readReset {s r : Bytes} {i : Instr} (h : readReset s = some (i, r)) : i.wellFormed = true := by
  unfold readReset at h
  split at h
  next hc => cases h; exact wellFormed_of_readCfg hc
  next => cases h

theorem wellFormed_of_readPush {s r : Bytes} {i : Instr} (h : readPush s = some (i, r)) : i.wellFormed = true := by
  cases s with
  | nil => cases h
  | cons => cases h; rfl

theorem wellFormed_of_readEnc {s r : Bytes} {i : Instr} (h : readEnc s = some (i, r)) : i.wellFormed = true := by
  unfold readEnc at h
  split at h
  next =>
    split at h
    next =>
      split at h
      next hf => cases h; exact commandFits_of_readFields hf
      next => cases h
    next => cases h
  next => cases h

theorem wellFormed_of_readRaw {s r : Bytes} {i : Instr} (h : readRaw s = some (i, r)) : i.wellFormed = true := by
  unfold readRaw at h
  split at h
  next =>
    split at h
    next hp => cases h; exact payloadFits_of_readPayload hp
    next => cases h
  next => cases h

theorem wellFormed_of_readRawAny {fc : Byte} {s r : Bytes} {i : Instr} (h : readRawAny fc s = some (i, r)) :
    i.wellFormed = true := by
  unfold readRawAny at h
  split at h
  next =>
    split at h
    next hp => cases h; exact payloadFits_of_readPayload hp
    next => cases h
  next => cases h

theorem wellFormed_of_readReceive {v : Variant} {s r : Bytes} {i : Instr} (h : readReceive v s = some (i, r)) :
    i.wellFormed = true := by
  unfold readReceive at h
  split at h
  next hf => cases h; exact (wellFormed_ofReceive v _).trans (payloadFits_of_readFrame hf)
  next => cases h

/-- R97(a): DEC.PASS is well-formed where the function code is outside the six. -/
theorem wellFormed_of_readPass {fc : Byte} (hfc : kindOf fc = none) {s r : Bytes} {i : Instr}
    (h : readPass fc s = some (i, r)) : i.wellFormed = true := by
  unfold readPass at h
  split at h
  next hf =>
    cases h
    exact Bool.and_eq_true_iff.mpr ⟨decide_eq_true hfc, payloadFits_of_readFrame hf⟩
  next => cases h

theorem wellFormed_of_readTransmit {v : Variant} {s r : Bytes} {i : Instr} (h : readTransmit v s = some (i, r)) :
    i.wellFormed = true := by
  unfold readTransmit at h
  split at h
  next =>
    split at h
    next hf => cases h; rw [wellFormed_ofTransmit, commandFits_of_readFields hf, Bool.or_true]
    next => cases h
  next => cases h

/-- R95: the reader of each operation code. -/
theorem wellFormed_of_readOperation {code : Byte} {s r : Bytes} {i : Instr} (h : readOperation code s = some (i, r)) :
    i.wellFormed = true := by
  unfold readOperation at h
  split at h
  next => exact wellFormed_of_readReset h
  split at h
  next => exact wellFormed_of_readPush h
  split at h
  next => cases h; rfl
  split at h
  next => exact wellFormed_of_readEnc h
  split at h
  next => exact wellFormed_of_readRaw h
  split at h
  next => cases h; rfl
  split at h
  next => cases h; rfl
  split at h
  next => cases h; rfl
  next => cases h

/-! ## The decoder -/

theorem orBadOperands_eq_ok {code form : Byte} {x : Option (Instr × Bytes)} {y : Instr × Bytes}
    (h : orBadOperands code form x = .ok y) : x = some y := by
  cases x with
  | none => cases h
  | some z => cases h; rfl

/-- R97(f): what a form that needs one of the six codes answers was read for a variant. -/
theorem readVariant_eq_ok {fc form : Byte} {dir : Dir} {read : Variant → Option (Instr × Bytes)} {y : Instr × Bytes}
    (h : readVariant fc dir read form = .ok y) : ∃ v, read v = some y := by
  unfold readVariant at h
  split at h
  next => cases h
  next v _ =>
    split at h
    next hr => cases h; exact ⟨v, hr⟩
    next => cases h

/-- R152: the UP receive form answers a variant's row, or DEC.PASS where the code selects no variant. -/
theorem wellFormed_of_decodeReceiveUp {code form : Byte} {s r : Bytes} {i : Instr}
    (h : decodeReceiveUp code form s = .ok (i, r)) : i.wellFormed = true := by
  unfold decodeReceiveUp at h
  split at h
  next => exact wellFormed_of_readReceive (orBadOperands_eq_ok h)
  next hv => exact wellFormed_of_readPass (variantOf_eq_none.mp hv) (orBadOperands_eq_ok h)

theorem wellFormed_of_decodeForm {code form : Byte} {s r : Bytes} {i : Instr} (h : decodeForm code form s = .ok (i, r)) :
    i.wellFormed = true := by
  unfold decodeForm at h
  split at h
  next =>
    split at h
    next => exact wellFormed_of_readOperation (orBadOperands_eq_ok h)
    next => exact wellFormed_of_decodeReceiveUp h
  split at h
  next => exact wellFormed_of_decodeReceiveUp h
  split at h
  next =>
    obtain ⟨v, hv⟩ := readVariant_eq_ok h
    exact wellFormed_of_readReceive hv
  split at h
  next =>
    obtain ⟨v, hv⟩ := readVariant_eq_ok h
    exact wellFormed_of_readTransmit hv
  split at h
  next =>
    obtain ⟨v, hv⟩ := readVariant_eq_ok h
    exact wellFormed_of_readTransmit hv
  split at h
  next => exact wellFormed_of_readRawAny (orBadOperands_eq_ok h)
  next => cases h

/-- Settles O3: bytes that are read hold a code and a form byte, and every form's reader checks its operands. -/
theorem decodedIsWellFormed : Obligations.DecodedIsWellFormed := by
  intro bs i rest h
  match bs with
  | [] => cases h
  | [_] => cases h
  | _ :: _ :: _ => exact wellFormed_of_decodeForm h

end Sys2Proof

/-! The receive rows on an idle receive path (spec/42_decode.md rules R152 and R160 to R171): a verified frame whose payload
is long enough is held with its decoded message, and DEC.PASS with its frame as received. A row is the pushes of its
frame's bytes (assumption 7). -/

namespace Sys2Proof.Machine

/-! ## A row is its pushes -/

/-- R99, R120: the first byte of a sequence of pushes that is accepted leaves the rest. -/
theorem pushAll_cons_of_next {b : Byte} {s t : State} (h : exec (.rxPush b) s = .next t) (bs : Bytes) :
    pushAll (b :: bs) s = pushAll bs t := by
  rw [pushAll, show execRxPush b s = .next t from h]

/-- R121: a push that has no step ends the sequence. -/
theorem pushAll_cons_of_refused {b : Byte} {s : State} {r : Refusal} (h : exec (.rxPush b) s = .refused r) (bs : Bytes) :
    pushAll (b :: bs) s = .refused r := by
  rw [pushAll, show execRxPush b s = .refused r from h]

/-- R151: a receive row in the configured direction is the pushes of its frame. -/
theorem exec_ofReceive_eq_pushAll {v : Variant} {f : RxFrame} {s : State} (hl : s.launched = true)
    (hd : s.cfg.rxDir = v.dir) (hp : f.payload.length ≤ maxPayload) :
    exec (Instr.ofReceive v f) s = pushAll (frameBytes (kindCode v.kind) f) s := by
  rw [exec_ofReceive, receiveVariant, afterLaunch_launched hl, if_pos hd, receiveFrame, if_pos hp]

/-- R152: DEC.PASS is the pushes of its frame, in either direction. -/
theorem exec_decPass_eq_pushAll {fc : Byte} {f : RxFrame} {s : State} (hl : s.launched = true) (hfc : kindOf fc = none)
    (hp : f.payload.length ≤ maxPayload) : exec (.decPass fc f) s = pushAll (frameBytes fc f) s := by
  change execDecPass fc f s = _
  rw [execDecPass, afterLaunch_launched hl, if_pos hfc, receiveFrame, if_pos hp]

/-- Settles O47: pushes go on or stop byte by byte, and the rows are those of their frames. -/
theorem receiveRowIsItsPushes : Obligations.ReceiveRowIsItsPushes :=
  ⟨fun _ => rfl, fun _ bs _ => ⟨fun _ h => pushAll_cons_of_next h bs, fun _ h => pushAll_cons_of_refused h bs⟩,
    fun _ _ _ => exec_ofReceive_eq_pushAll, fun _ _ _ => exec_decPass_eq_pushAll⟩

/-! ## The message a row gives -/

/-- R153: a layout without a variable field needs its MINLEN. -/
theorem need_eq_minlen {l : VariantLayout} (h : l.fields.find? (fun f => isVariable f.type) = none) (p : Bytes) :
    need l p = l.minlen := by
  simp [need, variableLength, h]

/-- R153 for the layout of R86 and R88: with the length field present, the declared length is needed too. -/
theorem need_configLayout {p : Bytes} (h : 34 ≤ p.length) : need configLayout p = 34 + (be16 p 32).toNat :=
  if_neg (Nat.not_lt.mpr h)

/-- R154: a payload as long as its variant needs is decoded, without an event. -/
theorem demuxKind_of_need_le {c : Cfg} {h : Hdr} {fc : Byte} {k : Kind} {p : Bytes}
    (hn : need (layoutOf c.layout ⟨k, c.rxDir⟩) p ≤ p.length) :
    demuxKind c h fc k p = (.msg h fc c.rxDir k (decodeFields (layoutOf c.layout ⟨k, c.rxDir⟩) p), none) :=
  if_neg (Nat.not_lt.mpr hn)

/-- R154: the message of a frame of the variant `v` under the one layout. -/
def messageOf (c : Cfg) (v : Variant) (f : RxFrame) : Result :=
  .msg (hdrOf f) (kindCode v.kind) v.dir v.kind
    (decodeFields (layoutOf layoutTable v) (plaintext c (kindCode v.kind) f))

section
variable {v : Variant} {f : RxFrame} {s : State} (hs : rxIdle s) (hlayout : s.cfg.layout = layoutTable)
  (hd : s.cfg.rxDir = v.dir) (hv : verifiedFrame s.cfg (kindCode v.kind) f)
include hs hlayout hd hv

/-- R150, R154: a verified frame of the row's variant with a long enough payload is held with its decoded message. -/
theorem exec_ofReceive_message
    (hn : need (layoutOf layoutTable v) (plaintext s.cfg (kindCode v.kind) f) ≤ f.payload.length) :
    exec (Instr.ofReceive v f) s = .next (holding (kindCode v.kind) f (messageOf s.cfg v f) [] s) := by
  obtain ⟨k, d⟩ := v
  subst hd
  rw [← length_plaintext s.cfg (kindCode k), ← hlayout] at hn
  rw [exec_ofReceive, receiveVariant_verified hs rfl hv, demuxKind_of_need_le hn, hlayout]
  rfl

/-- For a layout without a variable field MINLEN bytes are enough. -/
theorem exec_ofReceive_message_of_minlen
    (hfixed : (layoutOf layoutTable v).fields.find? (fun f => isVariable f.type) = none)
    (hp : (layoutOf layoutTable v).minlen ≤ f.payload.length) :
    exec (Instr.ofReceive v f) s = .next (holding (kindCode v.kind) f (messageOf s.cfg v f) [] s) :=
  exec_ofReceive_message hs hlayout hd hv ((need_eq_minlen hfixed _).trans_le hp)

/-- For the layout of R86 and R88 the declared length is needed beside the 34 bytes. -/
theorem exec_ofReceive_message_of_declared (hconfig : layoutOf layoutTable v = configLayout)
    (h34 : 34 ≤ f.payload.length)
    (hp : 34 + (be16 (plaintext s.cfg (kindCode v.kind) f) 32).toNat ≤ f.payload.length) :
    exec (Instr.ofReceive v f) s = .next (holding (kindCode v.kind) f (messageOf s.cfg v f) [] s) := by
  apply exec_ofReceive_message hs hlayout hd hv
  rwa [hconfig, need_configLayout (by rwa [length_plaintext])]

end

/-- Settles O37: MINLEN is 173 (R80). -/
theorem decAnnounceUpResult : Obligations.DecAnnounceUpResult := fun _ _ hs hlayout hd hv hp =>
  exec_ofReceive_message_of_minlen (v := ⟨.announce, .up⟩) hs hlayout hd hv rfl hp

/-- Settles O38: the two rows have one layout, whose MINLEN is 197 (R81, R82). -/
theorem decEnergyAndBufferedUpResult : Obligations.DecEnergyAndBufferedUpResult := fun _ _ hs hlayout hd hp =>
  ⟨fun hv => exec_ofReceive_message_of_minlen (v := ⟨.energy, .up⟩) hs hlayout hd hv rfl hp,
    fun hv => exec_ofReceive_message_of_minlen (v := ⟨.bufferedEnergy, .up⟩) hs hlayout hd hv rfl hp⟩

/-- Settles O39: MINLEN is 10 in both directions (R83, R84). -/
theorem decPingResult : Obligations.DecPingResult := fun _ _ hs hlayout hv hp =>
  ⟨fun hd => exec_ofReceive_message_of_minlen (v := ⟨.ping, .up⟩) hs hlayout hd hv rfl hp,
    fun hd => exec_ofReceive_message_of_minlen (v := ⟨.ping, .down⟩) hs hlayout hd hv rfl hp⟩

/-- Settles O40: the three rows have the one layout with a variable field (R86, R88). -/
theorem decConfigShapedResult : Obligations.DecConfigShapedResult := fun _ _ hs hlayout =>
  ⟨fun hd ⟨hv, h34, hp⟩ => exec_ofReceive_message_of_declared (v := ⟨.config, .up⟩) hs hlayout hd hv rfl h34 hp,
    fun hd ⟨hv, h34, hp⟩ => exec_ofReceive_message_of_declared (v := ⟨.query, .up⟩) hs hlayout hd hv rfl h34 hp,
    fun hd ⟨hv, h34, hp⟩ => exec_ofReceive_message_of_declared (v := ⟨.config, .down⟩) hs hlayout hd hv rfl h34 hp⟩

/-- Settles O41: MINLEN is 1, and decoding compares nothing (R85). -/
theorem decAckResult : Obligations.DecAckResult := fun _ _ hs hlayout hd hp =>
  ⟨fun hv => exec_ofReceive_message_of_minlen (v := ⟨.announce, .down⟩) hs hlayout hd hv rfl hp,
    fun hv => exec_ofReceive_message_of_minlen (v := ⟨.energy, .down⟩) hs hlayout hd hv rfl hp,
    fun hv => exec_ofReceive_message_of_minlen (v := ⟨.bufferedEnergy, .down⟩) hs hlayout hd hv rfl hp⟩

/-- Settles O42: MINLEN is 34, and decoding checks no range (R87). -/
theorem decQueryDownResult : Obligations.DecQueryDownResult := fun _ _ hs hlayout hd hv hp =>
  exec_ofReceive_message_of_minlen (v := ⟨.query, .down⟩) hs hlayout hd hv rfl hp

/-! ## DEC.PASS -/

/-- R152: the demultiplexer passes on a frame whose function code is outside the six. -/
theorem demux_frameBytes_of_unknown (c : Cfg) (h : Hdr) {fc : Byte} (f : RxFrame) (hfc : kindOf fc = none) :
    demux c h (frameBytes fc f) = (.pass h fc (frameBytes fc f), some (.unknownFc h.tid fc)) := by
  have hcode : frameFc (frameBytes fc f) = fc := frameFc_frameHead ..
  simp only [demux, hcode, hfc]

/-- Settles O43: the pushes of a verified frame hold what the demultiplexer passes on. -/
theorem decPassResult : Obligations.DecPassResult := by
  intro fc f s hs hfc hv
  have hl : s.launched = true := hs.1
  rw [exec_decPass_eq_pushAll hl hfc hv.1, pushAll_frame_verified hs hv, demux_frameBytes_of_unknown _ _ f hfc]
  rfl

end Sys2Proof.Machine

/-! The layout table (R89, R92) and the reserved operation codes (R97(e)). -/

namespace Sys2Proof.Machine

/-- R89: MINLEN is the largest end of a field. -/
theorem largest_fieldEnd_eq_minlen (v : Variant) :
    ((layoutOf layoutTable v).fields.map fieldEnd).foldl max 0 = (layoutOf layoutTable v).minlen := by
  rcases v with ⟨k, d⟩
  cases k <;> cases d <;> rfl

/-- Settles O23: the check of R92, and R89 for each variant. -/
theorem layoutTableIsSound : Obligations.LayoutTableIsSound := ⟨layoutOk_layoutTable, largest_fieldEnd_eq_minlen⟩

/-- Settles O59: both meanings are refusals that read nothing of the state. -/
theorem reservedCodesHaveNoStep : Obligations.ReservedCodesHaveNoStep := fun _ => ⟨rfl, rfl⟩

end Sys2Proof.Machine

/-! The obfuscator (spec/40_cipher.md rules R110, R111 and R113): twice with one key, byte by byte, and the default
selection. -/

namespace Sys2Proof.Machine

/-! ## XOR -/

/-- R111 with the key index starting anywhere: both passes meet each data byte with the same key byte. -/
theorem xorFrom_xorFrom (k : Bytes) (i : Nat) (d : Bytes) : xorFrom k i (xorFrom k i d) = d := by
  induction d generalizing i with
  | nil => rfl
  | cons x xs ih => simp only [xorFrom, ih, BitVec.xor_assoc, BitVec.xor_self, BitVec.xor_zero]

/-- Settles O17, as the key index of R111 starts at 0 in both passes; the empty key needs no exception. -/
theorem xorIsItsOwnInverse : Obligations.XorIsItsOwnInverse := fun d k _ => xorFrom_xorFrom k 0 d

/-- R110 with the key index starting anywhere: it runs along with the data index. -/
theorem byteAt_xorFrom (k : Bytes) (i : Nat) {d : Bytes} {j : Nat} (hj : j < d.length) :
    byteAt (xorFrom k i d) j = byteAt d j ^^^ byteAt k ((i + j) % k.length) := by
  induction d generalizing i j with
  | nil => cases hj
  | cons x xs ih =>
    cases j with
    | zero => rfl
    | succ j =>
      rw [show i + (j + 1) = i + 1 + j by omega]
      exact ih (i + 1) (Nat.lt_of_succ_lt_succ hj)

/-- Settles O18: R110 is the case where the key index starts at 0. -/
theorem xorCyclesTheKey : Obligations.XorCyclesTheKey := fun d k _ =>
  ⟨length_xorKey d k, fun i hi => by rw [xorKey, byteAt_xorFrom k 0 hi, Nat.zero_add]⟩

/-! ## The default selection -/

/-- The rule that obfuscates every frame of one function code. -/
def codeRule (code : Byte) : ObfRule := ⟨none, some code, none, true⟩

theorem ruleApplies_codeRule {code fc : Byte} {pid : U16} {dir : Dir} :
    ruleApplies (codeRule code) pid fc dir = true ↔ fc = code := by
  simp [ruleApplies, codeRule, partAgrees, eq_comm]

/-- A list of such rules selects exactly the function codes it names. -/
theorem obfuscated_map_codeRule {codes : List Byte} {pid : U16} {fc : Byte} {dir : Dir} :
    obfuscated (codes.map codeRule) pid fc dir = true ↔ fc ∈ codes := by
  induction codes with
  | nil => simp [obfuscated]
  | cons code codes ih =>
    rw [List.map_cons, obfuscated, List.mem_cons]
    by_cases h : fc = code
    · rw [if_pos (ruleApplies_codeRule.mpr h)]
      exact iff_of_true rfl (.inl h)
    · rw [if_neg (mt ruleApplies_codeRule.mp h), ih, or_iff_right h]

theorem obfDefault_eq_map_codeRule : obfDefault = [0x03, 0x04, 0x16, 0x18, 0x19, 0x50].map codeRule := obfDefault_eq

/-- Settles O19: the default has one rule for each of the six codes of R113, and no other. -/
theorem defaultSelectionIsTheSixCodes : Obligations.DefaultSelectionIsTheSixCodes := fun pid fc dir => by
  rw [obfDefault_eq_map_codeRule, obfuscated_map_codeRule]
  simp only [List.mem_cons, List.not_mem_nil, or_false]

end Sys2Proof.Machine

/-! The receive path (spec/41_frame.md rules R120 to R128): what a round of settle is in each phase, and what that makes
of RX_PUSH and RX_POP. -/

namespace Sys2Proof.Machine

/-! ## The rounds of settle -/

section
variable {s : State}

/-- R123: a header that is not degenerate is latched. -/
theorem settle_latch (hp : s.rxPhase = .waitHdr) (hlen : mbapLen ≤ s.rxBuf.length)
    (hb : lenBias ≤ (headerOf s.rxBuf).len.toNat) : settle s = settle (latch (headerOf s.rxBuf) s) := by
  apply settle_of_some
  simp only [settleStep, hp, parseHeader]
  rw [if_neg (Nat.not_lt.mpr hlen), if_neg (Nat.not_lt.mpr hb)]

/-- R125: a degenerate header is reported and removed. -/
theorem settle_degenerate (hp : s.rxPhase = .waitHdr) (hlen : mbapLen ≤ s.rxBuf.length)
    (hb : (headerOf s.rxBuf).len.toNat < lenBias) :
    settle s = settle (dropFront mbapLen (emit (degenerateEvent (headerOf s.rxBuf)) s)) := by
  apply settle_of_some
  simp only [settleStep, hp, parseHeader]
  rw [if_neg (Nat.not_lt.mpr hlen), if_pos hb]

/-- R126: a whole candidate is completed. -/
theorem settle_candidate (hp : s.rxPhase = .waitBody) (hneed : s.rxNeed ≤ s.rxBuf.length) :
    settle s = settle (completeCandidate s) := by
  apply settle_of_some
  simp only [settleStep, hp]
  rw [if_neg (Nat.not_lt.mpr hneed)]

/-- R124: a candidate whose checksum matches is held with its result, and settle ends there. -/
theorem settle_deliver (hp : s.rxPhase = .waitBody) (hneed : s.rxNeed ≤ s.rxBuf.length)
    (hchk : chkOk s.cfg (candidate s) = true) :
    settle s = deliver (demux s.cfg s.hdr (candidate s)).1 (emitOpt (demux s.cfg s.hdr (candidate s)).2 s) := by
  rw [settle_candidate hp hneed, completeCandidate, if_pos hchk, settle_frameReady rfl]

/-- R124: a candidate whose checksum does not match is reported and removed. -/
theorem settle_chkFail (hp : s.rxPhase = .waitBody) (hneed : s.rxNeed ≤ s.rxBuf.length)
    (hchk : chkOk s.cfg (candidate s) ≠ true) :
    settle s = settle (setPhase .waitHdr (dropFront s.rxNeed (emit (chkFailEvent s.cfg s.hdr (candidate s)) s))) := by
  rw [settle_candidate hp hneed, completeCandidate, if_neg hchk]

/-- R129: the calculated checksum of a whole candidate covers all but its last two bytes. -/
theorem chkCalc_candidate (hneed : s.rxNeed ≤ s.rxBuf.length) :
    chkCalc s.cfg (candidate s) = chkOf s.cfg.chk ((candidate s).take (s.rxNeed - 2)) := by
  rw [chkCalc, candidate, List.length_take_of_le hneed, chkLen]

/-- R129: the received checksum of a whole candidate is its last two bytes. -/
theorem chkRx_candidate (hneed : s.rxNeed ≤ s.rxBuf.length) :
    chkRx (candidate s) = le16 (candidate s) (s.rxNeed - 2) := by
  rw [chkRx, candidate, List.length_take_of_le hneed, chkLen]

theorem chkOk_candidate_iff (hneed : s.rxNeed ≤ s.rxBuf.length) :
    chkOk s.cfg (candidate s) = true ↔
      chkOf s.cfg.chk ((candidate s).take (s.rxNeed - 2)) = le16 (candidate s) (s.rxNeed - 2) := by
  rw [chkOk, decide_eq_true_iff, chkCalc_candidate hneed, chkRx_candidate hneed]

theorem chkFailEvent_candidate (hneed : s.rxNeed ≤ s.rxBuf.length) :
    chkFailEvent s.cfg s.hdr (candidate s) = .chkFail s.hdr.tid s.hdr.pid s.hdr.len s.hdr.uid
      (le16 (candidate s) (s.rxNeed - 2)) (chkOf s.cfg.chk ((candidate s).take (s.rxNeed - 2))) := by
  rw [chkFailEvent, chkCalc_candidate hneed, chkRx_candidate hneed]

end

/-- Settle only removes bytes from the buffer (R124, R125). -/
theorem length_settle_rxBuf_le (s : State) : (settle s).rxBuf.length ≤ s.rxBuf.length := by
  refine settle_induction (fun t => t.rxBuf.length ≤ s.rxBuf.length) ?_ s le_rfl
  intro a b hab ha
  rcases settleStep_cases hab with ⟨-, -, -, rfl⟩ | ⟨-, -, -, rfl⟩ | ⟨-, -, -, rfl⟩ | ⟨-, -, -, rfl⟩
  · simp; omega
  · exact ha
  · exact ha
  · simp; omega

/-! ## RX_PUSH while bytes or a result wait -/

/-- An enabled RX_PUSH (R120). -/
theorem exec_rxPush_of_room {b : Byte} {s : State} (hl : s.launched = true) (hc : s.rxBuf.length < s.cfg.bufCap) :
    exec (.rxPush b) s = .next (settle (appendByte b s)) := execRxPush_next hl hc

/-- An enabled RX_PUSH that leaves settle nothing to do only appends its byte (R122, R127). -/
theorem exec_rxPush_of_settled {b : Byte} {s : State} (hl : s.launched = true) (hc : s.rxBuf.length < s.cfg.bufCap)
    (h : settle (appendByte b s) = appendByte b s) : exec (.rxPush b) s = .next (appendByte b s) := by
  rw [exec_rxPush_of_room hl hc, h]

/-- Settles O24: in FRAME_READY settle parses nothing. -/
theorem pushWhileReadyOnlyAppends : Obligations.PushWhileReadyOnlyAppends := fun _ _ hl hp hc =>
  exec_rxPush_of_settled hl hc (settle_frameReady hp)

/-- Settles O26: a partial header and a partial candidate wait. -/
theorem partialInputWaits : Obligations.PartialInputWaits := by
  rintro b s hl hc (⟨hp, hlen⟩ | ⟨hp, hlen⟩)
  · exact exec_rxPush_of_settled hl hc (settle_waitHdr hp (by simpa [mbapLen_eq] using hlen))
  · exact exec_rxPush_of_settled hl hc (settle_waitBody hp (by simpa using hlen))

/-! ## Headers -/

/-- The header that the seventh byte completes ends with that byte (R71). -/
theorem headerOf_seventh {a : Bytes} (h : a.length = 6) (b : Byte) :
    headerOf (a ++ [b]) = ⟨be16 (a ++ [b]) 0, be16 (a ++ [b]) 2, be16 (a ++ [b]) 4, b⟩ := by
  have hb : byteAt (a ++ [b]) 6 = b := h ▸ byteAt_append_length a [b]
  rw [headerOf_eq, hb]

/-- Settles O27: the round that latches the header; after the seventh byte the candidate is still partial, as it has
at least 10 bytes. -/
theorem headerIsLatched : Obligations.HeaderIsLatched := by
  refine ⟨fun s hp hlen hb => settle_latch hp hlen hb, fun b s hl hc hp h6 hb => ?_⟩
  have hlen : (appendByte b s).rxBuf.length = mbapLen := by simp [h6, mbapLen_eq]
  have hbody : (appendByte b s).rxBuf.length < (headerOf (appendByte b s).rxBuf).len.toNat + frameOverhead := by
    rw [hlen, mbapLen_eq, frameOverhead_eq]
    omega
  rw [exec_rxPush_of_room hl hc, settle_latch (s := appendByte b s) hp hlen.ge hb, settle_waitBody rfl hbody,
    appendByte_rxBuf, headerOf_seventh h6]
  rfl

/-- Settles O28: the round that removes the header; after the seventh byte nothing is left. -/
theorem degenerateHeaderIsDiscarded : Obligations.DegenerateHeaderIsDiscarded := by
  refine ⟨fun s hp hlen hb => settle_degenerate hp hlen hb, fun b s hl hc hp h6 hb => ?_⟩
  have hlen : (appendByte b s).rxBuf.length = mbapLen := by simp [h6, mbapLen_eq]
  have hempty : (s.rxBuf ++ [b]).drop mbapLen = [] := List.drop_eq_nil_of_le hlen.le
  rw [exec_rxPush_of_room hl hc, settle_degenerate (s := appendByte b s) hp hlen.ge hb, settle_waitHdr (by simpa using hp)
    (by simp [h6, mbapLen_eq]), appendByte_rxBuf, headerOf_seventh h6]
  simp [dropFront, emit, appendByte, degenerateEvent, hempty]

/-! ## Candidates -/

/-- Settles O29: the round that completes the candidate; after its last byte the candidate is the whole buffer. -/
theorem candidateIsSettled : Obligations.CandidateIsSettled := by
  constructor
  · intro s hp hneed
    refine ⟨fun h => settle_deliver hp hneed ((chkOk_candidate_iff hneed).mpr h), fun h => ?_⟩
    rw [settle_chkFail hp hneed (mt (chkOk_candidate_iff hneed).mp h), chkFailEvent_candidate hneed]
    rfl
  · intro b s hl hc hp hlen
    have hphase : (appendByte b s).rxPhase = .waitBody := hp
    have hneed : (appendByte b s).rxNeed ≤ (appendByte b s).rxBuf.length := by simp; omega
    have hcand : candidate (appendByte b s) = s.rxBuf ++ [b] := List.take_of_length_le (by simp; omega)
    have hempty : (s.rxBuf ++ [b]).drop s.rxNeed = [] := List.drop_eq_nil_of_le (by simp; omega)
    have hchk := chkOk_candidate_iff hneed
    rw [exec_rxPush_of_room hl hc]
    constructor
    · intro h
      rw [settle_deliver hphase hneed (hchk.mpr (by rwa [hcand])), hcand]
      rfl
    · intro h
      rw [settle_chkFail hphase hneed (mt hchk.mp (by rwa [hcand])), chkFailEvent_candidate hneed, hcand,
        settle_waitHdr rfl (by simp [hempty, mbapLen_eq])]
      simp [setPhase, dropFront, emit, appendByte, hempty]

/-! ## RX_POP and the full buffer -/

/-- An enabled RX_POP (R128). -/
theorem exec_rxPop_of_frameReady {s : State} (hl : s.launched = true) (hp : s.rxPhase = .frameReady) :
    exec .rxPop s = .next (settle (release (dropFront s.rxNeed s))) := by
  change execRxPop s = _
  rw [execRxPop, afterLaunch_launched hl, if_pos (rxOutValid_iff.mpr hp)]

/-- Settles O30: the enabled pop; a partial header that it leaves waits; and the refusal. -/
theorem popConsumesOneFrame : Obligations.PopConsumesOneFrame := by
  intro s hl
  refine ⟨exec_rxPop_of_frameReady hl, fun hp hlen => ?_, fun hp => ?_⟩
  · rw [exec_rxPop_of_frameReady hl hp, settle_waitHdr rfl (by simp [mbapLen_eq]; omega)]
    rfl
  · change execRxPop s = _
    rw [execRxPop, afterLaunch_launched hl, if_neg (mt rxOutValid_iff.mp hp)]

/-- R121: while a header or a candidate is awaited there is room, as a legal buffer holds the largest frame. -/
theorem Good.frameReady_of_full {s : State} (h : Good s) (hfull : s.cfg.bufCap ≤ s.rxBuf.length) :
    s.rxPhase = .frameReady := by
  obtain ⟨-, -, hcap, -⟩ := legalCfg_iff.mp h.legal
  rw [maxFrame_eq] at hcap
  cases hp : s.rxPhase with
  | waitHdr =>
    have hlen := h.waitHdr hp
    rw [mbapLen_eq] at hlen
    omega
  | waitBody =>
    obtain ⟨hsize, -, hlen⟩ := h.waitBody hp
    rw [frameOverhead_eq] at hsize
    have := s.hdr.len.isLt
    omega
  | frameReady => rfl

/-- Settles O25: a full buffer holds the byte back; it holds a whole frame, of at least 10 bytes, which a pop removes. -/
theorem fullBufferHoldsTheByte : Obligations.FullBufferHoldsTheByte := by
  constructor
  · intro b s hl hfull
    change execRxPush b s = _
    rw [execRxPush, afterLaunch_launched hl, if_neg (mt rxInReady_iff.mp (Nat.not_lt.mpr hfull))]
  · intro s hs hl hfull
    have hp := (hs hl).frameReady_of_full hfull
    refine ⟨hp, _, exec_rxPop_of_frameReady hl hp, ?_⟩
    obtain ⟨hsize, hbias, hneed, -⟩ := (hs hl).frameReady hp
    have hsettle := length_settle_rxBuf_le (release (dropFront s.rxNeed s))
    simp only [release_rxBuf, dropFront_rxBuf, List.length_drop, frameOverhead_eq, lenBias] at hsettle hsize hbias
    omega

end Sys2Proof.Machine

/-! The accounting of received bytes (spec/41_frame.md rule R136): each round of settle moves bytes from the buffer to the
trace, RX_POP moves a frame to the result port, and a push adds one byte. -/

namespace Sys2Proof.Machine

/-! ## What the demultiplexer accounts for -/

/-- R150, R152, R153: each form of result carries the header of its frame. -/
theorem resultHdr_demux (c : Cfg) (h : Hdr) (f : Bytes) : resultHdr (demux c h f).1 = h := by
  unfold demux
  split
  next => rfl
  next =>
    unfold demuxKind
    dsimp only
    split <;> rfl

/-- The demultiplexer's events remove nothing from the buffer: the frame they speak of stays held (R124, R152, R153). -/
theorem eventBytes_demux (c : Cfg) (h : Hdr) (f : Bytes) : ∀ e ∈ (demux c h f).2, eventBytes e = 0 := by
  unfold demux
  split
  next => simp [eventBytes]
  next =>
    unfold demuxKind
    dsimp only
    split <;> simp [eventBytes]

/-! ## Settle keeps the count -/

theorem accountedBytes_appendByte (b : Byte) (s : State) : accountedBytes (appendByte b s) = accountedBytes s + 1 := by
  simp [accountedBytes]
  omega

/-- An event of `n` bytes appended to the trace makes up for `n` bytes removed from the buffer. -/
theorem accountedBytes_dropFront_emit {e : Event} {s : State} (h : eventBytes e ≤ s.rxBuf.length) :
    accountedBytes (dropFront (eventBytes e) (emit e s)) = accountedBytes s := by
  simp [accountedBytes]
  omega

/-- R136: a round of settle removes from the buffer just what the event it emits accounts for. -/
theorem accountedBytes_of_settleStep {s t : State} (h : Coherent s) (hst : settleStep s = some t) :
    accountedBytes t = accountedBytes s := by
  rcases settleStep_cases hst with ⟨-, hlen, -, rfl⟩ | ⟨-, -, -, rfl⟩ | ⟨-, -, -, rfl⟩ | ⟨hp, hneed, -, rfl⟩
  · exact accountedBytes_dropFront_emit (e := degenerateEvent (headerOf s.rxBuf)) hlen
  · rfl
  · have hev := eventBytes_demux s.cfg s.hdr (candidate s)
    cases he : (demux s.cfg s.hdr (candidate s)).2 with
    | none => simp [accountedBytes]
    | some e => simp [accountedBytes, hev e he]
  · obtain ⟨hsize, -⟩ := h.size (by simp [hp])
    rw [hsize] at hneed ⊢
    exact accountedBytes_dropFront_emit (e := chkFailEvent s.cfg s.hdr (candidate s)) hneed

theorem accountedBytes_settle {s : State} (h : Coherent s) : accountedBytes (settle s) = accountedBytes s :=
  (settle_induction (fun t => Coherent t ∧ accountedBytes t = accountedBytes s)
    (fun _ _ hst ⟨hc, heq⟩ => ⟨hc.of_settleStep hst, (accountedBytes_of_settleStep hc hst).trans heq⟩) s ⟨h, rfl⟩).2

/-! ## The operations -/

/-- R128: the frame that RX_POP removes is the one whose result it delivers. -/
theorem accountedBytes_release {s : State} (h : Good s) (hp : s.rxPhase = .frameReady) :
    accountedBytes (release (dropFront s.rxNeed s)) = accountedBytes s := by
  obtain ⟨hsize, -, hneed, -⟩ := h.frameReady hp
  obtain ⟨r, hr⟩ := Option.isSome_iff_exists.mp (h.result.mpr hp)
  have hbytes : resultBytes r = s.rxNeed := by
    rw [h.demuxed r hr, resultBytes, resultHdr_demux, hsize]
  simp [accountedBytes, hr, hbytes]
  omega

/-- A sequence of pushes that has a step begins with a push that has one (R99). -/
theorem pushAll_cons_cases {b : Byte} {bs : Bytes} {s t : State} (h : pushAll (b :: bs) s = .next t) :
    s.launched = true ∧ s.rxBuf.length < s.cfg.bufCap ∧ pushAll bs (settle (appendByte b s)) = .next t := by
  rw [pushAll] at h
  split at h
  next u hu =>
    obtain ⟨hl, hc, rfl⟩ := execRxPush_cases hu
    exact ⟨hl, hc, h⟩
  next => cases h
  next => cases h

/-- R136: each byte pushed is one more byte accounted for. -/
theorem accountedBytes_of_pushAll {bs : Bytes} {s t : State} (hs : Good s) (h : pushAll bs s = .next t) :
    accountedBytes t = accountedBytes s + bs.length := by
  induction bs generalizing s with
  | nil => cases h; rfl
  | cons b bs ih =>
    obtain ⟨-, hcap, hrest⟩ := pushAll_cons_cases h
    have hc : Coherent (appendByte b s) := hs.coherent.of_appendByte hcap b
    rw [ih hc.good_settle hrest, accountedBytes_settle hc, accountedBytes_appendByte, List.length_cons]
    omega

/-- R61: a transmit instruction brings no byte to the receive path. -/
theorem pushedBytes_of_isTransmit {i : Instr} (h : isTransmit i = true) : pushedBytes i = 0 := by
  cases i with
  | reset | rxPop | txEnc | txRaw | txTake | reserved110 | reserved111 | encAnnounceUp | encEnergyUp | encBufferedUp
  | encPingUp | encConfigUp | encQueryUp | encAnnounceAck | encEnergyAck | encBufferedAck | encPingDown | encConfigDown
  | encQueryDown | rawAny => rfl
  | rxPush | decAnnounceUp | decEnergyUp | decBufferedUp | decPingUp | decConfigUp | decQueryUp | decAnnounceAck
  | decEnergyAck | decBufferedAck | decPingDown | decConfigDown | decQueryDown | decPass => cases h

/-- R190 to R192: of what the count reads, a transmit instruction can change the trace alone, by TX_TOO_LONG, which
accounts for no byte. -/
theorem accountedBytes_of_transmit {i : Instr} {s t : State} (hi : isTransmit i = true) (h : exec i s = .next t) :
    accountedBytes t = accountedBytes s := by
  rcases exec_transmit_cases hi h with ⟨-, hd, fc, w, -, rfl⟩ | ⟨-, tid, fc, n, -, rfl⟩ | ⟨-, b, rest, -, rfl⟩
  · rfl
  · simp [accountedBytes, eventBytes]
  · rfl

/-- R240: what RESET lets go of is the buffer. -/
theorem accountedBytes_resetTo (c : Cfg) (s : State) :
    accountedBytes (resetTo c s) + s.rxBuf.length = accountedBytes s := by
  simp [accountedBytes]
  omega

/-- Settles O14: RESET empties the buffer; pushes add their bytes; a pop moves its frame from the buffer to the result
port; and a transmit instruction leaves the count as it was. -/
theorem everyReceivedByteIsAccounted : Obligations.EveryReceivedByteIsAccounted := by
  intro i s t hs h
  rcases exec_cases h with ⟨c, rfl, -, rfl⟩ | ⟨hl, hrx, -, bs, hbs, hpush⟩ | ⟨hl, rfl, hp, rfl⟩ |
    ⟨-, htx, -⟩ | ⟨-, rfl, -⟩
  · exact ⟨fun hne => absurd rfl (hne c), fun _ _ => accountedBytes_resetTo c s⟩
  · refine ⟨fun _ => ?_, by rintro c rfl; cases hrx⟩
    rw [accountedBytes_of_pushAll (hs hl) hpush, hbs]
  · refine ⟨fun _ => ?_, by rintro c ⟨⟩⟩
    rw [accountedBytes_settle (hs hl).coherent.of_release, accountedBytes_release (hs hl) hp]
    rfl
  · refine ⟨fun _ => ?_, by rintro c rfl; cases htx⟩
    rw [accountedBytes_of_transmit htx h, pushedBytes_of_isTransmit htx]
    rfl
  · exact ⟨fun _ => accountedBytes_of_transmit (i := .txTake) rfl h, by rintro c ⟨⟩⟩

end Sys2Proof.Machine

/-! Built frames (spec/41_frame.md rules R132 to R134): their layout, their arrival on an idle receive path, and what
becomes of a frame whose checksum does not match. -/

namespace Sys2Proof.Machine

/-! ## The layout of a built frame -/

/-- What FRAME_BUILD makes, as a frame on the receive path: its checksum is the one `CHK` gives (R132). -/
def builtFrame (c : Cfg) (tid pid : U16) (uid fc : Byte) (w : Bytes) : RxFrame :=
  ⟨tid, pid, uid, w, chkOf c.chk (frameHead tid pid uid fc w)⟩

theorem frameBytes_builtFrame (c : Cfg) (tid pid : U16) (uid fc : Byte) (w : Bytes) :
    frameBytes fc (builtFrame c tid pid uid fc w) = frameBuild c tid pid uid fc w := rfl

theorem verifiedFrame_builtFrame (c : Cfg) (tid pid : U16) (uid fc : Byte) {w : Bytes} (hw : w.length ≤ maxPayload) :
    verifiedFrame c fc (builtFrame c tid pid uid fc w) := ⟨hw, rfl⟩

/-- The payload of a frame's bytes stands from offset 8 on (R70). -/
theorem slice_frameBytes_payload (fc : Byte) (f : RxFrame) : slice (frameBytes fc f) 8 f.payload.length = f.payload := by
  have h : wirePayload (frameBytes fc f) = f.payload := wirePayload_frameHead f.tid f.pid f.uid fc f.payload _ rfl
  rwa [wirePayload, length_frameBytes, frameRest_eq, Nat.add_sub_cancel] at h

/-- Settles O22: header, function code, payload and checksum are read back from a built frame. -/
theorem builtFrameLayout : Obligations.BuiltFrameLayout := by
  intro c tid pid uid fc w hw
  have hlen := length_frameBuild c tid pid uid fc w
  have hhdr : headerOf (frameBuild c tid pid uid fc w) = frameHdr tid pid uid w.length := headerOf_frameHead ..
  have hfc : frameFc (frameBuild c tid pid uid fc w) = fc := frameFc_frameHead ..
  have hchk : chkCalc c (frameBuild c tid pid uid fc w) = chkRx (frameBuild c tid pid uid fc w) :=
    of_decide_eq_true (chkOk_frameBuild c tid pid uid fc w)
  rw [chkCalc, chkRx, hlen, show w.length + 10 - chkLen = w.length + 8 from rfl] at hchk
  refine ⟨hlen, congrArg Hdr.tid hhdr, congrArg Hdr.pid hhdr, ?_, congrArg Hdr.uid hhdr, hfc,
    slice_frameBytes_payload fc (builtFrame c tid pid uid fc w), hchk.symm⟩
  exact (congrArg (fun h => h.len.toNat) hhdr).trans (frameHdr_len hw)

/-! ## A frame arrives on an idle path -/

/-- R133: short of its last byte a frame makes neither a result nor an event. -/
theorem pushAll_frame_prefix_waits {s : State} (hs : rxIdle s) (fc : Byte) {f : RxFrame}
    (hp : f.payload.length ≤ maxPayload) {k : Nat} (hk : k < f.payload.length + 10) :
    ∃ t, pushAll ((frameBytes fc f).take k) s = .next t ∧ t.rxPhase ≠ .frameReady ∧ t.ev = s.ev := by
  by_cases h7 : mbapLen ≤ k
  · exact ⟨_, pushAll_frame_prefix hs fc f hp k h7 hk, by simp [awaiting], rfl⟩
  · obtain ⟨hl, hphase, hbuf, hcap⟩ := hs
    rw [mbapLen_eq] at h7
    rw [maxFrame_eq] at hcap
    have hlen : ((frameBytes fc f).take k).length ≤ k := List.length_take_le ..
    refine ⟨_, pushAll_waitHdr _ hl hphase ?_ ?_, by simp [appendBytes, hphase], rfl⟩
    · rw [hbuf, List.length_nil, mbapLen_eq]
      omega
    · rw [hbuf, List.length_nil]
      omega

/-- Settles O34: short of the last byte the frame waits, and the verified frame is held. -/
theorem builtFrameIsAssembled : Obligations.BuiltFrameIsAssembled := by
  intro s tid pid uid fc w hs hw
  have hv := verifiedFrame_builtFrame s.cfg tid pid uid fc hw
  have hpush := pushAll_frame_verified hs hv
  rw [frameBytes_builtFrame] at hpush
  constructor
  · intro k hk
    exact pushAll_frame_prefix_waits hs fc hv.1 hk
  refine ⟨_, hpush, rfl, rfl, rfl, ?_, rfl, ?_⟩
  · exact frameHdr_len hw
  · exact slice_frameBytes_payload fc (builtFrame s.cfg tid pid uid fc w)

/-! ## A checksum that does not match -/

/-- Settles O45: a row is the pushes of its frame, whose checksum does not match. -/
theorem failedChecksumIsReported : Obligations.FailedChecksumIsReported := by
  intro f s hs hp
  have hl : s.launched = true := hs.1
  refine ⟨fun v hd hbad => ?_, fun fc hfc hbad => ?_⟩
  · rw [exec_ofReceive_eq_pushAll hl hd hp]
    exact pushAll_frame_failed hs hp hbad
  · rw [exec_decPass_eq_pushAll hl hfc hp]
    exact pushAll_frame_failed hs hp hbad

/-- The payload byte `i` of a frame is its byte `8 + i` (R70). -/
theorem frameHead_set (tid pid : U16) (uid fc : Byte) (w : Bytes) (i : Nat) (x : Byte) :
    frameHead tid pid uid fc (w.set i x) = (frameHead tid pid uid fc w).set (8 + i) x := by
  simp [frameHead, encBe16, Nat.add_comm 8 i]

theorem byteAt_frameHead_payload (tid pid : U16) (uid fc : Byte) (w : Bytes) (i : Nat) :
    byteAt (frameHead tid pid uid fc w) (8 + i) = byteAt w i :=
  byteAt_append_add (encBe16 tid ++ encBe16 pid ++ encBe16 (BitVec.ofNat 16 (w.length + lenBias)) ++ [uid, fc]) w i

/-- A built frame of which one payload byte is changed carries the checksum of the payload it was built with. -/
def corruptFrame (c : Cfg) (tid pid : U16) (uid fc : Byte) (w : Bytes) (i : Nat) (x : Byte) : RxFrame :=
  { builtFrame c tid pid uid fc w with payload := w.set i x }

theorem frameBuild_set (c : Cfg) (tid pid : U16) (uid fc : Byte) {w : Bytes} {i : Nat} (hi : i < w.length) (x : Byte) :
    (frameBuild c tid pid uid fc w).set (8 + i) x = frameBytes fc (corruptFrame c tid pid uid fc w i x) := by
  have hlen : 8 + i < (frameHead tid pid uid fc w).length := by
    rw [length_frameHead]
    omega
  rw [frameBuild, List.set_append_left _ _ hlen, ← frameHead_set]
  rfl

/-- R130: under CHK_DETECTS_1BYTE the checksum of a frame's head tells a changed payload byte. -/
theorem chkOf_frameHead_set_ne {c : Cfg} (hc : ChkDetects1Byte (chkOf c.chk)) (tid pid : U16) (uid fc : Byte) {w : Bytes}
    {i : Nat} {x : Byte} (hi : i < w.length) (hx : x ≠ byteAt w i) :
    chkOf c.chk (frameHead tid pid uid fc (w.set i x)) ≠ chkOf c.chk (frameHead tid pid uid fc w) := by
  rw [frameHead_set]
  apply hc
  · rw [length_frameHead]
    omega
  · rwa [byteAt_frameHead_payload]

/-- Settles O35: the changed frame arrives with a checksum that does not match. -/
theorem corruptPayloadIsDropped : Obligations.CorruptPayloadIsDropped := by
  intro s tid pid uid fc w i x hc hs hout hw hi hx
  have hlen : (w.set i x).length = w.length := List.length_set
  have hbad := chkOf_frameHead_set_ne hc tid pid uid fc hi hx
  rw [frameBuild_set s.cfg tid pid uid fc hi x]
  refine ⟨_, pushAll_frame_failed hs (f := corruptFrame s.cfg tid pid uid fc w i x) (hlen.trans_le hw) hbad, rfl, rfl, hout,
    rfl, _, _, hbad.symm, ?_⟩
  simp [corruptFrame, builtFrame, hdrOf, frameHdr, lenBias]

end Sys2Proof.Machine

/-! The checksums R130 names (spec/41_frame.md rules R130 and R131): each folds the bytes with a function that is
injective in the running value and in the byte, so one changed byte is never lost. -/

namespace Sys2Proof.Machine

/-! ## Folds that lose nothing -/

/-- A fold keeps two running values apart. -/
theorem foldl_injective {α β : Type} {f : α → β → α} (hf : ∀ x, Function.Injective fun c => f c x) (xs : List β) :
    Function.Injective fun c => xs.foldl f c := by
  induction xs with
  | nil => exact fun _ _ h => h
  | cons x xs ih => exact ih.comp (hf x)

/-- R130: a checksum that folds the bytes without losing the running value or the byte detects one changed byte. -/
theorem chkDetects1Byte_foldl {f : U16 → Byte → U16} (hc : ∀ x, Function.Injective fun c => f c x)
    (hx : ∀ c, Function.Injective (f c)) (c : U16) : ChkDetects1Byte (fun s => s.foldl f c) := by
  intro s i x hi hne heq
  induction s generalizing c i with
  | nil => cases hi
  | cons y ys ih =>
    cases i with
    | zero => exact hne (hx c (foldl_injective hc ys heq))
    | succ i => exact ih (f c y) i (Nat.lt_of_succ_lt_succ hi) hne heq

theorem setWidth_injective : Function.Injective fun x : Byte => x.setWidth 16 := by
  intro x y h
  have h : x.setWidth 16 = y.setWidth 16 := h
  bv_omega

/-! ## CRC16_MODBUS -/

/-- The bit that a shift of R131 moves out comes back as the top bit: the polynomial 0xA001 has it and a shifted value
has not. -/
theorem getLsbD_crcShift_top (c : U16) : (crcShift c).getLsbD 15 = c.getLsbD 0 := by
  unfold crcShift
  split
  next h => simp [h]
  next h => simpa using h

/-- A value is known from its lowest bit and what is above it. -/
theorem eq_of_ushiftRight_one {c d : U16} (h0 : c.getLsbD 0 = d.getLsbD 0) (h : c >>> 1 = d >>> 1) : c = d := by
  apply BitVec.eq_of_getLsbD_eq
  intro i _
  cases i with
  | zero => exact h0
  | succ i => simpa [Nat.add_comm 1 i] using congrArg (fun v => v.getLsbD i) h

/-- R131: a shift loses nothing. -/
theorem crcShift_injective : Function.Injective crcShift := by
  intro c d h
  have h0 : c.getLsbD 0 = d.getLsbD 0 := by rw [← getLsbD_crcShift_top, h, getLsbD_crcShift_top]
  refine eq_of_ushiftRight_one h0 ?_
  unfold crcShift at h
  rw [h0] at h
  split at h
  next => exact (BitVec.xor_left_inj _).mp h
  next => exact h

/-- The eight shifts of one byte of R131. -/
def crcShifts : U16 → U16 := crcShift^[8]

theorem crcByte_eq (c : U16) (x : Byte) : crcByte c x = crcShifts (c ^^^ x.setWidth 16) := rfl

theorem crcShifts_injective : Function.Injective crcShifts := crcShift_injective.iterate 8

theorem crcByte_injective_left (x : Byte) : Function.Injective fun c => crcByte c x := fun _ _ h =>
  (BitVec.xor_left_inj _).mp (crcShifts_injective h)

theorem crcByte_injective_right (c : U16) : Function.Injective (crcByte c) := fun _ _ h =>
  setWidth_injective ((BitVec.xor_right_inj _).mp (crcShifts_injective h))

/-- Settles O21: the bytes of R131, and the additions of the byte sum, lose nothing. -/
theorem namedChecksumsDetectOneByte : Obligations.NamedChecksumsDetectOneByte := by
  constructor
  · exact chkDetects1Byte_foldl crcByte_injective_left crcByte_injective_right 0xFFFF
  · refine chkDetects1Byte_foldl (f := fun c x => c + x.setWidth 16) (fun x => ?_) (fun c => ?_) 0
    · exact add_left_injective (x.setWidth 16)
    · exact (add_right_injective c).comp setWidth_injective

end Sys2Proof.Machine

/-! The demultiplexer (spec/42_decode.md rules R150 to R155): what each variant needs, the outcomes by function code and
payload length, the bytes that decoding reads, and the receive rows of a short payload and of the other direction. -/

namespace Sys2Proof.Machine

/-! ## What a variant needs -/

theorem minlen_le_need (l : VariantLayout) (p : Bytes) : l.minlen ≤ need l p := by
  unfold need
  split <;> omega

/-- Settles O31: three variants have the layout with a variable field (R86, R88); the others need their MINLEN. -/
theorem needOfEachVariant : Obligations.NeedOfEachVariant := by
  rintro ⟨k, d⟩ s
  cases k <;> cases d
  case config.up | config.down | query.up => rfl
  all_goals exact need_eq_minlen rfl s

/-! ## The outcomes -/

/-- R153: a payload shorter than its variant needs is reported with the two numbers. -/
theorem demuxKind_of_lt_need {c : Cfg} {h : Hdr} {fc : Byte} {k : Kind} {p : Bytes}
    (hn : p.length < need (layoutOf c.layout ⟨k, c.rxDir⟩) p) :
    demuxKind c h fc k p =
      (.derr h fc c.rxDir k p.length (need (layoutOf c.layout ⟨k, c.rxDir⟩) p),
        some (.decodeShort h.tid fc p.length (need (layoutOf c.layout ⟨k, c.rxDir⟩) p))) :=
  if_pos hn

/-- R150: a frame of one of the six codes is de-obfuscated and judged by its kind, whatever header it came with. -/
theorem demux_frameBytes_of_kind (c : Cfg) (h : Hdr) {fc : Byte} {k : Kind} (f : RxFrame) (hk : kindOf fc = some k) :
    demux c h (frameBytes fc f) = demuxKind c h fc k (transform c h.pid fc c.rxDir f.payload) := by
  have hcode : frameFc (frameBytes fc f) = fc := frameFc_frameHead ..
  have hwire : wirePayload (frameBytes fc f) = f.payload := wirePayload_frameHead _ _ _ _ _ _ rfl
  simp only [demux, hcode, hwire, hk]

/-- Settles O32: by the function code, and for one of the six by the payload's length. -/
theorem demultiplexerOutcomes : Obligations.DemultiplexerOutcomes := by
  intro c h fc f
  refine ⟨demux_frameBytes_of_unknown c h f, fun k hk => ?_⟩
  rw [demux_frameBytes_of_kind c h f hk]
  exact ⟨demuxKind_of_lt_need, demuxKind_of_need_le⟩

/-! ## The receive rows -/

/-- Settles O44: the demultiplexer reports the short payload of the row's variant. -/
theorem shortPayloadIsReported : Obligations.ShortPayloadIsReported := by
  rintro ⟨k, d⟩ f s hs rfl hv n hn
  rw [← length_plaintext s.cfg (kindCode k)] at hn ⊢
  rw [exec_ofReceive, receiveVariant_verified hs rfl hv, demuxKind_of_lt_need hn]
  rfl

/-- Settles O46: after a RESET the row asks for its direction first (R151). -/
theorem otherDirectionIsNotSelected : Obligations.OtherDirectionIsNotSelected := by
  intro v f s hl hd
  rw [exec_ofReceive, receiveVariant, afterLaunch_launched hl, if_neg hd]

/-! ## The bytes that decoding reads -/

/-- The bytes a field takes in the payload `s` (R78): a variable one as many as `s` declares. -/
def fieldWidth (l : VariantLayout) (s : Bytes) : FieldType → Nat
  | .bytesOf n => lengthIn l n s
  | t => fixedWidth t

theorem fieldWidth_of_not_isVariable {l : VariantLayout} {s : Bytes} {t : FieldType} (h : isVariable t = false) :
    fieldWidth l s t = fixedWidth t := by
  cases t with
  | bytesOf n => cases h
  | u8 | u16 | u32 | str => rfl

/-- A field's bytes are covered by the layout. -/
theorem covered_of_mem {l : VariantLayout} {s : Bytes} {f : FieldSpec} (hf : f ∈ l.fields) {i : Nat}
    (ho : f.offset ≤ i) (hi : i < f.offset + fieldWidth l s f.type) : covered l s i := ⟨f, hf, ho, hi⟩

/-- `s'` holds the bytes of `s` in the `n` places from `o` on. -/
def AgreeOn (s s' : Bytes) (o n : Nat) : Prop := ∀ i, i < n → byteAt s' (o + i) = byteAt s (o + i)

section
variable {s s' : Bytes} {o : Nat}

theorem be16_of_agreeOn (h : AgreeOn s s' o 2) : be16 s' o = be16 s o :=
  congrArg₂ (· ++ ·) (h 0 (by decide)) (h 1 (by decide))

theorem be32_of_agreeOn (h : AgreeOn s s' o 4) : be32 s' o = be32 s o := by
  simp only [be32, h 1 (by decide), h 2 (by decide), h 3 (by decide)]
  rw [show byteAt s' o = byteAt s o from h 0 (by decide)]

theorem getElem?_slice {n i : Nat} (hs : o + n ≤ s.length) (hi : i < n) : (slice s o n)[i]? = some (byteAt s (o + i)) := by
  rw [slice, List.getElem?_take_of_lt hi, List.getElem?_drop, byteAt, List.getD_eq_getElem _ _ (by omega),
    List.getElem?_eq_getElem (by omega)]

theorem slice_of_agreeOn {n : Nat} (hs : o + n ≤ s.length) (hs' : o + n ≤ s'.length) (h : AgreeOn s s' o n) :
    slice s' o n = slice s o n := by
  refine List.ext_getElem? fun i => ?_
  by_cases hi : i < n
  · rw [getElem?_slice hs' hi, getElem?_slice hs hi, h i hi]
  · rw [List.getElem?_eq_none (by rw [length_slice hs']; omega), List.getElem?_eq_none (by rw [length_slice hs]; omega)]

end

/-- R78: a field's value depends only on the field's bytes. -/
theorem readField_of_agreeOn {l : VariantLayout} {s s' : Bytes} {f : FieldSpec}
    (hw : fieldWidth l s' f.type = fieldWidth l s f.type) (hs : f.offset + fieldWidth l s f.type ≤ s.length)
    (hs' : f.offset + fieldWidth l s f.type ≤ s'.length) (h : AgreeOn s s' f.offset (fieldWidth l s f.type)) :
    readField l s' f = readField l s f := by
  obtain ⟨name, o, t⟩ := f
  cases t with
  | u8 => exact congrArg FieldVal.u8 (h 0 Nat.one_pos)
  | u16 => exact congrArg FieldVal.u16 (be16_of_agreeOn h)
  | u32 => exact congrArg FieldVal.u32 (be32_of_agreeOn h)
  | str w => exact congrArg FieldVal.bytes (slice_of_agreeOn hs hs' h)
  | bytesOf n =>
    change FieldVal.bytes (slice s' o (fieldWidth l s' (.bytesOf n))) = .bytes (slice s o (fieldWidth l s (.bytesOf n)))
    rw [hw, slice_of_agreeOn hs hs' h]

section
variable {l : VariantLayout} {s s' : Bytes} (hagree : ∀ i, covered l s i → byteAt s' i = byteAt s i)
include hagree

theorem agreeOn_of_mem {f : FieldSpec} (hf : f ∈ l.fields) : AgreeOn s s' f.offset (fieldWidth l s f.type) :=
  fun i hi => hagree _ (covered_of_mem hf (Nat.le_add_right _ i) (Nat.add_lt_add_left hi _))

/-- R155: payloads of `NEED` bytes that agree on the bytes covered decode alike, if the fields are as wide in both and lie
within `NEED`. -/
theorem decodeFields_of_agree (hw : ∀ f ∈ l.fields, fieldWidth l s' f.type = fieldWidth l s f.type)
    (hle : ∀ f ∈ l.fields, f.offset + fieldWidth l s f.type ≤ need l s)
    (hs : need l s ≤ s.length) (hs' : need l s ≤ s'.length) : decodeFields l s' = decodeFields l s :=
  List.map_congr_left fun f hf => congrArg (f.name, ·)
    (readField_of_agreeOn (hw f hf) ((hle f hf).trans hs) ((hle f hf).trans hs') (agreeOn_of_mem hagree hf))

/-- R155 for a layout without a variable field. -/
theorem uncovered_not_read_of_fixed (hfixed : l.fields.find? (fun f => isVariable f.type) = none)
    (hend : ∀ f ∈ l.fields, fieldEnd f ≤ l.minlen) (hs : need l s ≤ s.length) (hs' : need l s ≤ s'.length) :
    need l s' = need l s ∧ decodeFields l s' = decodeFields l s := by
  have hneed := need_eq_minlen hfixed
  have hwidth (p : Bytes) (f : FieldSpec) (hf : f ∈ l.fields) : fieldWidth l p f.type = fixedWidth f.type :=
    fieldWidth_of_not_isVariable (by simpa using List.find?_eq_none.mp hfixed f hf)
  refine ⟨by rw [hneed, hneed], decodeFields_of_agree hagree (fun f hf => ?_) (fun f hf => ?_) hs hs'⟩
  · rw [hwidth s' f hf, hwidth s f hf]
  · rw [hwidth s f hf, hneed]
    exact hend f hf

end

/-- R89, R92: every field's fixed part lies within MINLEN. -/
theorem fieldEnd_le_minlen (v : Variant) :
    ∀ f ∈ (layoutOf layoutTable v).fields, fieldEnd f ≤ (layoutOf layoutTable v).minlen := by
  rcases v with ⟨k, d⟩
  cases k <;> cases d <;> decide

/-- R86: config_value is the only variable field. -/
theorem not_isVariable_or_configValue :
    ∀ f ∈ configLayout.fields, isVariable f.type = false ∨ f = ⟨.configValue, 34, .bytesOf .configLength⟩ := by
  decide

/-- R155 for the layout of R86 and R88: the declared length, which fixes the width of config_value, is itself covered. -/
theorem uncovered_not_read_of_configLayout {s s' : Bytes}
    (hagree : ∀ i, covered configLayout s i → byteAt s' i = byteAt s i)
    (hs : need configLayout s ≤ s.length) (hs' : need configLayout s ≤ s'.length) :
    need configLayout s' = need configLayout s ∧ decodeFields configLayout s' = decodeFields configLayout s := by
  have h34 : 34 ≤ need configLayout s := minlen_le_need configLayout s
  have hneed : need configLayout s = 34 + (be16 s 32).toNat := need_configLayout (h34.trans hs)
  have hlen : be16 s' 32 = be16 s 32 := be16_of_agreeOn
    (agreeOn_of_mem (l := configLayout) (f := ⟨.configLength, 32, .u16⟩) hagree (by decide))
  refine ⟨by rw [need_configLayout (h34.trans hs'), hneed, hlen],
    decodeFields_of_agree hagree (fun f hf => ?_) (fun f hf => ?_) hs hs'⟩
  · obtain hfixed | rfl := not_isVariable_or_configValue f hf
    · rw [fieldWidth_of_not_isVariable hfixed, fieldWidth_of_not_isVariable hfixed]
    · exact congrArg BitVec.toNat hlen
  · obtain hfixed | rfl := not_isVariable_or_configValue f hf
    · rw [fieldWidth_of_not_isVariable hfixed]
      exact (fieldEnd_le_minlen ⟨.config, .up⟩ f hf).trans h34
    · exact hneed.ge

/-- Settles O33: CONFIG.UP, CONFIG.DOWN and QUERY.UP have the layout with a variable field, the other variants none. -/
theorem uncoveredBytesAreNotRead : Obligations.UncoveredBytesAreNotRead := by
  intro v s s' l hs hs' hagree
  have hend := fieldEnd_le_minlen v
  obtain ⟨k, d⟩ := v
  cases k <;> cases d
  case config.up | config.down | query.up => exact uncovered_not_read_of_configLayout hagree hs hs'
  all_goals exact uncovered_not_read_of_fixed hagree rfl hend hs hs'

end Sys2Proof.Machine

/-! The transmit operations and rows (spec/43_encode.md rules R180 to R204): the payload each layout gives, and what an
idle transmit side makes of a command. -/

namespace Sys2Proof.Machine

/-! ## TX_TAKE, TX_RAW and RAW.ANY -/

/-- Settles O57: after a RESET the take asks for nothing but a byte in the queue. -/
theorem takeDeliversTheFrontByte : Obligations.TakeDeliversTheFrontByte := by
  constructor
  · intro b rest s hl hq
    change execTxTake s = _
    rw [execTxTake, afterLaunch_launched hl, hq]
    rfl
  · intro s hl hq
    change execTxTake s = _
    rw [execTxTake, afterLaunch_launched hl, hq]

/-- R191: a payload that fits a frame is framed by an idle transmit side. -/
theorem transmitRaw_idle {s : State} (hs : txIdle s) (h : TxHead) (fc : Byte) {w : Bytes} (hw : w.length ≤ maxPayload) :
    transmitRaw h fc w s = .next (enqueue (frameBuild s.cfg h.tid h.pid h.uid fc w) s) := by
  rw [transmitRaw, afterLaunch_launched hs.1, if_pos (txCmdReady_iff.mpr hs.2), if_pos hw]

/-- Settles O56: the operation and the row are one meaning. -/
theorem rawPayloadIsFramedAsGiven : Obligations.RawPayloadIsFramedAsGiven := fun h fc _ _ hs hw =>
  ⟨transmitRaw_idle hs h fc hw, transmitRaw_idle hs h fc hw⟩

/-! ## The fields a command sends -/

/-- The fields whose values an ENC command writes: ACK_BYTE for an ack variant, its own for any other (R185). -/
def sentFields (c : Cfg) (v : Variant) (fields : Fields) : Fields :=
  if isAck v then [(.ack, .u8 c.ackByte)] else fields

theorem encodePayload_eq {c : Cfg} (hlayout : c.layout = layoutTable) (v : Variant) (fields : Fields) :
    encodePayload c v fields = encodeFields (layoutOf layoutTable v) (sentFields c v fields) := by
  rw [encodePayload, hlayout, sentFields]

/-- R85: the three ack variants have one layout. -/
theorem layoutOf_of_isAck {v : Variant} (h : isAck v = true) : layoutOf layoutTable v = ackLayout := by
  obtain ⟨k, d⟩ := v
  cases k <;> cases d
  case announce.down | energy.down | bufferedEnergy.down => rfl
  all_goals cases h

/-- What a fitting command sends gives a value for every field of its variant's layout (R96, R185). -/
theorem fieldsFit_sentFields (c : Cfg) {v : Variant} {fields : Fields} (hf : commandFits v fields = true) :
    fieldsFit (layoutOf layoutTable v).fields (sentFields c v fields) = true := by
  unfold commandFits commandFields at hf
  unfold sentFields
  split at hf
  next hack => rw [if_pos hack, layoutOf_of_isAck hack]; rfl
  next hack => rwa [if_neg hack]

/-! ## An idle transmit side takes a command -/

section
variable {s : State} (hs : txIdle s) (hlayout : s.cfg.layout = layoutTable) {v : Variant} (h : TxHead) {fields : Fields}
  (hf : commandFits v fields = true) {p : Bytes}
  (hp : encodeFields (layoutOf layoutTable v) (sentFields s.cfg v fields) = p)
include hs hlayout hf hp

/-- R190: a fitting command is accepted with the payload of its layout. -/
theorem transmitVariant_sends : transmitVariant v h fields s = .next (sendEncoded v h p s) := by
  rw [transmitVariant_idle hs h (by rw [hlayout]; exact hf), encodePayload_eq hlayout, hp]

/-- R190: a payload that a frame can carry is queued. -/
theorem transmitVariant_queues (hle : p.length ≤ maxPayload) :
    transmitVariant v h fields s = .next (queued v h p s) := by
  rw [transmitVariant_sends hs hlayout h hf hp, sendEncoded, if_neg (Nat.not_lt.mpr hle)]
  rfl

/-- R190: a longer payload is reported, and nothing is queued. -/
theorem transmitVariant_reports (hlt : maxPayload < p.length) :
    transmitVariant v h fields s = .next (emit (.txTooLong h.tid (kindCode v.kind) p.length) s) := by
  rw [transmitVariant_sends hs hlayout h hf hp, sendEncoded, if_pos hlt]

end

/-- A transmit row with a fitting command is TX_ENC of its variant. -/
theorem exec_ofTransmit_of_commandFits {v : Variant} {fields : Fields} (hf : commandFits v fields = true) (h : TxHead)
    (s : State) : exec (Instr.ofTransmit v h fields) s = transmitVariant v h fields s := by
  rw [exec_ofTransmit, ackFields_of_commandFits hf]

/-- Settles O49: the row shares TX_ENC's meaning, and the payload's length decides between the two outcomes. -/
theorem txEncQueuesOrReports : Obligations.TxEncQueuesOrReports := by
  intro h k d fields s hs hlayout hf
  have hp := (encodePayload_eq hlayout ⟨k, d⟩ fields).symm
  exact ⟨(exec_ofTransmit_of_commandFits hf h s).symm, transmitVariant_queues hs hlayout h hf hp,
    transmitVariant_reports hs hlayout h hf hp⟩

/-! ## The payload of each layout -/

@[simp] theorem zeros_zero : zeros 0 = [] := rfl

/-- R83, R84. -/
theorem encodeFields_pingLayout (wifi : Bytes) :
    encodeFields pingLayout [(.wifiSerial, .bytes wifi)] = fitTo 10 wifi := by
  rw [encodeFields_laid rfl rfl]
  simp [laid, pingLayout, encodeValue, widthIn, encodedLength, isVariable]

/-- R85. -/
theorem encodeFields_ackLayout (ack : Byte) : encodeFields ackLayout [(.ack, .u8 ack)] = [ack] := rfl

/-- R87. -/
theorem encodeFields_rangeLayout (wifi : Bytes) (first last : U16) :
    encodeFields rangeLayout [(.wifiSerial, .bytes wifi), (.firstConfig, .u16 first), (.lastConfig, .u16 last)] =
      fitTo 10 wifi ++ zeros 20 ++ encBe16 first ++ encBe16 last := by
  rw [encodeFields_laid rfl rfl]
  simp [laid, rangeLayout, encodeValue, widthIn, encodedLength, isVariable]

/-- The fields of the layout of R86 and R88. -/
def configFields (wifi : Bytes) (id len : U16) (value : Bytes) : Fields :=
  [(.wifiSerial, .bytes wifi), (.configId, .u16 id), (.configLength, .u16 len), (.configValue, .bytes value)]

theorem declaredLength_configFields (wifi : Bytes) (id len : U16) (value : Bytes) :
    declaredLength .configLength (configFields wifi id len value) = len.toNat := rfl

/-- The payload of R86 and R88, the value sized by the declared length (R184). -/
def configPayload (wifi : Bytes) (id len : U16) (value : Bytes) : Bytes :=
  fitTo 10 wifi ++ zeros 20 ++ encBe16 id ++ encBe16 len ++ fitTo len.toNat value

theorem length_configPayload (wifi : Bytes) (id len : U16) (value : Bytes) :
    (configPayload wifi id len value).length = 34 + len.toNat := by
  simp [configPayload]
  omega

theorem encodeFields_configLayout (wifi : Bytes) (id len : U16) (value : Bytes) :
    encodeFields configLayout (configFields wifi id len value) = configPayload wifi id len value := by
  have hvalue := congrArg (fitTo · value) (declaredLength_configFields wifi id len value)
  rw [encodeFields_laid (l := configLayout) rfl (inOrder_layoutTable ⟨.config, .up⟩ _)]
  simpa [laid, configLayout, configFields, configPayload, encodeValue, widthIn, encodedLength, isVariable] using hvalue

section
variable {v : Variant} (hv : layoutOf layoutTable v = configLayout)
include hv

theorem isAck_eq_false_of_config : isAck v = false := by
  refine Bool.eq_false_iff.mpr fun hack => ?_
  rw [layoutOf_of_isAck hack] at hv
  exact absurd hv (by decide)

theorem commandFits_configFields (wifi : Bytes) (id len : U16) (value : Bytes) :
    commandFits v (configFields wifi id len value) = true := by
  rw [commandFits, commandFields, isAck_eq_false_of_config hv, hv]
  rfl

/-- A variant with the layout of R86 and R88 sends that layout's payload. -/
theorem encodeFields_sentFields_config (c : Cfg) (wifi : Bytes) (id len : U16) (value : Bytes) :
    encodeFields (layoutOf layoutTable v) (sentFields c v (configFields wifi id len value)) =
      configPayload wifi id len value := by
  rw [sentFields, isAck_eq_false_of_config hv, hv]
  exact encodeFields_configLayout wifi id len value

end

/-! ## The rows -/

/-- Settles O50: the payload of R80's layout has 173 bytes. -/
theorem encAnnounceUpQueues : Obligations.EncAnnounceUpQueues := by
  intro h wifi device type ye mo da ho mi se s hs hlayout
  refine transmitVariant_queues (v := ⟨.announce, .up⟩) hs hlayout h rfl ?_ ?_
  · change encodeFields announceLayout _ = _
    rw [encodeFields_laid rfl rfl]
    simp [sentFields, isAck, laid, announceLayout, encodeValue, widthIn, encodedLength, isVariable]
  · simp [maxPayload_eq]

/-- Settles O51: the two rows have one layout, whose payload has 197 bytes (R81, R82). -/
theorem encEnergyAndBufferedUpQueue : Obligations.EncEnergyAndBufferedUpQueue := by
  intro h wifi inverter ye mo da ho mi se status ppv vpv1 ipv1 ppv1 vpv2 ipv2 ppv2 pac fac vac1 iac1 pac1
    eacD eacT epvT epv1D epv1T epv2D epv2T s hs hlayout fields p
  have hp : encodeFields energyLayout fields = p := by
    rw [encodeFields_laid rfl rfl]
    simp [fields, p, laid, energyLayout, encodeValue, widthIn, encodedLength, isVariable]
  have hle : p.length ≤ maxPayload := by simp [p, maxPayload_eq]
  exact ⟨transmitVariant_queues (v := ⟨.energy, .up⟩) hs hlayout h rfl hp hle,
    transmitVariant_queues (v := ⟨.bufferedEnergy, .up⟩) hs hlayout h rfl hp hle⟩

section
variable {s : State} (hs : txIdle s) (hlayout : s.cfg.layout = layoutTable) (h : TxHead)
include hs hlayout

/-- R185: an ack variant's payload is the byte ACK_BYTE. -/
theorem transmitVariant_ack {v : Variant} (hack : isAck v = true) :
    transmitVariant v h [] s = .next (queued v h [s.cfg.ackByte] s) := by
  have hf : commandFits v [] = true := by rw [commandFits, commandFields, if_pos hack]; rfl
  refine transmitVariant_queues hs hlayout h hf ?_ (by simp [maxPayload_eq])
  rw [sentFields, if_pos hack, layoutOf_of_isAck hack, encodeFields_ackLayout]

/-- R196, R197: a Ping's payload is its serial in either direction. -/
theorem transmitVariant_ping (d : Dir) (wifi : Bytes) :
    transmitVariant ⟨.ping, d⟩ h [(.wifiSerial, .bytes wifi)] s = .next (queued ⟨.ping, d⟩ h (fitTo 10 wifi) s) := by
  have hle : (fitTo 10 wifi).length ≤ maxPayload := by simp [maxPayload_eq]
  cases d <;> exact transmitVariant_queues hs hlayout h rfl (encodeFields_pingLayout wifi) hle

/-- R203: any range is sent. -/
theorem transmitVariant_queryDown (wifi : Bytes) (first last : U16) :
    transmitVariant ⟨.query, .down⟩ h
        [(.wifiSerial, .bytes wifi), (.firstConfig, .u16 first), (.lastConfig, .u16 last)] s =
      .next (queued ⟨.query, .down⟩ h (fitTo 10 wifi ++ zeros 20 ++ encBe16 first ++ encBe16 last) s) :=
  transmitVariant_queues hs hlayout h rfl (encodeFields_rangeLayout wifi first last) (by simp [maxPayload_eq])

section
variable {v : Variant} (hv : layoutOf layoutTable v = configLayout) (wifi : Bytes) (id : U16) {len : U16} (value : Bytes)
include hv

/-- R201, R202, R204: a declared length that leaves room for the 34 bytes before the value is sent. -/
theorem transmitVariant_config_queues (hlen : len.toNat ≤ 65499) :
    transmitVariant v h (configFields wifi id len value) s =
      .next (queued v h (configPayload wifi id len value) s) := by
  refine transmitVariant_queues hs hlayout h (commandFits_configFields hv ..) (encodeFields_sentFields_config hv ..) ?_
  rw [length_configPayload, maxPayload_eq]
  omega

/-- R190: a greater declared length is reported. -/
theorem transmitVariant_config_reports (hlen : 65499 < len.toNat) :
    transmitVariant v h (configFields wifi id len value) s =
      .next (emit (.txTooLong h.tid (kindCode v.kind) (34 + len.toNat)) s) := by
  have hpayload := length_configPayload wifi id len value
  rw [transmitVariant_reports hs hlayout h (commandFits_configFields hv ..) (encodeFields_sentFields_config hv ..),
    hpayload]
  rw [hpayload, maxPayload_eq]
  omega

end

end

/-- Settles O52: one layout in both directions. -/
theorem encPingQueues : Obligations.EncPingQueues := fun h wifi _ hs hlayout =>
  ⟨transmitVariant_ping hs hlayout h .up wifi, transmitVariant_ping hs hlayout h .down wifi⟩

/-- Settles O53: the three rows are those of the ack variants. -/
theorem encAckQueues : Obligations.EncAckQueues := fun h _ hs hlayout =>
  ⟨transmitVariant_ack hs hlayout h (v := ⟨.announce, .down⟩) rfl,
    transmitVariant_ack hs hlayout h (v := ⟨.energy, .down⟩) rfl,
    transmitVariant_ack hs hlayout h (v := ⟨.bufferedEnergy, .down⟩) rfl⟩

/-- Settles O54: the three rows have one layout, whose payload has the 34 bytes before the value and the declared length. -/
theorem encConfigShapedQueues : Obligations.EncConfigShapedQueues := by
  intro h wifi id len value s hs hlayout fields p tooLong
  constructor
  · intro hlen
    exact ⟨transmitVariant_config_queues hs hlayout h (v := ⟨.config, .down⟩) rfl wifi id value hlen,
      transmitVariant_config_queues hs hlayout h (v := ⟨.config, .up⟩) rfl wifi id value hlen,
      transmitVariant_config_queues hs hlayout h (v := ⟨.query, .up⟩) rfl wifi id value hlen⟩
  · intro hlen
    exact ⟨transmitVariant_config_reports hs hlayout h (v := ⟨.config, .down⟩) rfl wifi id value hlen,
      transmitVariant_config_reports hs hlayout h (v := ⟨.config, .up⟩) rfl wifi id value hlen,
      transmitVariant_config_reports hs hlayout h (v := ⟨.query, .up⟩) rfl wifi id value hlen⟩

/-- Settles O55: the payload of the layout of R87, with no check of the range. -/
theorem encQueryDownQueues : Obligations.EncQueryDownQueues := fun h wifi first last _ hs hlayout =>
  transmitVariant_queryDown hs hlayout h wifi first last

/-- Settles O60: each message is TX_ENC of an acknowledgment, a config, a range or a ping. -/
theorem negotiationMessagesAreQueued : Obligations.NegotiationMessagesAreQueued := by
  intro h wifi value id len s hs hlayout queues serial
  have hconfig : layoutOf layoutTable ⟨.config, .down⟩ = configLayout := rfl
  have hrange := transmitVariant_queryDown hs hlayout h wifi
  refine ⟨⟨rfl, transmitVariant_ack hs hlayout h rfl⟩, ⟨rfl, transmitVariant_ack hs hlayout h rfl⟩,
    ⟨rfl, transmitVariant_ack hs hlayout h rfl⟩, ⟨rfl, ?_⟩, ⟨rfl, hrange configIdFirst configIdLast⟩,
    fun hlen => ⟨rfl, transmitVariant_config_queues hs hlayout h hconfig wifi id value hlen⟩,
    transmitVariant_config_reports hs hlayout h hconfig wifi id value, ⟨rfl, hrange id id⟩,
    ⟨rfl, transmitVariant_ping hs hlayout h .down wifi⟩⟩
  exact transmitVariant_config_queues hs hlayout h hconfig wifi configIdDate value (len := dateLength) (by decide)

end Sys2Proof.Machine

/-! Encode then decode (spec/43_encode.md rule R205): the payload is de-obfuscated, needs just its own length, and its
fields are read back normalised. -/

namespace Sys2Proof.Machine

/-! ## The bytes of a fitting command -/

theorem fieldsFit_cons {f : FieldSpec} {fs : List FieldSpec} {fields : Fields} (h : fieldsFit (f :: fs) fields = true) :
    ∃ x rest, fields = (f.name, x) :: rest ∧ valueFits f.type x = true ∧ fieldsFit fs rest = true := by
  obtain - | ⟨⟨n, x⟩, rest⟩ := fields
  · cases h
  · simp only [fieldsFit, Bool.and_eq_true, beq_iff_eq] at h
    obtain ⟨⟨rfl, hx⟩, hrest⟩ := h
    exact ⟨x, rest, rfl, hx, hrest⟩

theorem eq_nil_of_fieldsFit {fields : Fields} (h : fieldsFit [] fields = true) : fields = [] := by
  cases fields with
  | nil => rfl
  | cons => cases h

theorem exists_u16_of_valueFits {x : FieldVal} (h : valueFits .u16 x = true) : ∃ a, x = .u16 a := by
  cases x with
  | u16 a => exact ⟨a, rfl⟩
  | u8 | u32 | bytes => cases h

theorem exists_bytes_of_valueFits_str {w : Nat} {x : FieldVal} (h : valueFits (.str w) x = true) : ∃ a, x = .bytes a := by
  cases x with
  | bytes a => exact ⟨a, rfl⟩
  | u8 | u16 | u32 => cases h

theorem exists_bytes_of_valueFits_bytesOf {n : FieldName} {x : FieldVal} (h : valueFits (.bytesOf n) x = true) :
    ∃ a, x = .bytes a := by
  cases x with
  | bytes a => exact ⟨a, rfl⟩
  | u8 | u16 | u32 => cases h

/-- A list that fits the layout of R86 and R88 is a record of its four fields (R96). -/
theorem exists_configFields {fields : Fields} (h : fieldsFit configLayout.fields fields = true) :
    ∃ wifi id len value, fields = configFields wifi id len value := by
  obtain ⟨_, _, rfl, hwifi, h⟩ := fieldsFit_cons h
  obtain ⟨_, _, rfl, hid, h⟩ := fieldsFit_cons h
  obtain ⟨_, _, rfl, hlen, h⟩ := fieldsFit_cons h
  obtain ⟨_, _, rfl, hvalue, h⟩ := fieldsFit_cons h
  obtain rfl := eq_nil_of_fieldsFit h
  obtain ⟨wifi, rfl⟩ := exists_bytes_of_valueFits_str hwifi
  obtain ⟨id, rfl⟩ := exists_u16_of_valueFits hid
  obtain ⟨len, rfl⟩ := exists_u16_of_valueFits hlen
  obtain ⟨value, rfl⟩ := exists_bytes_of_valueFits_bytesOf hvalue
  exact ⟨wifi, id, len, value, rfl⟩

/-- R86: the declared length stands at offset 32. -/
theorem be16_configPayload (wifi : Bytes) (id len : U16) (value : Bytes) :
    be16 (configPayload wifi id len value) 32 = len := by
  have h := be16_encBe16 (fitTo 10 wifi ++ zeros 20 ++ encBe16 id) (fitTo len.toNat value) len
  simpa [configPayload] using h

/-! ## The declared length is read back -/

/-- `s` declares for each variable field of a layout the length that the command's fields declare (R78, R184). -/
def DeclaresLengths (l : VariantLayout) (fields : Fields) (s : Bytes) : Prop :=
  ∀ f ∈ l.fields, ∀ n, f.type = .bytesOf n → lengthIn l n s = declaredLength n fields

/-- A layout without a variable field has no length to declare. -/
theorem declaresLengths_of_fixed {l : VariantLayout} (hfixed : l.fields.find? (fun f => isVariable f.type) = none)
    (fields : Fields) (s : Bytes) : DeclaresLengths l fields s := by
  intro f hf n hn
  have hvar := List.find?_eq_none.mp hfixed f hf
  rw [hn] at hvar
  exact absurd rfl hvar

theorem declaresLengths_configLayout {fields : Fields} (hf : fieldsFit configLayout.fields fields = true) :
    DeclaresLengths configLayout fields (encodeFields configLayout fields) := by
  obtain ⟨wifi, id, len, value, rfl⟩ := exists_configFields hf
  rw [encodeFields_configLayout]
  intro f hmem n hn
  obtain hfixed | rfl := not_isVariable_or_configValue f hmem
  · rw [hn] at hfixed
    cases hfixed
  · cases hn
    exact congrArg BitVec.toNat (be16_configPayload wifi id len value)

/-- What ENCODE builds declares the lengths of its command. -/
theorem declaresLengths_encodeFields {v : Variant} {fields : Fields}
    (hf : fieldsFit (layoutOf layoutTable v).fields fields = true) :
    DeclaresLengths (layoutOf layoutTable v) fields (encodeFields (layoutOf layoutTable v) fields) := by
  obtain ⟨k, d⟩ := v
  cases k <;> cases d
  case config.up | config.down | query.up => exact declaresLengths_configLayout hf
  all_goals exact declaresLengths_of_fixed rfl _ _

/-- R89, R153: with the lengths declared, ENCODE and NEED add the same to MINLEN. -/
theorem encodedLength_of_declaresLengths {l : VariantLayout} {fields : Fields} {s : Bytes}
    (h : DeclaresLengths l fields s) : encodedLength l fields = l.minlen + variableLength l s := by
  unfold encodedLength variableLength
  cases hfind : l.fields.find? (fun f => isVariable f.type) with
  | none => rfl
  | some f =>
    have hmem := List.mem_of_find?_eq_some hfind
    obtain ⟨name, o, t⟩ := f
    cases t with
    | bytesOf n => exact congrArg (l.minlen + ·) (h _ hmem n rfl).symm
    | u8 | u16 | u32 | str => rfl

section
variable {v : Variant} {fields : Fields} (hf : fieldsFit (layoutOf layoutTable v).fields fields = true)
include hf

/-- R153: the payload that ENCODE builds is just as long as DECODE needs. -/
theorem need_encodeFields :
    need (layoutOf layoutTable v) (encodeFields (layoutOf layoutTable v) fields) =
      (encodeFields (layoutOf layoutTable v) fields).length := by
  have hlen := length_encodeFields hf (inOrder_layoutTable v fields)
  rw [encodedLength_of_declaresLengths (declaresLengths_encodeFields hf)] at hlen
  rw [need, if_neg (by omega), hlen]

/-- R154, R180: DECODE reads back what ENCODE wrote, normalised. -/
theorem decodeFields_encodeFields :
    decodeFields (layoutOf layoutTable v) (encodeFields (layoutOf layoutTable v) fields) =
      normaliseFields fields (layoutOf layoutTable v).fields fields :=
  readFields_laid (pre := []) hf (inOrder_layoutTable v fields) (encodeFields_laid hf (inOrder_layoutTable v fields))
    (declaresLengths_encodeFields hf)

end

/-- R185, R205: of what is sent, an ack's byte needs no normalisation. -/
theorem normaliseFields_sentFields (c : Cfg) (v : Variant) (fields : Fields) :
    normaliseFields (sentFields c v fields) (layoutOf layoutTable v).fields (sentFields c v fields) =
      if isAck v then [(.ack, .u8 c.ackByte)] else normaliseFields fields (layoutOf layoutTable v).fields fields := by
  unfold sentFields
  split
  next hack => rw [layoutOf_of_isAck hack]; rfl
  next => rfl

/-! ## Two blocks that share KEY, CHK and OBF_SEL -/

/-- R111, R112: de-obfuscation with the same key and selection undoes obfuscation. -/
theorem transform_transform {c c' : Cfg} (hkey : c'.key = c.key) (hsel : c'.obfSel = c.obfSel) (pid : U16) (fc : Byte)
    (dir : Dir) (p : Bytes) : transform c' pid fc dir (transform c pid fc dir p) = p := by
  unfold transform
  rw [hkey, hsel]
  split
  next => exact xorFrom_xorFrom c.key 0 p
  next => rfl

/-- R132: of the configuration a built frame depends on the checksum alone. -/
theorem frameBuild_of_chk {c c' : Cfg} (hchk : c'.chk = c.chk) (tid pid : U16) (uid fc : Byte) (w : Bytes) :
    frameBuild c' tid pid uid fc w = frameBuild c tid pid uid fc w := by
  rw [frameBuild, hchk, frameBuild]

/-- R205: a block that shares KEY, CHK and OBF_SEL with `c` and listens in the direction of `v` holds the message of the
frame that `c` makes of the payload `p`. -/
theorem pushAll_encodedFrame {c : Cfg} {b : State} (hb : rxIdle b) (hlayout : b.cfg.layout = layoutTable)
    (hkey : b.cfg.key = c.key) (hchk : b.cfg.chk = c.chk) (hsel : b.cfg.obfSel = c.obfSel) {v : Variant}
    (hd : b.cfg.rxDir = v.dir) (h : TxHead) {p : Bytes} (hp : p.length ≤ maxPayload)
    (hn : need (layoutOf layoutTable v) p ≤ p.length) :
    ∃ t, pushAll (encodedFrame c v h p) b = .next t ∧ t.rxPhase = .frameReady ∧
      t.rxOut = some (.msg (frameHdr h.tid h.pid h.uid p.length) (kindCode v.kind) v.dir v.kind
        (decodeFields (layoutOf layoutTable v) p)) := by
  have hl : b.launched = true := hb.1
  have hw := length_transform c h.pid (kindCode v.kind) v.dir p
  let f := builtFrame b.cfg h.tid h.pid h.uid (kindCode v.kind) (transform c h.pid (kindCode v.kind) v.dir p)
  have hv : verifiedFrame b.cfg (kindCode v.kind) f := verifiedFrame_builtFrame _ _ _ _ _ (hw.trans_le hp)
  have hplain : plaintext b.cfg (kindCode v.kind) f = p := by
    rw [plaintext, hd]
    exact transform_transform hkey hsel _ _ _ p
  have hpush := exec_ofReceive_message hb hlayout hd hv (by rw [hplain]; exact hn.trans_eq hw.symm)
  rw [exec_ofReceive_eq_pushAll hl hd hv.1, frameBytes_builtFrame, frameBuild_of_chk hchk] at hpush
  have hhdr : hdrOf f = frameHdr h.tid h.pid h.uid p.length := congrArg (frameHdr h.tid h.pid h.uid) hw
  rw [messageOf, hplain, hhdr] at hpush
  exact ⟨_, hpush, rfl, rfl⟩

/-- Settles O36: the payload that the first block encodes is just as long as the second needs, and decoding it reads the
command's fields back. -/
theorem encodedMessageIsDecoded : Obligations.EncodedMessageIsDecoded := by
  intro a b v h fields ha hb hla hlb hkey hchk hsel hd hf hlen
  have hfit := fieldsFit_sentFields a.cfg hf
  rw [encodePayload_eq hla] at hlen ⊢
  obtain ⟨b', hpush, hphase, hout⟩ := pushAll_encodedFrame hb hlb hkey hchk hsel hd h hlen (need_encodeFields hfit).le
  rw [decodeFields_encodeFields hfit, normaliseFields_sentFields] at hout
  exact ⟨_, b', (exec_ofTransmit_of_commandFits hf h a).trans (transmitVariant_queues ha hla h hf rfl hlen), hpush,
    hphase, hout⟩

end Sys2Proof.Machine

/-! The outputs of the block (spec/60_exceptions.md): the event trace and what the two ports have delivered only grow. -/

namespace Sys2Proof.Machine

/-- A pop releases the held result and leaves the bytes delivered alone; its settle appends to the trace (R128, R210). -/
theorem outputs_prefix_pop (n : Nat) (s : State) :
    s.ev <+: (settle (release (dropFront n s))).ev ∧ s.results <+: (settle (release (dropFront n s))).results ∧
      s.taken <+: (settle (release (dropFront n s))).taken :=
  ⟨settle_ev_prefix (release (dropFront n s)), by simp, by simp⟩

/-- Settles O13: of all that `exec` can do, only settle and TX_TOO_LONG write the trace, only a pop the results and only
a take the bytes delivered, and each of them appends (R210, R213, R254). -/
theorem traceAndPortsOnlyGrow : Obligations.TraceAndPortsOnlyGrow := by
  intro i s t h
  rcases exec_cases h with ⟨c, -, -, rfl⟩ | ⟨-, -, -, bs, -, hpush⟩ | ⟨-, -, -, rfl⟩ |
    ⟨-, -, -, -, ⟨hd, fc, w, -, rfl⟩ | ⟨tid, fc, n, -, rfl⟩⟩ | ⟨-, -, b, rest, -, rfl⟩
  · exact ⟨List.prefix_rfl, List.prefix_rfl, List.prefix_rfl⟩
  · obtain ⟨-, -, -, htaken, -, hresults, hev⟩ := pushAll_frame_fields hpush
    exact ⟨hev, by rw [hresults], by rw [htaken]⟩
  · exact outputs_prefix_pop s.rxNeed s
  · exact ⟨List.prefix_rfl, List.prefix_rfl, List.prefix_rfl⟩
  · exact ⟨List.prefix_append _ _, List.prefix_rfl, List.prefix_rfl⟩
  · exact ⟨List.prefix_rfl, List.prefix_rfl, List.prefix_append _ _⟩

end Sys2Proof.Machine

/-! What is enabled (spec/70_reset_and_hazards.md): before the first RESET nothing else, and while a frame's bytes wait no
transmit command. -/

namespace Sys2Proof.Machine

/-- R242: of all that `exec` can do, only RESET does it in a state that has had no RESET. -/
theorem launched_of_exec {i : Instr} {s t : State} (hi : ∀ c, i ≠ .reset c) (h : exec i s = .next t) :
    s.launched = true := by
  rcases exec_cases h with ⟨c, hreset, -⟩ | ⟨hl, -⟩ | ⟨hl, -⟩ | ⟨hl, -⟩ | ⟨hl, -⟩
  · exact absurd hreset (hi c)
  all_goals exact hl

/-- Settles O9: an instruction other than RESET has a next state in launched states alone, and nothing faults. -/
theorem nothingBeforeFirstReset : Obligations.NothingBeforeFirstReset := by
  intro i s hs hi
  refine exec_refused_of_not_next fun t h => ?_
  rw [launched_of_exec hi h] at hs
  cases hs

/-- R190: TX_ENC and the ENC rows ask for an empty queue before they look at the fields. -/
theorem transmitVariant_busy {s : State} (hl : s.launched = true) (hq : s.txQ ≠ []) (v : Variant) (h : TxHead)
    (fields : Fields) : transmitVariant v h fields s = .refused .txCmdNotReady := by
  rw [transmitVariant, afterLaunch_launched hl, if_neg (mt txCmdReady_iff.mp hq)]

/-- R191: TX_RAW and RAW.ANY ask for an empty queue before they look at the payload. -/
theorem transmitRaw_busy {s : State} (hl : s.launched = true) (hq : s.txQ ≠ []) (h : TxHead) (fc : Byte) (p : Bytes) :
    transmitRaw h fc p s = .refused .txCmdNotReady := by
  rw [transmitRaw, afterLaunch_launched hl, if_neg (mt txCmdReady_iff.mp hq)]

/-- Settles O58: a transmit instruction other than the take has the meaning of TX_ENC or of TX_RAW. -/
theorem commandsWaitForTheQueue : Obligations.CommandsWaitForTheQueue := by
  intro i s hl hq hi htake
  cases i with
  | txRaw | rawAny => exact transmitRaw_busy hl hq _ _ _
  | txEnc | encAnnounceUp | encEnergyUp | encBufferedUp | encPingUp | encConfigUp | encQueryUp | encAnnounceAck
  | encEnergyAck | encBufferedAck | encPingDown | encConfigDown | encQueryDown => exact transmitVariant_busy hl hq _ _ _
  | txTake => exact absurd rfl htake
  | reset | rxPush | rxPop | reserved110 | reserved111 | decAnnounceUp | decEnergyUp | decBufferedUp | decPingUp
  | decConfigUp | decQueryUp | decAnnounceAck | decEnergyAck | decBufferedAck | decPingDown | decConfigDown
  | decQueryDown | decPass => cases hi

end Sys2Proof.Machine
